-- ==== Sys2Proof/Word.lean ====
section
/-!
DEFINITION. The values the block handles, as spec/00_scope.md rule R7 writes them: bytes, the two
selector codes of spec/30_encoding.md rules R67 and R68, one-bit levels, and model time.
-/

namespace Sys2Proof

/-- One byte, bit 7 has weight 0x80 (R7). -/
abbrev Byte := BitVec 8

/-- The 4-bit code UPC holds (R14, R68). -/
abbrev PhaseCode := BitVec 4

/-- The 2-bit command code `cmd[1:0]` (R67). -/
abbrev CmdCode := BitVec 2

/-- The level of a line: `false` is 0 (low), `true` is 1 (high) (R7, R44). -/
abbrev Level := Bool

/-- Model time in microseconds, a rational (R25). -/
abbrev Time := Rat

/-- A non-negative rational number of microseconds, written as a fraction (R148: a duration is a
non-negative rational, finite). Every non-negative rational is the value of some `Delay`, and no
`Delay` has a negative value. -/
structure Delay where
  num : Nat
  den : Nat
  deriving DecidableEq, Repr

/-- The value of a `Delay`; a fraction with denominator 0 counts as no delay. -/
def Delay.toTime (d : Delay) : Time := (d.num : Time) / (d.den : Time)

end Sys2Proof
end

