-- ==== Sys2Proof/Config.lean ====
section
/-!
DEFINITION. The parameters of spec/00_scope.md rule R6 that are OPEN, as one record (they are
arguments of the model: State carries a record of them and no step changes it, log entry 1), the
fixed counts of R6 that are no delay, and the two free values of the model.
The three delays of R6 stand in Sys2Proof/Machine/Timing.lean.
-/

namespace Sys2Proof

/-- `PIN_MAP` (R6, R42): which physical pin carries each of the five lines. -/
structure PinMap where
  latch : Nat
  clock : Nat
  data : Nat
  led0 : Nat
  led1 : Nat
  deriving DecidableEq, Repr

/-- The OPEN parameters of R6 with the defaults R6 gives; a parameter with no default is `none`. -/
structure Params where
  /-- `REPORT_BYTES`, the byte size of the report buffer. -/
  reportBytes : Nat := 1
  /-- `BUTTON_OFFSET`, the index of the button byte. -/
  buttonOffset : Nat := 0
  /-- `F_CLK_HZ`: `none` is the step-level model of R145 and R148; `some f` is the tick-level
  refinement of R156 with a reference clock of `f` Hz (log entry 2). DESIGN CHOICE (log entry 19):
  a whole number of hertz, where R6 leaves the frequency OPEN and gives it no type. -/
  fClkHz : Option Nat := none
  /-- `T_BUDGET` in microseconds; `none` is the unchecked budget of R151. -/
  tBudget : Option Time := none
  /-- `DATA_PULLUP` (R55). -/
  dataPullup : Bool := true
  /-- `PIN_MAP`; no rule about behaviour reads it (R42, D29). -/
  pinMap : Option PinMap := none
  deriving DecidableEq, Repr

/-- `N_BITS` (R6): bits shifted in per read. -/
def nBits : Nat := 8

/-- `T_SOF` (R6) in microseconds: context only, no rule of the block reads it. -/
def tSof : Time := 1000

/-- FREE VALUE (log entry 3). The level a sample gets when the spec says that the environment may
answer either: an unconnected DATA line without a pull-up (R55, U2), a line that is changing at
the sampling instant (R44, D23), a controller outside its contract (R54, R159, U4). It is applied
to the counter of draws in State. It has no body, so no proof knows a value of it. -/
opaque Config.freeLevel : Nat → Level

/-- FREE VALUE (log entry 23). In which step of a latch pulse the controller captures its buttons: at
the rise, during the high time or at the fall, which R54 (c) leaves open. It is applied to the count
of pulses captured so far, and taken modulo the number of steps of the pulse. It has no body. -/
opaque Config.freeCapture : Nat → Nat

end Sys2Proof
end

