-- ==== Sys2Proof/Syntax.lean ====
section
/-!
DEFINITION. The instructions in the sense of spec/00_scope.md rule R5: the four host commands and
the fourteen micro-operations, one constructor for each row of spec/opcode_table.json. None takes
an operand (spec/30_encoding.md rule R60: no register-number field and no immediate field).
-/

namespace Sys2Proof

/-- The eighteen rows of the opcode table: first the CMD format (R67), then the UPH format (R68). -/
inductive Instr where
  /-- NOP (R80) -/
  | nop
  /-- INIT (R81) -/
  | init
  /-- CREATE_REPORT (R82) -/
  | createReport
  /-- PROCESS_REPORT (R83); its payload is the input port `payload`, ignored -/
  | processReport
  /-- IDLE (R90) -/
  | idle
  /-- CLR (R91) -/
  | clr
  /-- LATCH_HI (R92) -/
  | latchHi
  /-- WAIT_LATCH (R93) -/
  | waitLatch
  /-- LATCH_LO (R94) -/
  | latchLo
  /-- SAMPLE (R95) -/
  | sample
  /-- CLK_HI (R96) -/
  | clkHi
  /-- WAIT_CLK_HI (R97) -/
  | waitClkHi
  /-- CLK_LO (R98) -/
  | clkLo
  /-- WAIT_CLK_LO (R99) -/
  | waitClkLo
  /-- LOOP (R100) -/
  | loop
  /-- DECODE (R101) -/
  | decode
  /-- PACK (R110) -/
  | pack
  /-- DONE (R111) -/
  | done
  deriving DecidableEq, Repr

/-- A selector word: a code of one of the two selector formats (R60). The format belongs to the
word because the two codes stand at different places (the command port, the register UPC) and
the same number means different things in them. -/
inductive CodeWord where
  /-- CMD format (R67) -/
  | cmd (code : CmdCode)
  /-- UPH format (R68) -/
  | uph (code : PhaseCode)
  deriving DecidableEq, Repr

end Sys2Proof
end

