-- ==== Sys2Proof/WellFormed.lean ====
section
/-!
DEFINITION. What must hold of a word and of the parameters before the rules apply. A term of
`Instr` has no operand, so every term of it is well formed; what can be ill formed is a selector
word (a reserved phase code, spec/30_encoding.md rule R69) and a parameter record
(spec/00_scope.md rule R6 and spec/10_state.md rule R19).
-/

namespace Sys2Proof

/-- A selector word that is not reserved: every CMD code is defined (R69 (b)); the UPH codes 0xE
and 0xF are reserved (R69 (a)). -/
def CodeWord.wf : CodeWord → Bool
  | .cmd _ => true
  | .uph c => decide (c.toNat ≤ 0xD)

/-- The bounds the spec puts on the OPEN parameters: `REPORT_BYTES` at least 1 and below 65536
(R6, R19), `BUTTON_OFFSET < REPORT_BYTES` (R6), and a clock that runs, so that every `N_x ≥ 1`
(R156). -/
def Params.wf (p : Params) : Bool :=
  decide (1 ≤ p.reportBytes) && decide (p.reportBytes < 65536)
    && decide (p.buttonOffset < p.reportBytes)
    && (match p.fClkHz with
        | none => true
        | some f => decide (1 ≤ f))

end Sys2Proof
end

