-- ==== Sys2Proof/Decode.lean ====
section
/-!
DEFINITION. The decoder and the encoder of the two selector formats, both written from the tables
of spec/30_encoding.md rules R67 and R68, and the host's numbering of table words.
-/

namespace Sys2Proof

/-! The four codes of the CMD format (R67). -/
@[simp] abbrev Cmd.nop : CmdCode := 0b00#2
@[simp] abbrev Cmd.init : CmdCode := 0b01#2
@[simp] abbrev Cmd.createReport : CmdCode := 0b10#2
@[simp] abbrev Cmd.processReport : CmdCode := 0b11#2

/-! The fourteen codes of the UPH format (R68). -/
@[simp] abbrev Upc.idle : PhaseCode := 0x0#4
@[simp] abbrev Upc.clr : PhaseCode := 0x1#4
@[simp] abbrev Upc.latchHi : PhaseCode := 0x2#4
@[simp] abbrev Upc.waitLatch : PhaseCode := 0x3#4
@[simp] abbrev Upc.latchLo : PhaseCode := 0x4#4
@[simp] abbrev Upc.sample : PhaseCode := 0x5#4
@[simp] abbrev Upc.clkHi : PhaseCode := 0x6#4
@[simp] abbrev Upc.waitClkHi : PhaseCode := 0x7#4
@[simp] abbrev Upc.clkLo : PhaseCode := 0x8#4
@[simp] abbrev Upc.waitClkLo : PhaseCode := 0x9#4
@[simp] abbrev Upc.loop : PhaseCode := 0xA#4
@[simp] abbrev Upc.decode : PhaseCode := 0xB#4
@[simp] abbrev Upc.pack : PhaseCode := 0xC#4
@[simp] abbrev Upc.done : PhaseCode := 0xD#4

/-- Why a word is rejected. -/
inductive Reject where
  /-- UPH code 0xE or 0xF (R69 (a)); rejecting it is safe, the model gives it no step. -/
  | reservedPhase (code : PhaseCode)
  deriving DecidableEq, Repr

/-- The command a CMD code stands for; all four codes are defined (R67). -/
def decodeCmd (c : CmdCode) : Instr :=
  if c = Cmd.nop then .nop
  else if c = Cmd.init then .init
  else if c = Cmd.createReport then .createReport
  else .processReport

/-- The micro-operation a UPH code stands for (R68); 0xE and 0xF are rejected by name (R69). -/
def decodePhase (c : PhaseCode) : Except Reject Instr :=
  if c = Upc.idle then .ok .idle
  else if c = Upc.clr then .ok .clr
  else if c = Upc.latchHi then .ok .latchHi
  else if c = Upc.waitLatch then .ok .waitLatch
  else if c = Upc.latchLo then .ok .latchLo
  else if c = Upc.sample then .ok .sample
  else if c = Upc.clkHi then .ok .clkHi
  else if c = Upc.waitClkHi then .ok .waitClkHi
  else if c = Upc.clkLo then .ok .clkLo
  else if c = Upc.waitClkLo then .ok .waitClkLo
  else if c = Upc.loop then .ok .loop
  else if c = Upc.decode then .ok .decode
  else if c = Upc.pack then .ok .pack
  else if c = Upc.done then .ok .done
  else .error (.reservedPhase c)

/-- The decoder: total on every selector word. -/
def decode : CodeWord → Except Reject Instr
  | .cmd c => .ok (decodeCmd c)
  | .uph c => decodePhase c

/-- The encoder: the selector word of each instruction (R67, R68). -/
def encode : Instr → CodeWord
  | .nop => .cmd Cmd.nop
  | .init => .cmd Cmd.init
  | .createReport => .cmd Cmd.createReport
  | .processReport => .cmd Cmd.processReport
  | .idle => .uph Upc.idle
  | .clr => .uph Upc.clr
  | .latchHi => .uph Upc.latchHi
  | .waitLatch => .uph Upc.waitLatch
  | .latchLo => .uph Upc.latchLo
  | .sample => .uph Upc.sample
  | .clkHi => .uph Upc.clkHi
  | .waitClkHi => .uph Upc.waitClkHi
  | .clkLo => .uph Upc.clkLo
  | .waitClkLo => .uph Upc.waitClkLo
  | .loop => .uph Upc.loop
  | .decode => .uph Upc.decode
  | .pack => .uph Upc.pack
  | .done => .uph Upc.done

/-- The selector word that a table row's bits stand for. Up to 2 bits are a CMD code and up to 4
bits a UPH code, as the widths of the table say. In a whole byte the width is lost, and the codes
0 to 3 then belong to two rows each: such a byte is read as the host command, a byte from 4 to 15
as the UPH code (log entry 4). A word with a bit set above its format is no word. -/
def tableCodeWord (nbits w : Nat) : Option CodeWord :=
  if nbits ≤ 2 then (if w < 4 then some (.cmd (BitVec.ofNat 2 w)) else none)
  else if nbits ≤ 4 then (if w < 16 then some (.uph (BitVec.ofNat 4 w)) else none)
  else if w < 4 then some (.cmd (BitVec.ofNat 2 w))
  else if w < 16 then some (.uph (BitVec.ofNat 4 w))
  else none

/-- The instruction the decoder reads from a table word, `none` where it refuses. -/
def decodeTableWord (nbits w : Nat) : Option Instr :=
  match tableCodeWord nbits w with
  | none => none
  | some cw =>
    match decode cw with
    | .ok i => some i
    | .error _ => none

end Sys2Proof
end

