-- ==== Sys2Proof/Machine/State.lean ====
section
/-!
DEFINITION. The state of the block as spec/10_state.md rule R10 lists it, plus the model's own
fields (the parameters, the input ports with what the environment presents later, the draw
counter, the connected controller), the reasons a step can stop, and the state after reset (R32).
-/

namespace Sys2Proof.Machine

/-- ButtonState (R13), in wire order: `BS[0]` = a to `BS[7]` = right; `true` is pressed. -/
structure ButtonState where
  a : Bool
  b : Bool
  select : Bool
  start : Bool
  up : Bool
  down : Bool
  left : Bool
  right : Bool
  deriving DecidableEq, Repr

/-- `DIR` (R20): `true` means the block drives the line, `false` a high-impedance input. -/
structure Dir where
  latch : Bool
  clock : Bool
  data : Bool
  led0 : Bool
  led1 : Bool
  deriving DecidableEq, Repr

/-- `OUT` (R21): the output latches of the two lines the block can drive. -/
structure OutLatch where
  latch : Level
  clock : Level
  deriving DecidableEq, Repr

/-- The events of the trace `EVT` (R26). -/
inductive Event where
  | latchRise
  | latchFall
  | sample (i : BitVec 4) (d : Level)
  | clockRise (i : BitVec 4)
  | clockFall (i : BitVec 4)
  | reportReady (bytes : List Byte)
  deriving DecidableEq, Repr

/-- An event stamped with `NOW` (R26). -/
abbrev Stamped := Event × Time

/-- The report space (R40, R41): the listed bytes of `RPT`, in the canonical form `Memory.wf`
(Sys2Proof/Machine/Ops.lean). -/
abbrev Memory := List Host.Cell

/-- How the environment answers `PinRead(DATA)` in one step (R44, R53, R55). -/
inductive DataLine where
  /-- The line shows this level (R44). -/
  | driven (level : Level)
  /-- A connected, well-behaved controller on which these buttons are held in this step (R53). What
  it answers is what it captured at the last latch pulse, not what is held now (R154). -/
  | controller (held : ButtonState)
  /-- No controller is connected (R55). -/
  | floating
  /-- The line is changing at the sampling instant (R44). -/
  | changing
  deriving DecidableEq, Repr

/-- What the connected controller has captured (R28, R53 (a), R154). -/
inductive Capture where
  /-- Nothing the contract of R53 speaks of: no controller, none since the pulse, no pulse. -/
  | nothing
  /-- LATCH is high; the buttons held in each step of the pulse so far, first one first. -/
  | latching (held : List ButtonState)
  /-- The buttons captured at the last latch pulse. -/
  | captured (buttons : ButtonState)
  deriving DecidableEq, Repr

/-- The controller's own state, which is outside the block (R28). -/
structure Pad where
  capture : Capture
  /-- How many latch pulses have been captured (log entry 23). -/
  pulses : Nat
  deriving DecidableEq, Repr

/-- What the environment presents to the block during one step: the input ports of decision D1,
and the time by which it lengthens the step (R123, R148). -/
structure Input where
  /-- Reset input `rst` (R140). -/
  rst : Bool
  /-- Command code `cmd[1:0]` (R67). -/
  cmd : CmdCode
  /-- The bytes of PROCESS_REPORT, ignored (R83). -/
  payload : List Byte
  /-- The DATA line (R44). -/
  data : DataLine
  /-- Step level: how far the step's duration exceeds the least one (R123, R145, R148). -/
  extra : Delay
  /-- Tick level: the input `stall` (R156). -/
  stall : Bool
  deriving DecidableEq, Repr

/-- An environment that does nothing: no reset, the command NOP, nothing connected to DATA, no
lengthening. What is presented when the list of later inputs has ended (log entry 5). -/
def Input.quiet : Input :=
  { rst := false, cmd := 0b00#2, payload := [], data := .floating, extra := ⟨0, 1⟩, stall := false }

/-- The state (R10). The fields from `params` on are the model's own. -/
structure State where
  /-- `ACC`, 8 bits (R11). -/
  acc : BitVec 8
  /-- `I`, 4 bits (R12). -/
  i : BitVec 4
  /-- `BS` (R13). -/
  bs : ButtonState
  /-- `UPC`, 4 bits (R14). -/
  upc : PhaseCode
  /-- `BUSY` (R15). -/
  busy : Bool
  /-- `RDY` (R16). -/
  rdy : Bool
  /-- `INITED` (R17). -/
  inited : Bool
  /-- `FORCE`, hard-wired 0 (R18): written and read through Flags.lean only. -/
  force : Bool
  /-- `SIZE`, 16 bits (R19). -/
  size : BitVec 16
  /-- `DIR` (R20). -/
  dir : Dir
  /-- `OUT` (R21). -/
  out : OutLatch
  /-- `TMR` (R23); it moves only when `params.fClkHz` is given. -/
  tmr : Nat
  /-- `RPT` (R24). -/
  rpt : Memory
  /-- `NOW`, ghost (R25). -/
  now : Time
  /-- `EVT`, ghost, oldest first (R26). -/
  evt : List Stamped
  /-- The OPEN parameters of R6; no step writes them (log entry 1). -/
  params : Params
  /-- What the environment presents in the next step. -/
  ports : Input
  /-- What it presents in the steps after that, next one first. -/
  script : List Input
  /-- How many free levels have been drawn (log entry 3). -/
  draws : Nat
  /-- The connected controller (R28, R53, R154; log entry 23). -/
  pad : Pad
  deriving DecidableEq, Repr

/-- Reasons the machine stops with a fault. The block itself has no exception (R120). -/
inductive Fault where
  /-- Raised by `memRead` and `memWrite` for a byte index at or above `REPORT_BYTES`, which R41
  says no rule of the block forms. PACK meets it only under parameters that R6 forbids
  (`BUTTON_OFFSET ≥ REPORT_BYTES`). Safe: the machine stops. -/
  | noSuchReportByte (addr : Nat)
  deriving DecidableEq, Repr

/-- Reasons the model gives no step (R121) or no answer. All are safe: nothing is claimed of a
run that meets one. -/
inductive Refusal where
  /-- Raised by `exec` for an instruction with no meaning yet; no arm raises it now. -/
  | notModelled (mnemonic : String)
  /-- `CmdWhileBusy` (R84, R121): raised by INIT, CREATE_REPORT and PROCESS_REPORT, and by a step
  in which a command other than NOP is presented, while the block cannot take one. -/
  | cmdWhileBusy
  /-- `NotInitialised` (R84, R121): raised by CREATE_REPORT while `INITED` is 0. -/
  | notInitialised
  /-- `ReservedPhase` (R69, R121): raised by a step whose `UPC` is 0xE or 0xF. -/
  | reservedPhase
  /-- Raised by `takeReport` while `BUSY` is 1 (R50; entry U7 of spec/93_implementation_defined.md);
  no step raises it. -/
  | readWhileBusy
  /-- Raised by `takeReport` while `RDY` is 0 and `BUSY` is 0: R89 lets the host take the report
  only when `RDY` is 1; no step raises it. -/
  | noReport
  deriving DecidableEq, Repr

/-- The state right after power-on: every row of R32's table, the parameters at the defaults of
R6, and an environment that does nothing. -/
def State.reset : State :=
  { acc := 0x00#8
    i := 0#4
    bs := ⟨false, false, false, false, false, false, false, false⟩
    upc := 0x0#4
    busy := false
    rdy := false
    inited := false
    force := false
    size := 0#16
    dir := ⟨false, false, false, false, false⟩
    out := ⟨false, false⟩
    tmr := 0
    rpt := []
    now := 0
    evt := []
    params := {}
    ports := Input.quiet
    script := []
    draws := 0
    pad := ⟨.nothing, 0⟩ }

end Sys2Proof.Machine
end

