-- ==== Sys2Proof/Machine/Timing.lean ====
section
/-!
DEFINITION. Time: the three minimum delays (spec/00_scope.md rule R6), how a step advances `NOW`
(spec/70_reset_and_hazards.md rules R145 to R148), the tick counts and the down-counter of the
tick-level refinement (R156), and the check of a trace against the minima (R145).
-/

namespace Sys2Proof.Machine

/-- `T_LATCH_MIN` in microseconds (R6). -/
def tLatchMin : Nat := 12

/-- `T_CLK_HI_MIN` in microseconds (R6). -/
def tClkHiMin : Nat := 6

/-- `T_CLK_LO_MIN` in microseconds (R6). -/
def tClkLoMin : Nat := 6

/-- `T_READ_MIN` (R6, R150): the sum of the required waits of one read. -/
def tReadMin : Nat := tLatchMin + nBits * (tClkHiMin + tClkLoMin)

/-- `N_x` (R156): `T_x × F_CLK_HZ / 1000000` rounded up. -/
def tickCount (t f : Nat) : Nat := (t * f + 999999) / 1000000

/-- The length of one clock period in microseconds (R156). -/
def period (f : Nat) : Time := 1000000 / (f : Time)

/-- `TMR_W` (R23): the least width that holds the largest of the three tick counts. -/
def tmrWidth (f : Nat) : Nat :=
  Nat.log2 (max (tickCount tLatchMin f) (max (tickCount tClkHiMin f) (tickCount tClkLoMin f))) + 1

/-- `NOW` moves on to the instant of this step, before the step's effects (R148). At step level
the distance is at least `t`, the wait the step stands for (R145, 0 for every other step: R146),
and longer by whatever the environment adds (R123, R147); at tick level it is one clock period
(R156). DESIGN CHOICE (log entry 20): at tick level every effect of a period, SAMPLE's read of DATA
included, has the instant of the period's end, where R156 says so of pin writes only. -/
def elapse (t : Nat) (s : State) : State :=
  match s.params.fClkHz with
  | none => { s with now := s.now + (t : Time) + s.ports.extra.toTime }
  | some f => { s with now := s.now + period f }

/-- `TMR <- N_x`, tick level only (R92, R96, R98). -/
def loadTmr (t : Nat) (s : State) : State :=
  match s.params.fClkHz with
  | none => s
  | some f => { s with tmr := tickCount t f }

/-- The body the three WAIT micro-operations share: `Wait(t)` and then `UPC <- succ`. At step
level one step whose instant is at least `t` after the step before (R145); at tick level one
clock period of the countdown of R156. -/
def waitFor (t : Nat) (succ : PhaseCode) (s : State) : State :=
  match s.params.fClkHz with
  | none => { elapse t s with upc := succ }
  | some _ =>
    if 1 < s.tmr then { elapse t s with tmr := s.tmr - 1 }
    else { elapse t s with tmr := 0, upc := succ }

/-- A clock period with `stall = 1` (R156): nothing changes but the time that passes. -/
def stallPeriod (s : State) : State :=
  { s with now := (elapse 0 s).now }

/-- Whether this is a stalled clock period: `stall` is an input of the tick level only (R156). -/
def stalled (s : State) : Bool :=
  s.params.fClkHz.isSome && s.ports.stall

/-- The least distance between an event and the event after it (R145; 0 where R146 requires no
delay). The two events of each inequality of R145 stand next to each other in `EVT`. -/
def minGap : Event → Event → Nat
  | .latchRise, .latchFall => tLatchMin
  | .clockRise _, .clockFall _ => tClkHiMin
  | .clockFall _, .sample _ _ => tClkLoMin
  | .clockFall _, .reportReady _ => tClkLoMin
  | _, _ => 0

/-- Whether a trace meets R145: each event comes no earlier than its least distance after the
event before it. -/
def minimaHold : List Stamped → Bool
  | [] => true
  | [_] => true
  | x :: y :: rest =>
    decide (x.2 + (minGap x.1 y.1 : Time) ≤ y.2) && minimaHold (y :: rest)

/-- The host's budget (R151): unchecked unless `T_BUDGET` is supplied. -/
def withinBudget (p : Params) (acceptance ready : Time) : Bool :=
  match p.tBudget with
  | none => true
  | some b => decide (ready ≤ acceptance + b)

end Sys2Proof.Machine
end

