-- ==== Sys2Proof/Machine/Ops.lean ====
section
/-!
DEFINITION. The named operations over the report space and the pins (spec/20_memory.md), the
trace, the phase register, the input ports, and reset, which is the one event that takes the
machine out of its sequence (the block has no exception and takes no interrupt:
spec/60_exceptions.md rules R120 and R122).
-/

namespace Sys2Proof.Machine

/-- What a step or a meaning answers. -/
abbrev Result := Host.Outcome State Fault Refusal

/-! ## The report space (R40, R41) -/

/-- What a byte that is not listed reads as: the reset contents of `RPT` (R24, R32). -/
def Memory.unlisted : Byte := 0x00#8

/-- The canonical form: addresses strictly rising, no entry equal to what an unlisted address
reads as. -/
abbrev Memory.wf (m : Memory) : Prop :=
  m.Pairwise (fun x y => x.1 < y.1) ∧ ∀ c ∈ m, c.2 ≠ Memory.unlisted

/-- The byte at index `addr`. -/
def Memory.read : Memory → Nat → Byte
  | [], _ => Memory.unlisted
  | (k, v) :: rest, addr => if k = addr then v else Memory.read rest addr

/-- One byte in front of a list, left out if it equals what an unlisted address reads as. -/
def Memory.put (addr : Nat) (v : Byte) (rest : Memory) : Memory :=
  if v = Memory.unlisted then rest else (addr, v) :: rest

/-- The memory with byte `addr` set to `v`, in canonical form again. -/
def Memory.write : Memory → Nat → Byte → Memory
  | [], addr, v => Memory.put addr v []
  | (k, w) :: rest, addr, v =>
    if addr < k then Memory.put addr v ((k, w) :: rest)
    else if addr = k then Memory.put addr v rest
    else (k, w) :: Memory.write rest addr v

/-- The bytes at indexes 0 to `n - 1` set to zero, one after the other (R110's first line). -/
def Memory.zeroBelow : Nat → Memory → Memory
  | 0, m => m
  | n + 1, m => (Memory.zeroBelow n m).write n 0x00#8

/-- `MemRead(addr, 1)` (R41). -/
def memRead (addr : Nat) (s : State) : Except Fault Byte :=
  if addr < s.params.reportBytes then .ok (s.rpt.read addr) else .error (.noSuchReportByte addr)

/-- `MemWrite(addr, 1, v)` (R41). -/
def memWrite (addr : Nat) (v : Byte) (s : State) : Except Fault State :=
  if addr < s.params.reportBytes then .ok { s with rpt := s.rpt.write addr v }
  else .error (.noSuchReportByte addr)

/-- `for j in 0 .. REPORT_BYTES-1: MemWrite(j, 1, 0x00)` (R110). -/
def zeroReport (s : State) : State :=
  { s with rpt := Memory.zeroBelow s.params.reportBytes s.rpt }

/-- The report as the host is given it, in index order (R46). -/
def reportImage (s : State) : List Byte :=
  (List.range s.params.reportBytes).map s.rpt.read

/-! ## The pin space (R40, R42, R43) -/

/-- The five lines (R42). -/
inductive Line where
  | latch
  | clock
  | data
  | led0
  | led1
  deriving DecidableEq, Repr

/-- The two lines `PinWrite` exists for (R43). -/
inductive OutLine where
  | latch
  | clock
  deriving DecidableEq, Repr

/-- `PinWrite(p, b)` (R43): the output latch takes the level. -/
def pinWrite (p : OutLine) (b : Level) (s : State) : State :=
  match p with
  | .latch => { s with out := { s.out with latch := b } }
  | .clock => { s with out := { s.out with clock := b } }

/-- The level the block drives on a line, `none` where it drives none (R20, R22). -/
def lineLevel (s : State) : Line → Option Level
  | .latch => if s.dir.latch then some s.out.latch else none
  | .clock => if s.dir.clock then some s.out.clock else none
  | .data => none
  | .led0 => none
  | .led1 => none

/-- INIT's writes of `DIR` (R20, R81). -/
def configureLines (s : State) : State :=
  { s with dir := { latch := true, clock := true, data := false, led0 := false, led1 := false } }

/-- `PIN_MAP` (R42): the physical pin of a line, where the parameter is given. -/
def physicalPin (p : Params) (l : Line) : Option Nat :=
  p.pinMap.map fun m =>
    match l with
    | .latch => m.latch
    | .clock => m.clock
    | .data => m.data
    | .led0 => m.led0
    | .led1 => m.led1

/-! ## The trace, the phase register, the ports -/

/-- `Emit(e)` (R26). -/
def emit (e : Event) (s : State) : State :=
  { s with evt := s.evt ++ [(e, s.now)] }

/-- `UPC <- p` (R14). -/
def jump (p : PhaseCode) (s : State) : State :=
  { s with upc := p }

/-- The environment goes on to what it presents in the next step. -/
def nextInput (s : State) : State :=
  { s with ports := s.script.headD Input.quiet, script := s.script.tail }

/-! ## Reset (R140, R144) -/

/-- Every item of R32's table at its reset value. The parameters and the environment are not state
of the block and stay (R29; log entry 6). -/
def resetBlock (s : State) : State :=
  { State.reset with
    params := s.params, ports := s.ports, script := s.script, draws := s.draws, pad := s.pad }

end Sys2Proof.Machine
end

