-- ==== Sys2Proof/Machine/Controller.lean ====
section
/-!
DEFINITION. A connected, well-behaved controller: what it captures at a latch pulse and what it
answers after it (spec/20_memory.md rule R53, spec/70_reset_and_hazards.md rule R154), as a function
of what the block has done at its lines; and where the contract says nothing (R54, R159).
-/

namespace Sys2Proof.Machine

/-- `BS[k]` in wire order (R13); no flag is named by an index above 7. -/
def ButtonState.get (bs : ButtonState) (k : Nat) : Bool :=
  match k with
  | 0 => bs.a
  | 1 => bs.b
  | 2 => bs.select
  | 3 => bs.start
  | 4 => bs.up
  | 5 => bs.down
  | 6 => bs.left
  | 7 => bs.right
  | _ => false

/-- The part of the trace from the last `LATCH_RISE` on: what the controller has seen since it was
last told to capture its buttons (R53 (a)). -/
def sinceLatch (evt : List Stamped) : List Stamped :=
  evt.foldl (fun seen x => if x.1 = .latchRise then [x] else seen ++ [x]) []

def Event.isLatchRise : Event → Bool
  | .latchRise => true
  | _ => false

def Event.isLatchFall : Event → Bool
  | .latchFall => true
  | _ => false

def Event.isClockRise : Event → Bool
  | .clockRise _ => true
  | _ => false

def Event.isClockFall : Event → Bool
  | .clockFall _ => true
  | _ => false

/-- The level R53 puts on DATA at instant `now`, for a controller that captured `p`: after the
latch pulse bit 0, after `j` finished clock pulses bit `j`, low for pressed. The contract answers
only if the latch was pulsed, every clock pulse has ended, fewer than eight of them were given
(R54 (b)), and every delay so far, the one before this sample included, met its minimum (R159). -/
def contractLevel (p : ButtonState) (evt : List Stamped) (now : Time) : Option Level :=
  let seen := sinceLatch evt
  let rises := seen.countP (fun x => x.1.isClockRise)
  let falls := seen.countP (fun x => x.1.isClockFall)
  if (seen.any fun x => x.1.isLatchRise) && (seen.any fun x => x.1.isLatchFall)
      && rises == falls && decide (falls < 8)
      && minimaHold (seen ++ [(Event.sample 0#4 true, now)]) then
    some (!p.get falls)
  else none

/-! ## The capture (R53 (a), R154) -/

/-- Whether the controller sees LATCH high. -/
def latchHigh (s : State) : Bool := lineLevel s .latch == some true

/-- The buttons captured by a pulse in whose steps these were held, `last` at the fall: those of one
of its steps, all eight in parallel, the spec does not say of which (R54 (c); log entry 23). -/
def captureOf (pulses : Nat) (held : List ButtonState) (last : ButtonState) : ButtonState :=
  (held ++ [last]).getD (Config.freeCapture pulses % (held.length + 1)) last

/-- The controller after a step that led from `before` to `after`. With no controller connected, or
at a reset, no capture is left the contract speaks of; a line that shows something else than the
controller leaves open what is held, so no capture is claimed of a pulse with such a step. A capture
stays as it is until the next pulse, whatever is held then (R154). -/
def padAfter (before after : State) : Pad :=
  let pad := before.pad
  if before.ports.rst then { pad with capture := .nothing }
  else
    match before.ports.data with
    | .floating => { pad with capture := .nothing }
    | .driven _ | .changing =>
      if latchHigh before || latchHigh after then { pad with capture := .nothing } else pad
    | .controller held =>
      match latchHigh before, latchHigh after, pad.capture with
      | false, false, _ => pad
      | false, true, _ => { pad with capture := .latching [held] }
      | true, true, .latching l => { pad with capture := .latching (l ++ [held]) }
      | true, false, .latching l =>
        { capture := .captured (captureOf pad.pulses l held), pulses := pad.pulses + 1 }
      | true, _, _ => { pad with capture := .nothing }

/-- The level the connected controller puts on DATA: the contract's for what it has captured. -/
def padLevel (s : State) : Option Level :=
  match s.pad.capture with
  | .captured p => contractLevel p s.evt s.now
  | .nothing => none
  | .latching _ => none

/-- The end of a step: the controller has seen it, and the environment presents its next input. -/
def endStep (before after : State) : State :=
  nextInput { after with pad := padAfter before after }

end Sys2Proof.Machine
end

