-- ==== Sys2Proof/Machine/Operands.lean ====
section
/-!
DEFINITION. Where the micro-operations take their operands from: the DATA line, the bit position
SAMPLE stores to, the two button tables, the constant DONE writes
(spec/30_encoding.md rules R61 to R66 and R70; spec/20_memory.md rules R44, R45, R53 and R55).
-/

namespace Sys2Proof.Machine

/-- A level nobody fixes: one draw of the free value, and the counter moves on (log entry 3). -/
def freeDraw (s : State) : Level × State :=
  (Config.freeLevel s.draws, { s with draws := s.draws + 1 })

/-- `PinRead(DATA)` (R44): the level the environment answers at the instant `NOW`. An absent
controller reads high where the platform has a pull-up (R55); the contract of R53 answers for a
well-behaved controller; every other answer is a free draw. -/
def pinRead (s : State) : Level × State :=
  match s.ports.data with
  | .driven level => (level, s)
  | .controller _ =>
    match padLevel s with
    | some level => (level, s)
    | none => freeDraw s
  | .floating => if s.params.dataPullup then (true, s) else freeDraw s
  | .changing => freeDraw s

/-- SAMPLE's mask `0x80 >> I` (R70 (a)). -/
def sampleMask (i : BitVec 4) : Byte := 0x80#8 >>> i.toNat

/-- `ACC[7 - I] <- b`, the other seven bits unchanged (R95). -/
def storeBit (b : Bool) (s : State) : State :=
  { s with acc := if b then s.acc ||| sampleMask s.i else s.acc &&& ~~~(sampleMask s.i) }

/-- ButtonState with every flag 0 (R91). -/
def noButtons : ButtonState := ⟨false, false, false, false, false, false, false, false⟩

/-- The accumulator decoded with the masks of R62 (R101). -/
def decodeButtons (acc : Byte) : ButtonState :=
  { a := (acc &&& 0x80#8) != 0#8
    b := (acc &&& 0x40#8) != 0#8
    select := (acc &&& 0x20#8) != 0#8
    start := (acc &&& 0x10#8) != 0#8
    up := (acc &&& 0x08#8) != 0#8
    down := (acc &&& 0x04#8) != 0#8
    left := (acc &&& 0x02#8) != 0#8
    right := (acc &&& 0x01#8) != 0#8 }

/-- One line of R110: the byte with the mask OR-ed in if the flag is set. -/
def orIf (flag : Bool) (mask m : Byte) : Byte := if flag then m ||| mask else m

/-- The button byte built from the flags with the report bits of R64 (R110). -/
def packButtons (bs : ButtonState) : Byte :=
  orIf bs.right 0x80#8 <| orIf bs.left 0x40#8 <| orIf bs.down 0x20#8 <| orIf bs.up 0x10#8 <|
  orIf bs.start 0x08#8 <| orIf bs.select 0x04#8 <| orIf bs.b 0x02#8 <| orIf bs.a 0x01#8 0x00#8

/-- DONE's size value: `zext_16(REPORT_BYTES)` (R70 (c), R111). -/
def sizeValue (p : Params) : BitVec 16 := BitVec.ofNat 16 p.reportBytes

end Sys2Proof.Machine
end

