-- ==== Sys2Proof/Machine/Flags.lean ====
section
/-!
DEFINITION. The four flags and the size slot: when each is set, cleared and read
(spec/10_state.md rules R15 to R19). No rule of the block computes a condition code (R102).
-/

namespace Sys2Proof.Machine

/-- Whether the block takes a command: `UPC = IDLE` and `BUSY = 0` (R84). -/
def canTake (s : State) : Bool := decide (s.upc = Upc.idle) && !s.busy

/-- Acceptance of CREATE_REPORT: `BUSY <- 1`, `RDY <- 0` (R15, R16, R82). -/
def startOperation (s : State) : State := { s with busy := true, rdy := false }

/-- The flags DONE writes: `BUSY <- 0`, `RDY <- 1` (R15, R16, R111). -/
def endOperation (s : State) : State := { s with busy := false, rdy := true }

/-- `INITED <- 1` (R17, R81). -/
def markInited (s : State) : State := { s with inited := true }

/-- A write of `FORCE`: the bit is hard-wired 0, whatever is written (R18). -/
def writeForce (_ : Bool) (s : State) : State := { s with force := false }

/-- A read of `FORCE`: hard-wired 0 (R18). -/
def readForce (_ : State) : Bool := false

/-- `SIZE <- v` (R19). -/
def writeSize (v : BitVec 16) (s : State) : State := { s with size := v }

end Sys2Proof.Machine
end

