-- ==== Sys2Proof/Machine/Commands.lean ====
section
/-!
DEFINITION. The meanings of the four host commands (spec/40_host_commands.md rules R80 to R84).
The time a step takes is the step's that executes IDLE (spec/70_reset_and_hazards.md rule R148).
-/

namespace Sys2Proof.Machine

/-- NOP (R80): nothing, in any state; never refused. -/
def execNop (s : State) : Result :=
  .next (elapse 0 s)

/-- INIT (R81). -/
def execInit (s : State) : Result :=
  if canTake s then
    .next (jump Upc.idle (markInited
      (pinWrite .clock false (pinWrite .latch false (configureLines (elapse 0 s))))))
  else .refused .cmdWhileBusy

/-- CREATE_REPORT (R82): the acceptance; the operation is the sequence that follows. The checks
come in the order of R84. -/
def execCreateReport (s : State) : Result :=
  if canTake s then
    if s.inited then .next (jump Upc.clr (startOperation (elapse 0 s)))
    else .refused .notInitialised
  else .refused .cmdWhileBusy

/-- PROCESS_REPORT (R83): the required no-op; the payload on the port is ignored. -/
def execProcessReport (s : State) : Result :=
  if canTake s then .next (jump Upc.idle (elapse 0 s))
  else .refused .cmdWhileBusy

end Sys2Proof.Machine
end

