-- ==== Sys2Proof/Machine/Reader.lean ====
section
/-!
DEFINITION. The meanings of the micro-operations of the sequencer and the Controller Reader
(spec/41_reader_microops.md rules R90 to R101).
-/

namespace Sys2Proof.Machine

/-- IDLE (R90): the command the host presents is executed. -/
def execIdle (s : State) : Result :=
  if s.ports.cmd = Cmd.init then execInit s
  else if s.ports.cmd = Cmd.createReport then execCreateReport s
  else if s.ports.cmd = Cmd.processReport then execProcessReport s
  else .next (jump Upc.idle (elapse 0 s))

/-- CLR (R91). -/
def execClr (s : State) : Result :=
  .next (jump Upc.latchHi { elapse 0 s with acc := 0x00#8, i := 0#4, bs := noButtons })

/-- LATCH_HI (R92). -/
def execLatchHi (s : State) : Result :=
  .next (jump Upc.waitLatch (loadTmr tLatchMin (emit .latchRise (pinWrite .latch true (elapse 0 s)))))

/-- WAIT_LATCH (R93). -/
def execWaitLatch (s : State) : Result :=
  .next (waitFor tLatchMin Upc.latchLo s)

/-- LATCH_LO (R94). -/
def execLatchLo (s : State) : Result :=
  .next (jump Upc.sample (emit .latchFall (pinWrite .latch false (elapse 0 s))))

/-- SAMPLE (R95): the decoded bit is the inverse of the level (R45). -/
def execSample (s : State) : Result :=
  let answer := pinRead (elapse 0 s)
  .next (jump Upc.clkHi (storeBit (!answer.1) (emit (.sample s.i answer.1) answer.2)))

/-- CLK_HI (R96). -/
def execClkHi (s : State) : Result :=
  .next (jump Upc.waitClkHi
    (loadTmr tClkHiMin (emit (.clockRise s.i) (pinWrite .clock true (elapse 0 s)))))

/-- WAIT_CLK_HI (R97). -/
def execWaitClkHi (s : State) : Result :=
  .next (waitFor tClkHiMin Upc.clkLo s)

/-- CLK_LO (R98). -/
def execClkLo (s : State) : Result :=
  .next (jump Upc.waitClkLo
    (loadTmr tClkLoMin (emit (.clockFall s.i) (pinWrite .clock false (elapse 0 s)))))

/-- WAIT_CLK_LO (R99). -/
def execWaitClkLo (s : State) : Result :=
  .next (waitFor tClkLoMin Upc.loop s)

/-- LOOP (R100): the test is on the new value of `I`. -/
def execLoop (s : State) : Result :=
  let i' := s.i + 1#4
  .next (jump (if i' < 8#4 then Upc.sample else Upc.decode) { elapse 0 s with i := i' })

/-- DECODE (R101). -/
def execDecode (s : State) : Result :=
  .next (jump Upc.pack { elapse 0 s with bs := decodeButtons s.acc })

end Sys2Proof.Machine
end

