-- ==== Sys2Proof/Machine/Packer.lean ====
section
/-!
DEFINITION. The meanings of the micro-operations of the Packer (spec/42_packer_microops.md rules
R110 and R111).
-/

namespace Sys2Proof.Machine

/-- PACK (R110): the whole buffer zeroed, then the button byte written, all in one step. -/
def execPack (s : State) : Result :=
  match memWrite s.params.buttonOffset (packButtons s.bs) (zeroReport (elapse 0 s)) with
  | .ok s' => .next (jump Upc.done s')
  | .error f => .fault f

/-- DONE (R111). -/
def execDone (s : State) : Result :=
  let sized := writeForce false (writeSize (sizeValue s.params) (elapse 0 s))
  .next (jump Upc.idle (endOperation (emit (.reportReady (reportImage s)) sized)))

end Sys2Proof.Machine
end

