-- ==== Sys2Proof/Machine/Dispatch.lean ====
section
/-! DEFINITION. One arm per constructor of Instr: which meaning each instruction has. -/

namespace Sys2Proof.Machine

def exec (i : Instr) (s : State) : Host.Outcome State Fault Refusal :=
  match i with
  | .nop => Sys2Proof.Machine.execNop s
  | .init => Sys2Proof.Machine.execInit s
  | .createReport => Sys2Proof.Machine.execCreateReport s
  | .processReport => Sys2Proof.Machine.execProcessReport s
  | .idle => Sys2Proof.Machine.execIdle s
  | .clr => Sys2Proof.Machine.execClr s
  | .latchHi => Sys2Proof.Machine.execLatchHi s
  | .waitLatch => Sys2Proof.Machine.execWaitLatch s
  | .latchLo => Sys2Proof.Machine.execLatchLo s
  | .sample => Sys2Proof.Machine.execSample s
  | .clkHi => Sys2Proof.Machine.execClkHi s
  | .waitClkHi => Sys2Proof.Machine.execWaitClkHi s
  | .clkLo => Sys2Proof.Machine.execClkLo s
  | .waitClkLo => Sys2Proof.Machine.execWaitClkLo s
  | .loop => Sys2Proof.Machine.execLoop s
  | .decode => Sys2Proof.Machine.execDecode s
  | .pack => Sys2Proof.Machine.execPack s
  | .done => Sys2Proof.Machine.execDone s

end Sys2Proof.Machine
end

