-- ==== Sys2Proof/Machine/HostSide.lean ====
section
/-!
DEFINITION. The boundary to the host: what comes before an instruction is executed (reset, a
command that cannot be taken, a stalled period), the host's taking of the report, the seven
callbacks, and how a word is placed where the next step finds it (spec/40_host_commands.md rules
R84 and R89; spec/60_exceptions.md rules R121 to R129).
-/

namespace Sys2Proof.Machine

/-- What happens in a step instead of an instruction. Reset wins over everything (R125 (a)); a
command other than NOP while the block cannot take one is refused (R84, R125 (c)); in a stalled
clock period nothing is executed (R156). -/
def preempt (s : State) : Option Result :=
  if s.ports.rst then some (.next (endStep s (resetBlock s)))
  else if decide (s.ports.cmd ≠ Cmd.nop) && !canTake s then some (.refused .cmdWhileBusy)
  else if stalled s then some (.next (endStep s (stallPeriod s)))
  else none

/-- What follows an instruction executed in `before`: the end of the step. -/
def finish (before : State) : Result → Result
  | .next s => .next (endStep before s)
  | .fault f => .fault f
  | .refused r => .refused r

/-! ## Taking the report (R50, R57, R89) -/

/-- What the host gets: the report bytes in index order, the size, the force flag. -/
structure Report where
  bytes : List Byte
  size : BitVec 16
  force : Bool
  deriving DecidableEq, Repr

/-- The host reads `RPT`, `SIZE` and `FORCE`. It is no step of the block and changes no state
(R41, R89); while `BUSY` is 1 the read has no meaning (R50, U7), and before a report is ready
there is none to take (R89). -/
def takeReport (s : State) : Except Refusal Report :=
  if s.busy then .error .readWhileBusy
  else if s.rdy then .ok { bytes := reportImage s, size := s.size, force := readForce s }
  else .error .noReport

/-! ## The seven callbacks of the USB stack (R129) -/

inductive Callback where
  | connect
  | disconnect
  | configurationChanged
  | controlRequest
  | startOfFrame
  | createReport
  | processReport
  deriving DecidableEq, Repr

/-- The command a callback presents to the block; five of the seven do nothing to it (R129). -/
def Callback.cmd : Callback → CmdCode
  | .connect => Cmd.nop
  | .disconnect => Cmd.nop
  | .configurationChanged => Cmd.nop
  | .controlRequest => Cmd.nop
  | .startOfFrame => Cmd.nop
  | .createReport => Cmd.createReport
  | .processReport => Cmd.processReport

/-! ## Placing a word -/

/-- The ports with no reset, no stall and this command presented. -/
def Input.withCmd (p : Input) (c : CmdCode) : Input :=
  { p with rst := false, stall := false, cmd := c }

/-- The state whose next step executes the selector word: a command is presented on the port with
the sequencer in IDLE, a phase code is put in `UPC` with no command presented (R84, R14). -/
def placeCode (cw : CodeWord) (s : State) : State :=
  match cw with
  | .cmd c => { s with upc := Upc.idle, ports := s.ports.withCmd c }
  | .uph p => { s with upc := p, ports := s.ports.withCmd Cmd.nop }

/-- The same for a table word; a number that is no word changes nothing. -/
def placeTableWord (s : State) (nbits w : Nat) : State :=
  match tableCodeWord nbits w with
  | some cw => placeCode cw s
  | none => s

end Sys2Proof.Machine
end

