-- ==== Sys2Proof/Machine/Sequence.lean ====
section
/-!
DEFINITION. The fixed sequence of one operation and the names of its runs (spec/30_encoding.md
rules R72 and R73), and the pin events of one read (spec/40_host_commands.md rule R86).
-/

namespace Sys2Proof.Machine

/-! The pseudo-operations of R72 with their expansions. -/

def pulseLatch : List Instr := [.latchHi, .waitLatch, .latchLo]

def pulseClock : List Instr := [.clkHi, .waitClkHi, .clkLo, .waitClkLo]

def shiftBit : List Instr := .sample :: pulseClock ++ [.loop]

def readController : List Instr :=
  .clr :: pulseLatch ++ (List.replicate nBits shiftBit).flatten ++ [.decode]

def buildReport : List Instr := [.pack, .done]

/-- The fixed sequence: 55 micro-operations from CLR to DONE (R73). -/
def fixedSequence : List Instr := readController ++ buildReport

/-- The pin events of one iteration (R86). -/
def bitEvents (d : Nat → Level) (k : Nat) : List Event :=
  [.sample (BitVec.ofNat 4 k) (d k), .clockRise (BitVec.ofNat 4 k), .clockFall (BitVec.ofNat 4 k)]

/-- The pin events of one read with sampled levels `d`, in order (R86). -/
def readEvents (d : Nat → Level) : List Event :=
  .latchRise :: .latchFall :: (List.range 8).flatMap (bitEvents d)

end Sys2Proof.Machine
end

