-- ==== Sys2Proof/Machine/Step.lean ====
section
/-!
DEFINITION. One step of the machine: what pre-empts the instruction, else the micro-operation UPC
selects (spec/30_encoding.md rule R68), then the environment's next input.
-/

namespace Sys2Proof.Machine

/-- One step: at step level one micro-operation (R148), at tick level one clock period (R156). -/
def step (s : State) : Host.Outcome State Fault Refusal :=
  match preempt s with
  | some answer => answer
  | none =>
    match decodePhase s.upc with
    | .ok i => finish s (exec i s)
    | .error _ => .refused .reservedPhase

/-- `s` with a table word placed where the next step finds it (log entry 7). -/
def State.withFetchWord (s : State) (nbits w : Nat) : State := placeTableWord s nbits w

end Sys2Proof.Machine
end

