-- ==== Sys2Proof/Machine/Script.lean ====
section
/-!
DEFINITION. Scripts, the "programs" of the block: their lines, the timed form, the inputs that
present a line to the machine at step level and at tick level, and the run of a script with its end
(spec/30_encoding.md rule R71; spec/40_host_commands.md rule R88). What R71 leaves open of the
timed form and of a refused line is log entry 21.
-/

namespace Sys2Proof.Machine

/-! ## Lines -/

/-- The `DIR` bit of a line (R20). -/
def Dir.bit (d : Dir) : Line → Bool
  | .latch => d.latch
  | .clock => d.clock
  | .data => d.data
  | .led0 => d.led0
  | .led1 => d.led1

/-- The output latch of a line (R21). -/
def OutLatch.bit (o : OutLatch) : OutLine → Level
  | .latch => o.latch
  | .clock => o.clock

/-- One `name=value` of an EXPECT line (R71). DESIGN CHOICE (log entry 22): R71 lists no names; the
model takes every item of R10, and the single bits of BS, DIR and OUT and the single bytes of RPT as
R13, R20, R21 and R24 name them. -/
inductive Expectation where
  | acc (v : BitVec 8)
  | i (v : BitVec 4)
  | bs (v : ButtonState)
  /-- `BS[k]` -/
  | bsFlag (k : Fin 8) (v : Bool)
  | upc (v : PhaseCode)
  | busy (v : Bool)
  | rdy (v : Bool)
  | inited (v : Bool)
  | force (v : Bool)
  | size (v : BitVec 16)
  | dir (v : Dir)
  /-- `DIR.LATCH` to `DIR.LED1` -/
  | dirBit (line : Line) (v : Bool)
  | out (v : OutLatch)
  /-- `OUT.LATCH`, `OUT.CLOCK` -/
  | outBit (line : OutLine) (v : Level)
  | tmr (v : Nat)
  /-- `RPT[addr]` -/
  | rptByte (addr : Nat) (v : Byte)
  | rpt (bytes : List Byte)
  | now (v : Time)
  | evt (events : List Stamped)
  deriving DecidableEq, Repr

/-- Whether a state is as expected. DESIGN CHOICE (log entry 22): of a byte that does not exist (R41)
no expectation holds. -/
def Expectation.holds (s : State) : Expectation → Bool
  | .acc v => s.acc == v
  | .i v => s.i == v
  | .bs v => s.bs == v
  | .bsFlag k v => s.bs.get k == v
  | .upc v => s.upc == v
  | .busy v => s.busy == v
  | .rdy v => s.rdy == v
  | .inited v => s.inited == v
  | .force v => readForce s == v
  | .size v => s.size == v
  | .dir v => s.dir == v
  | .dirBit line v => s.dir.bit line == v
  | .out v => s.out == v
  | .outBit line v => s.out.bit line == v
  | .tmr v => s.tmr == v
  | .rptByte addr v =>
    match memRead addr s with
    | .ok b => b == v
    | .error _ => false
  | .rpt bytes => reportImage s == bytes
  | .now v => s.now == v
  | .evt events => s.evt == events

/-- What a line says (R71). -/
inductive Action where
  | reset
  | init
  | nop
  /-- `data=` with the raw levels as the byte `W` of R61: sample 0 is its bit 7. -/
  | createReport (w : Byte)
  | processReport (payload : List Byte)
  | expect (what : List Expectation)
  deriving DecidableEq, Repr

/-- A line of a script. `marks` is its timed form: the line's micro-operations in order, from its
first on, each with its `@t` where it has one; a line that is not timed has none. -/
structure ScriptLine where
  action : Action
  marks : List (Instr × Option Time) := []
  deriving DecidableEq, Repr

/-! ## The inputs of a line -/

/-- The level of sample `k` in the byte `W` (R61). -/
def wireLevel (w : Byte) (k : Nat) : Level := w.getLsbD (7 - k)

/-- The environment presents nothing while this micro-operation executes. -/
def unattended (i : Instr) : Instr × Input := (i, Input.quiet)

/-- The 55 micro-operations of one operation, each with what is presented while it executes: level
`k` of `W` at SAMPLE for `I = k`. -/
def operationSteps (w : Byte) : List (Instr × Input) :=
  (Instr.clr :: pulseLatch).map unattended
    ++ (List.range nBits).flatMap (fun k =>
      (.sample, { Input.quiet with data := .driven (wireLevel w k) })
        :: (pulseClock ++ [Instr.loop]).map unattended)
    ++ (Instr.decode :: buildReport).map unattended

/-- The micro-operations a command line executes: the IDLE that takes the command, then the
operation it starts. RESET and EXPECT lines execute none. -/
def Action.steps : Action → List (Instr × Input)
  | .reset => []
  | .init => [(.idle, { Input.quiet with cmd := Cmd.init })]
  | .nop => [(.idle, Input.quiet)]
  | .createReport w => (.idle, { Input.quiet with cmd := Cmd.createReport }) :: operationSteps w
  | .processReport payload =>
    [(.idle, { Input.quiet with cmd := Cmd.processReport, payload := payload })]
  | .expect _ => []

/-- The steps with their `@t`; `none` if the marks do not name the line's micro-operations. -/
def attachMarks :
    List (Instr × Input) → List (Instr × Option Time) → Option (List (Instr × Input × Option Time))
  | steps, [] => some (steps.map fun x => (x.1, x.2, none))
  | [], _ :: _ => none
  | (i, p) :: steps, (j, t) :: marks =>
    if i = j then (attachMarks steps marks).map ((i, p, t) :: ·) else none

/-- The wait a micro-operation stands for, in microseconds; 0 for one that is no wait (R145, R146). -/
def leastWait (i : Instr) : Nat :=
  if i = .waitLatch then tLatchMin
  else if i = .waitClkHi then tClkHiMin
  else if i = .waitClkLo then tClkLoMin
  else 0

/-- How many steps of the machine a micro-operation takes: one at step level (R148), its unstalled
clock periods at tick level (R156). -/
def stepCount (p : Params) (i : Instr) : Nat :=
  match p.fClkHz with
  | none => 1
  | some f => max 1 (tickCount (leastWait i) f)

/-- The least duration of a micro-operation, `Wait(T)` or 0 at step level (R145, R146), its clock
periods at tick level (R156). -/
def leastDuration (p : Params) (i : Instr) : Time :=
  match p.fClkHz with
  | none => (leastWait i : Time)
  | some f => (stepCount p i : Time) * period f

/-- How the environment lengthens a micro-operation by `excess`: at step level by the duration
(R148), at tick level by stalled periods before it (R156). `none` if it cannot: a shortening, or no
whole number of periods. -/
def lengthenBy (p : Params) (excess : Time) : Option (List Input × Delay) :=
  match p.fClkHz with
  | none => if 0 ≤ excess then some ([], ⟨excess.num.toNat, excess.den⟩) else none
  | some f =>
    let n := excess / period f
    if 0 ≤ n ∧ n.den = 1 then
      some (List.replicate n.num.toNat { Input.quiet with stall := true }, ⟨0, 1⟩)
    else none

/-- The inputs that make a micro-operation, begun at `now`, have its instant at `mark`, or as early
as can be where it has no mark; and that instant. -/
def timedInputs (p : Params) (now : Time) (i : Instr) (presented : Input) (mark : Option Time) :
    Option (List Input × Time) :=
  let earliest := now + leastDuration p i
  let instant := mark.getD earliest
  (lengthenBy p (instant - earliest)).map fun l =>
    (l.1 ++ List.replicate (stepCount p i) { presented with extra := l.2 }, instant)

/-- The inputs of each micro-operation in turn. -/
def inputsOf (p : Params) : Time → List (Instr × Input × Option Time) → Option (List (List Input))
  | _, [] => some []
  | now, (i, presented, mark) :: steps =>
    match timedInputs p now i presented mark with
    | none => none
    | some (inputs, instant) => (inputsOf p instant steps).map (inputs :: ·)

/-- The inputs of a line issued at `now`, micro-operation by micro-operation; `none` if its `@t`
cannot be had. -/
def ScriptLine.inputs (p : Params) (now : Time) (l : ScriptLine) : Option (List (List Input)) :=
  (attachMarks l.action.steps l.marks).bind (inputsOf p now)

/-- A state with a list of inputs to come, the first of them on the ports. -/
def State.present (s : State) (inputs : List Input) : State :=
  { s with ports := inputs.headD Input.quiet, script := inputs.tail }

/-! ## The run of a script (R88) -/

/-- Whether a run may end here: `UPC = IDLE`, and not `BUSY = 1` (R88). The same condition lets a
command be taken (R84). -/
def isFinal (s : State) : Bool := canTake s

/-- How a line ends. -/
inductive LineEnd where
  /-- The line's command has ended in this state. -/
  | ended (s : State)
  /-- The machine has no step for the command; no state is changed (R84, R121). -/
  | refused (r : Refusal)
  | fault (f : Fault)
  /-- No step can have the instant an `@t` gives it, or a mark names another micro-operation. -/
  | illTimed
  /-- An EXPECT line that does not hold. -/
  | unmet
  /-- A command line where `UPC` is not IDLE: it cannot be issued (R71). -/
  | notIdle
  /-- The line's inputs are used up and the operation still runs. -/
  | unended (s : State)
  deriving DecidableEq, Repr

/-- Steps from here until the state is final, at most `fuel` of them. -/
def untilFinal : Nat → State → LineEnd
  | 0, s => if isFinal s then .ended s else .unended s
  | fuel + 1, s =>
    if isFinal s then .ended s
    else
      match step s with
      | .next t => untilFinal fuel t
      | .fault f => .fault f
      | .refused r => .refused r

/-- So many steps, those that issue the line, then on until the state is final. -/
def issue : Nat → Nat → State → LineEnd
  | 0, fuel, s => untilFinal fuel s
  | n + 1, fuel, s =>
    match step s with
    | .next t => issue n fuel t
    | .fault f => .fault f
    | .refused r => .refused r

/-- One line run from the end of the line before it. RESET can be asserted in any state (R140); a
command line is issued in IDLE (R71); EXPECT is no action. -/
def runLine (l : ScriptLine) (s : State) : LineEnd :=
  match l.action with
  | .reset =>
    if l.marks = [] then issue 1 0 (s.present [{ Input.quiet with rst := true }]) else .illTimed
  | .expect what =>
    if l.marks = [] then (if what.all (Expectation.holds s) then .ended s else .unmet) else .illTimed
  | .init | .nop | .createReport _ | .processReport _ =>
    if isFinal s then
      match l.inputs s.params s.now with
      | some (first :: rest) =>
        issue first.length rest.flatten.length (s.present (first ++ rest.flatten))
      | _ => .illTimed
    else .notIdle

/-- How the run of a script ends. -/
inductive ScriptEnd where
  /-- The last line's command has ended and the state is final; the reasons of the lines that were
  refused, of which nothing may be claimed (R121). -/
  | ended (s : State) (refusals : List Refusal)
  /-- A line that has no such end. -/
  | stopped (line : LineEnd)
  deriving DecidableEq, Repr

/-- The run of a script (R71, R88). A refused line changes no state, and the next one is issued
(R84). -/
def runScript : List ScriptLine → State → List Refusal → ScriptEnd
  | [], s, refusals => if isFinal s then .ended s refusals else .stopped (.unended s)
  | l :: lines, s, refusals =>
    match runLine l s with
    | .ended t => runScript lines t refusals
    | .refused r => runScript lines s (refusals ++ [r])
    | .fault f => .stopped (.fault f)
    | .illTimed => .stopped .illTimed
    | .unmet => .stopped .unmet
    | .notIdle => .stopped .notIdle
    | .unended t => .stopped (.unended t)

end Sys2Proof.Machine
end

