-- ==== Sys2Proof/Safety.lean ====
section
/-!
DEFINITION. What claims about the block are stated in terms of: the invariant of
spec/10_state.md rule R33, the invariant behind the minimum delays of
spec/70_reset_and_hazards.md rule R145, what two states share when only time differs (R123), the
step-level reading of a tick-level state (R156), and the environment of one operation (R89).
-/

namespace Sys2Proof.Machine

/-! ## The invariant of R33 -/

/-- R33 (a) to (i), with the facts about the buffer, the counter and the down-counter that the
other rules give (R23, R24, R86, R94) and the bounds on the parameters (R6). -/
structure BlockInv (s : State) : Prop where
  /-- (a) -/
  busy_iff : s.busy = true ↔ s.upc ≠ 0x0#4
  /-- (b) -/
  i_le : s.i.toNat ≤ 8
  /-- (b): SAMPLE to LOOP -/
  i_in_loop : 0x5#4 ≤ s.upc → s.upc ≤ 0xA#4 → s.i.toNat ≤ 7
  /-- R91, R94: `I` is 0 from LATCH_HI to LATCH_LO -/
  i_before : 0x2#4 ≤ s.upc → s.upc ≤ 0x4#4 → s.i = 0#4
  /-- R100, R86: `I` is 8 from DECODE to DONE -/
  i_after : 0xB#4 ≤ s.upc → s.i = 8#4
  /-- (c) -/
  latch_iff : s.out.latch = true ↔ s.upc = 0x3#4 ∨ s.upc = 0x4#4
  /-- (d) -/
  clock_iff : s.out.clock = true ↔ s.upc = 0x7#4 ∨ s.upc = 0x8#4
  /-- (e) -/
  force_zero : s.force = false
  /-- (f) -/
  busy_inited : s.busy = true → s.inited = true
  /-- (g) -/
  rdy_idle : s.rdy = true → s.busy = false
  /-- (g) -/
  rdy_size : s.rdy = true → s.size.toNat = s.params.reportBytes
  /-- (g), and R24: the padding is 0 at all times -/
  padding_zero : ∀ addr, addr ≠ s.params.buttonOffset → s.rpt.read addr = 0x00#8
  /-- (h) -/
  dir_inputs : s.dir.data = false ∧ s.dir.led0 = false ∧ s.dir.led1 = false
  /-- (h) -/
  dir_outputs : s.dir.latch = s.inited ∧ s.dir.clock = s.inited
  /-- (i) -/
  phase_legal : s.upc ≤ 0xD#4
  /-- the buffer is in canonical form -/
  memory_wf : s.rpt.wf
  /-- R6 -/
  params_wf : s.params.wf = true
  /-- R25 -/
  now_nonneg : 0 ≤ s.now
  /-- R23: `TMR` is 0 in the step-level model -/
  tmr_step_level : s.params.fClkHz = none → s.tmr = 0
  /-- R23: `TMR` is 0 outside the three waits -/
  tmr_outside : s.upc ≠ 0x3#4 → s.upc ≠ 0x7#4 → s.upc ≠ 0x9#4 → s.tmr = 0
  /-- R23, R156: within a wait it lies between 1 and what it was loaded with -/
  tmr_in_wait : ∀ f, s.params.fClkHz = some f →
    (s.upc = 0x3#4 → 1 ≤ s.tmr ∧ s.tmr ≤ tickCount tLatchMin f) ∧
    (s.upc = 0x7#4 → 1 ≤ s.tmr ∧ s.tmr ≤ tickCount tClkHiMin f) ∧
    (s.upc = 0x9#4 → 1 ≤ s.tmr ∧ s.tmr ≤ tickCount tClkLoMin f)

/-! ## The invariant behind R145 -/

/-- How much of a wait is still due: at tick level the instant that began it, plus the whole
countdown, is reached when the ticks left have passed (R156); at step level the wait is one step
and nothing is recorded. -/
def Due (s : State) (began : Time) (t : Nat) : Prop :=
  ∀ f, s.params.fClkHz = some f →
    began + (tickCount t f : Time) * period f ≤ s.now + (s.tmr : Time) * period f

/-- What the trace must end with in each phase, so that the next event keeps R145. -/
def PhaseTiming (s : State) : Prop :=
  (s.upc = 0x3#4 → ∃ t, s.evt.getLast? = some (.latchRise, t) ∧ Due s t tLatchMin) ∧
  (s.upc = 0x4#4 → ∃ t, s.evt.getLast? = some (.latchRise, t) ∧ t + 12 ≤ s.now) ∧
  (s.upc = 0x5#4 → (∃ t, s.evt.getLast? = some (.latchFall, t)) ∨
    (∃ k t, s.evt.getLast? = some (.clockFall k, t) ∧ t + 6 ≤ s.now)) ∧
  (s.upc = 0x6#4 → ∃ k d t, s.evt.getLast? = some (.sample k d, t)) ∧
  (s.upc = 0x7#4 → ∃ k t, s.evt.getLast? = some (.clockRise k, t) ∧ Due s t tClkHiMin) ∧
  (s.upc = 0x8#4 → ∃ k t, s.evt.getLast? = some (.clockRise k, t) ∧ t + 6 ≤ s.now) ∧
  (s.upc = 0x9#4 → ∃ k t, s.evt.getLast? = some (.clockFall k, t) ∧ Due s t tClkLoMin) ∧
  (0xA#4 ≤ s.upc → s.upc ≤ 0xD#4 → ∃ k t, s.evt.getLast? = some (.clockFall k, t) ∧ t + 6 ≤ s.now)

/-- The trace meets the minima of R145, no event lies in the future (R148), and the phase agrees
with the end of the trace. -/
structure TimingInv (s : State) : Prop where
  minima : minimaHold s.evt = true
  past : ∀ x ∈ s.evt, x.2 ≤ s.now
  phase : PhaseTiming s

/-! ## States that differ in time only (R123) -/

def Input.noExtra (p : Input) : Input := { p with extra := ⟨0, 1⟩ }

/-- The state with every instant and every lengthening wiped out. -/
def eraseTime (s : State) : State :=
  { s with
    now := 0
    evt := s.evt.map (fun x => (x.1, 0))
    ports := s.ports.noExtra
    script := s.script.map Input.noExtra }

/-- The answer of a step with every instant wiped out. -/
def eraseOutcome : Result → Result
  | .next s => .next (eraseTime s)
  | .fault f => .fault f
  | .refused r => .refused r

/-! ## The step-level reading of a tick-level state (R156) -/

/-- The same state without a clock; the environment lengthens the step by one clock period. -/
def asStepLevel (s : State) (f : Nat) : State :=
  { s with
    params := { s.params with fClkHz := none }
    ports := { s.ports with extra := ⟨1000000, f⟩ } }

/-! ## One operation (R73, R85, R89) -/

/-- What the environment presents in the `n`-th step from here. -/
def inputAt (s : State) : Nat → Input
  | 0 => s.ports
  | n + 1 => s.script.getD n Input.quiet

/-- CREATE_REPORT is presented to an idle block whose lines are configured (R82, R84). -/
structure Starts (s : State) : Prop where
  idle : s.upc = 0x0#4
  not_busy : s.busy = false
  inited : s.inited = true
  params_wf : s.params.wf = true
  memory_wf : s.rpt.wf
  cmd : s.ports.cmd = 0b10#2
  no_reset : s.ports.rst = false

/-- Micro-operation `i` is the next to execute in `s` and completes with this input presented: `UPC`
selects it, R6 holds, no reset and no stall is presented, a command only where the block takes it
(R84), and at the start of a wait TMR holds its tick count (R92, R96, R98, R156). -/
structure Executable (s : State) (i : Instr) (presented : Input) : Prop where
  selected : decode (.uph s.upc) = .ok i
  params_wf : s.params.wf = true
  no_reset : presented.rst = false
  not_stalled : s.params.fClkHz = none ∨ presented.stall = false
  command : presented.cmd = 0b00#2 ∨
    (s.upc = 0x0#4 ∧ s.busy = false ∧ (presented.cmd = 0b10#2 → s.inited = true))
  timer : ∀ f, s.params.fClkHz = some f →
    (i = .waitLatch → s.tmr = tickCount tLatchMin f) ∧
    (i = .waitClkHi → s.tmr = tickCount tClkHiMin f) ∧
    (i = .waitClkLo → s.tmr = tickCount tClkLoMin f)

/-- In steps 1 to `n` after this one the host presents NOP and no reset (its duty, R89). -/
def Undisturbed (s : State) (n : Nat) : Prop :=
  ∀ k, 1 ≤ k → k ≤ n → (inputAt s k).cmd = 0b00#2 ∧ (inputAt s k).rst = false

/-- At step level SAMPLE for `I = k` is step `5 + 6k` of the operation (R73); there the DATA line
shows `d k`. -/
def ShowsLevels (s : State) (d : Nat → Level) : Prop :=
  ∀ k, k < 8 → (inputAt s (5 + 6 * k)).data = .driven (d k)

/-- At step level, in the steps from LATCH_HI, step 2, to the last SAMPLE, step 47, a well-behaved
controller is connected, and in step `n` the buttons `held n` are held on it (R53). -/
def ControllerConnected (s : State) (held : Nat → ButtonState) : Prop :=
  ∀ n, 2 ≤ n → n ≤ 47 → (inputAt s n).data = .controller (held n)

/-- … and during the latch pulse, steps 2 to 4, these are the buttons `p`; what is held later is any
(R53, R154). -/
def ControllerAnswers (s : State) (p : ButtonState) : Prop :=
  ∃ held, ControllerConnected s held ∧ ∀ n, 2 ≤ n → n ≤ 4 → held n = p

/-- At the same steps nothing is connected to DATA (R55). -/
def NothingConnected (s : State) : Prop :=
  ∀ k, k < 8 → (inputAt s (5 + 6 * k)).data = .floating

end Sys2Proof.Machine
end

