-- ==== Sys2Proof/Certificates/Slice0/Obligations.lean ====
section
/-!
DEFINITION. The statements for the provers. Each is named after what it states; its docstring names
the rules of spec/ it is about. `t = { s with … }` is the frame: every field that is not named is
unchanged, the model's own fields included.
-/

open Sys2Proof Sys2Proof.Machine

/-! ## Encoding -/

/-- R67, R68: every code of the two tables, word by word. -/
def Obligations.CodeTablesDecode : Prop :=
  decode (.cmd 0b00#2) = .ok .nop ∧ decode (.cmd 0b01#2) = .ok .init ∧
  decode (.cmd 0b10#2) = .ok .createReport ∧ decode (.cmd 0b11#2) = .ok .processReport ∧
  decode (.uph 0x0#4) = .ok .idle ∧ decode (.uph 0x1#4) = .ok .clr ∧
  decode (.uph 0x2#4) = .ok .latchHi ∧ decode (.uph 0x3#4) = .ok .waitLatch ∧
  decode (.uph 0x4#4) = .ok .latchLo ∧ decode (.uph 0x5#4) = .ok .sample ∧
  decode (.uph 0x6#4) = .ok .clkHi ∧ decode (.uph 0x7#4) = .ok .waitClkHi ∧
  decode (.uph 0x8#4) = .ok .clkLo ∧ decode (.uph 0x9#4) = .ok .waitClkLo ∧
  decode (.uph 0xA#4) = .ok .loop ∧ decode (.uph 0xB#4) = .ok .decode ∧
  decode (.uph 0xC#4) = .ok .pack ∧ decode (.uph 0xD#4) = .ok .done

/-- R67 to R69: every instruction is read back from its word; every word that is not reserved is
the word of the instruction it decodes to; the reserved ones, 0xE and 0xF, are rejected by name. -/
def Obligations.DecodeEncodeAgree : Prop :=
  (∀ i : Instr, decode (encode i) = .ok i) ∧
  (∀ (cw : CodeWord) (i : Instr), decode cw = .ok i → encode i = cw) ∧
  (∀ c : PhaseCode, decode (.uph c) = .error (.reservedPhase c) ↔ c = 0xE#4 ∨ c = 0xF#4) ∧
  (∀ c : CmdCode, ∃ i, decode (.cmd c) = .ok i)

/-! ## The step -/

/-- R14, R68: a step that nothing pre-empts executes the micro-operation UPC holds the code of;
then the controller has seen the step and the environment presents its next input. -/
def Obligations.StepExecutesPhase : Prop :=
  ∀ (s : State) (i : Instr), decode (.uph s.upc) = .ok i → s.ports.rst = false →
    (s.ports.cmd = 0b00#2 ∨ (s.upc = 0x0#4 ∧ s.busy = false)) →
    (s.params.fClkHz = none ∨ s.ports.stall = false) →
    step s =
      match exec i s with
      | .next t => .next { t with
          ports := t.script.headD Input.quiet, script := t.script.tail, pad := padAfter s t }
      | .fault f => .fault f
      | .refused r => .refused r

/-- R84, R90: a command presented to a block that can take one is executed by that step. -/
def Obligations.StepExecutesCommand : Prop :=
  ∀ (s : State) (i : Instr), decode (.cmd s.ports.cmd) = .ok i → s.ports.rst = false →
    s.upc = 0x0#4 → s.busy = false → (s.params.fClkHz = none ∨ s.ports.stall = false) →
    step s =
      match exec i s with
      | .next t => .next { t with
          ports := t.script.headD Input.quiet, script := t.script.tail, pad := padAfter s t }
      | .fault f => .fault f
      | .refused r => .refused r

/-! ## Reset -/

/-- R32: the state after reset holds the values of the table, row by row. -/
def Obligations.ResetValues : Prop :=
  State.reset.upc = 0x0#4 ∧ State.reset.busy = false ∧ State.reset.rdy = false ∧
  State.reset.inited = false ∧ State.reset.force = false ∧ State.reset.size = 0#16 ∧
  State.reset.dir = ⟨false, false, false, false, false⟩ ∧ State.reset.out = ⟨false, false⟩ ∧
  State.reset.acc = 0x00#8 ∧ State.reset.i = 0#4 ∧ (∀ k, k < 8 → State.reset.bs.get k = false) ∧
  State.reset.tmr = 0 ∧ (∀ addr, State.reset.rpt.read addr = 0x00#8) ∧
  State.reset.now = 0 ∧ State.reset.evt = []

/-- R140, R144: reset takes effect in any state, whatever runs and whatever is presented: every
item of R32's table takes its reset value, no line is driven, no REPORT_READY is left; the
parameters stay. That NOW and EVT start anew is R32's table; that the environment's list goes on
and what becomes of the controller is the model's (log entries 6 and 23). -/
def Obligations.ResetInAnyState : Prop :=
  ∀ s : State, s.ports.rst = true →
    ∃ t, step s = .next t ∧
      t = { State.reset with
            params := s.params, ports := s.script.headD Input.quiet, script := s.script.tail,
            draws := s.draws, pad := { s.pad with capture := .nothing } } ∧
      (∀ l, lineLevel t l = none) ∧ (∀ addr, t.rpt.read addr = 0x00#8) ∧
      decode (.uph t.upc) = .ok .idle

/-! ## The host commands -/

/-- R80: NOP does nothing in any state, a busy one included; only time passes. -/
def Obligations.NopDoesNothing : Prop :=
  decode (.cmd 0b00#2) = .ok .nop ∧
  ∀ s : State, ∃ t, exec .nop s = .next t ∧
    t = { s with now := t.now } ∧ s.now ≤ t.now ∧ (∀ addr, t.rpt.read addr = s.rpt.read addr)

/-- R81: INIT on a block that can take a command; done again it changes nothing more; and it is
refused while `BUSY` is 1. -/
def Obligations.InitConfiguresLines : Prop :=
  decode (.cmd 0b01#2) = .ok .init ∧
  (∀ s : State, s.upc = 0x0#4 → s.busy = false →
    ∃ t, exec .init s = .next t ∧
      t = { s with
            dir := { latch := true, clock := true, data := false, led0 := false, led1 := false }
            out := { latch := false, clock := false }
            inited := true
            upc := 0x0#4
            now := t.now } ∧
      s.now ≤ t.now ∧ (∀ addr, t.rpt.read addr = s.rpt.read addr) ∧
      (∃ u, exec .init t = .next u ∧ u = { t with now := u.now })) ∧
  (∀ s : State, s.busy = true → exec .init s = .refused .cmdWhileBusy)

/-- R82: acceptance of CREATE_REPORT by an idle block whose lines are configured. -/
def Obligations.CreateReportAccepted : Prop :=
  decode (.cmd 0b10#2) = .ok .createReport ∧
  ∀ s : State, s.upc = 0x0#4 → s.busy = false → s.inited = true →
    ∃ t, exec .createReport s = .next t ∧
      t = { s with busy := true, rdy := false, upc := 0x1#4, now := t.now } ∧
      s.now ≤ t.now ∧ (∀ addr, t.rpt.read addr = s.rpt.read addr)

/-- R83: PROCESS_REPORT has no effect, whatever the payload and whether or not INIT has run; and
it is refused while `BUSY` is 1. -/
def Obligations.ProcessReportIsNoOp : Prop :=
  decode (.cmd 0b11#2) = .ok .processReport ∧
  (∀ (s : State) (payload : List Byte), s.upc = 0x0#4 → s.busy = false →
    ∃ t, exec .processReport { s with ports := { s.ports with payload := payload } } = .next t ∧
      t = { s with ports := { s.ports with payload := payload }, upc := 0x0#4, now := t.now } ∧
      s.now ≤ t.now ∧ (∀ addr, t.rpt.read addr = s.rpt.read addr)) ∧
  (∀ s : State, s.busy = true → exec .processReport s = .refused .cmdWhileBusy)

/-- R84: the checks in their order, for the command and for the step it is presented in. That the
step refuses a command while busy in a stalled period too, and before it looks at a reserved phase,
is the model's (log entries 2 and 9). What each command does that passes the checks stands in the
statements about it. -/
def Obligations.CommandChecks : Prop :=
  (∀ s : State, s.busy = true →
    exec .init s = .refused .cmdWhileBusy ∧ exec .createReport s = .refused .cmdWhileBusy ∧
    exec .processReport s = .refused .cmdWhileBusy ∧ (∃ t, exec .nop s = .next t) ∧
    (s.ports.rst = false → s.ports.cmd ≠ 0b00#2 → step s = .refused .cmdWhileBusy)) ∧
  (∀ s : State, s.upc = 0x0#4 → s.busy = false → s.inited = false →
    exec .createReport s = .refused .notInitialised ∧
    (s.ports.rst = false → s.ports.cmd = 0b10#2 →
      (s.params.fClkHz = none ∨ s.ports.stall = false) → step s = .refused .notInitialised)) ∧
  (∀ s : State, s.upc = 0x0#4 → s.busy = false →
    (∃ t, exec .init s = .next t) ∧ (∃ t, exec .processReport s = .next t) ∧
    (s.inited = true → ∃ t, exec .createReport s = .next t))

/-! ## The micro-operations -/

/-- R90: IDLE executes the command that is presented; with NOP it stays in IDLE and every register
keeps its value. -/
def Obligations.IdleExecutesPresentedCommand : Prop :=
  decode (.uph 0x0#4) = .ok .idle ∧
  ∀ s : State,
    (s.ports.cmd = 0b00#2 →
      ∃ t, exec .idle s = .next t ∧ t = { s with upc := 0x0#4, now := t.now } ∧ s.now ≤ t.now ∧
        (∀ addr, t.rpt.read addr = s.rpt.read addr)) ∧
    (s.ports.cmd = 0b01#2 → exec .idle s = exec .init s) ∧
    (s.ports.cmd = 0b10#2 → exec .idle s = exec .createReport s) ∧
    (s.ports.cmd = 0b11#2 → exec .idle s = exec .processReport s)

/-- R91: CLR. -/
def Obligations.ClrClearsScratch : Prop :=
  decode (.uph 0x1#4) = .ok .clr ∧
  ∀ s : State, ∃ t, exec .clr s = .next t ∧
    t = { s with acc := t.acc, i := t.i, bs := t.bs, upc := 0x2#4, now := t.now } ∧
    (∀ k, k < 8 → t.acc.getLsbD k = false ∧ t.bs.get k = false) ∧ t.i.toNat = 0 ∧
    s.now ≤ t.now ∧ (∀ addr, t.rpt.read addr = s.rpt.read addr)

/-- R92 and R94: the two edges of LATCH, each with its event stamped with the instant of the step.
At tick level LATCH_HI loads TMR with the ceiling of `12 × F_CLK_HZ / 1000000` (R156). -/
def Obligations.LatchEdges : Prop :=
  ∀ s : State,
    (∃ t, exec .latchHi s = .next t ∧
      t = { s with
            out := { s.out with latch := true }
            evt := s.evt ++ [(.latchRise, t.now)]
            tmr := t.tmr
            upc := 0x3#4
            now := t.now } ∧
      (s.params.fClkHz = none → t.tmr = s.tmr) ∧
      (∀ f, s.params.fClkHz = some f → t.tmr = ⌈((12 * f : Nat) : Rat) / 1000000⌉₊) ∧
      s.now ≤ t.now ∧ (∀ addr, t.rpt.read addr = s.rpt.read addr)) ∧
    (∃ t, exec .latchLo s = .next t ∧
      t = { s with
            out := { s.out with latch := false }
            evt := s.evt ++ [(.latchFall, t.now)]
            upc := 0x5#4
            now := t.now } ∧
      s.now ≤ t.now ∧ (∀ addr, t.rpt.read addr = s.rpt.read addr))

/-- R96 and R98: the two edges of CLOCK in iteration `I`. At tick level each loads TMR with the
ceiling of `6 × F_CLK_HZ / 1000000` (R156). -/
def Obligations.ClockEdges : Prop :=
  ∀ s : State,
    (∃ t, exec .clkHi s = .next t ∧
      t = { s with
            out := { s.out with clock := true }
            evt := s.evt ++ [(.clockRise s.i, t.now)]
            tmr := t.tmr
            upc := 0x7#4
            now := t.now } ∧
      (s.params.fClkHz = none → t.tmr = s.tmr) ∧
      (∀ f, s.params.fClkHz = some f → t.tmr = ⌈((6 * f : Nat) : Rat) / 1000000⌉₊) ∧
      s.now ≤ t.now ∧ (∀ addr, t.rpt.read addr = s.rpt.read addr)) ∧
    (∃ t, exec .clkLo s = .next t ∧
      t = { s with
            out := { s.out with clock := false }
            evt := s.evt ++ [(.clockFall s.i, t.now)]
            tmr := t.tmr
            upc := 0x9#4
            now := t.now } ∧
      (s.params.fClkHz = none → t.tmr = s.tmr) ∧
      (∀ f, s.params.fClkHz = some f → t.tmr = ⌈((6 * f : Nat) : Rat) / 1000000⌉₊) ∧
      s.now ≤ t.now ∧ (∀ addr, t.rpt.read addr = s.rpt.read addr))

/-- R93, R97, R99 with R145: at step level each wait completes, its instant at least 12, 6 and 6
microseconds after the step before, and nothing else changes. -/
def Obligations.WaitsLastTheirMinimum : Prop :=
  ∀ s : State, s.params.fClkHz = none →
    (∃ t, exec .waitLatch s = .next t ∧ t = { s with upc := 0x4#4, now := t.now } ∧
      s.now + 12 ≤ t.now ∧ (∀ addr, t.rpt.read addr = s.rpt.read addr)) ∧
    (∃ t, exec .waitClkHi s = .next t ∧ t = { s with upc := 0x8#4, now := t.now } ∧
      s.now + 6 ≤ t.now ∧ (∀ addr, t.rpt.read addr = s.rpt.read addr)) ∧
    (∃ t, exec .waitClkLo s = .next t ∧ t = { s with upc := 0xA#4, now := t.now } ∧
      s.now + 6 ≤ t.now ∧ (∀ addr, t.rpt.read addr = s.rpt.read addr))

/-- R123, R145 to R148: at step level the least duration of each step, 12, 6 and 6 microseconds for
the three waits and 0 for every other, can be met exactly, and every longer one is possible: the
environment can add any number of extra microseconds to whichever instruction completes. -/
def Obligations.EveryLengtheningIsPossible : Prop :=
  ∀ (s : State) (extra : Rat), s.params.fClkHz = none → 0 ≤ extra →
    ∃ d : Delay, ∀ (i : Instr) (u : State), exec i s = .next u →
      ∃ t, exec i { s with ports := { s.ports with extra := d } } = .next t ∧
        t.now = s.now + (if i = .waitLatch then 12 else if i = .waitClkHi ∨ i = .waitClkLo then 6 else 0)
          + extra

/-- R156: at tick level a wait counts one tick down while more than one is left, and goes on in
the last one; every period lasts `1000000 / F_CLK_HZ` microseconds. -/
def Obligations.WaitsCountTicks : Prop :=
  ∀ (s : State) (f : Nat), s.params.fClkHz = some f →
    ∀ (i : Instr) (succ : PhaseCode),
      (i = .waitLatch ∧ succ = 0x4#4) ∨ (i = .waitClkHi ∧ succ = 0x8#4) ∨
        (i = .waitClkLo ∧ succ = 0xA#4) →
      ∃ t, exec i s = .next t ∧ t.now = s.now + 1000000 / (f : Rat) ∧
        (1 < s.tmr → t = { s with tmr := s.tmr - 1, now := t.now }) ∧
        (s.tmr ≤ 1 → t = { s with tmr := 0, upc := succ, now := t.now })

/-- R95: SAMPLE stores the inverse of the level the environment answered into bit `7 - I`, and no
other bit of ACC. Where the line is driven the answer is its level; with nothing connected and a
pull-up it is high (R55); whatever the answer is, it is accepted. An `I` above 7, which no run
reaches, stores nothing: log entry 8, the model's. The counter of draws is log entry 3, the
model's. -/
def Obligations.SampleStoresInvertedLevel : Prop :=
  decode (.uph 0x5#4) = .ok .sample ∧
  ∀ s : State, ∃ t d, exec .sample s = .next t ∧
    (∀ level, s.ports.data = .driven level → d = level) ∧
    (s.ports.data = .floating → s.params.dataPullup = true → d = true) ∧
    (∀ k, k < 8 → t.acc.getLsbD k = if k + s.i.toNat = 7 then !d else s.acc.getLsbD k) ∧
    t = { s with
          acc := t.acc
          evt := s.evt ++ [(.sample s.i d, t.now)]
          upc := 0x6#4
          now := t.now
          draws := t.draws } ∧
    (t.draws = s.draws ∨ t.draws = s.draws + 1) ∧
    s.now ≤ t.now ∧ (∀ addr, t.rpt.read addr = s.rpt.read addr)

/-- R100: LOOP adds one to `I` and goes back to SAMPLE while the new value is below 8. -/
def Obligations.LoopCountsToEight : Prop :=
  decode (.uph 0xA#4) = .ok .loop ∧
  ∀ s : State, ∃ t, exec .loop s = .next t ∧
    t = { s with i := t.i, upc := t.upc, now := t.now } ∧
    (s.i.toNat ≤ 7 → t.i.toNat = s.i.toNat + 1) ∧
    (s.i.toNat < 7 → t.upc = 0x5#4) ∧ (s.i.toNat = 7 → t.upc = 0xB#4) ∧
    s.now ≤ t.now ∧ (∀ addr, t.rpt.read addr = s.rpt.read addr)

/-- R101, R63: DECODE writes every flag from its bit of ACC, `BS[k] = ACC[7 - k]`. -/
def Obligations.DecodeWritesEveryFlag : Prop :=
  decode (.uph 0xB#4) = .ok .decode ∧
  ∀ s : State, ∃ t, exec .decode s = .next t ∧
    (∀ k, k < 8 → t.bs.get k = s.acc.getLsbD (7 - k)) ∧
    t = { s with bs := t.bs, upc := 0xC#4, now := t.now } ∧
    s.now ≤ t.now ∧ (∀ addr, t.rpt.read addr = s.rpt.read addr)

/-- R110: PACK rebuilds the whole buffer from the flags; no old bit of it is left. A byte index
outside the report is not touched. -/
def Obligations.PackRebuildsReport : Prop :=
  decode (.uph 0xC#4) = .ok .pack ∧
  ∀ s : State, s.params.wf = true → s.rpt.wf → ∃ t, exec .pack s = .next t ∧
    (∀ k, k < 8 → (t.rpt.read s.params.buttonOffset).getLsbD k = s.bs.get k) ∧
    (∀ addr, addr < s.params.reportBytes → addr ≠ s.params.buttonOffset → t.rpt.read addr = 0x00#8) ∧
    (∀ addr, s.params.reportBytes ≤ addr → t.rpt.read addr = s.rpt.read addr) ∧
    t.rpt.wf ∧ t = { s with rpt := t.rpt, upc := 0xD#4, now := t.now } ∧ s.now ≤ t.now

/-- R111: DONE tells the size, clears FORCE, hands the report over and ends the operation. -/
def Obligations.DoneDeliversReport : Prop :=
  decode (.uph 0xD#4) = .ok .done ∧
  ∀ s : State, s.params.wf = true → ∃ t bytes, exec .done s = .next t ∧
    t.size.toNat = s.params.reportBytes ∧
    bytes.length = s.params.reportBytes ∧
    (∀ addr, addr < s.params.reportBytes → bytes[addr]? = some (s.rpt.read addr)) ∧
    t = { s with
          size := t.size
          force := false
          evt := s.evt ++ [(.reportReady bytes, t.now)]
          busy := false
          rdy := true
          upc := 0x0#4
          now := t.now } ∧
    s.now ≤ t.now ∧ (∀ addr, t.rpt.read addr = s.rpt.read addr)

/-- R41: the report space ends at `REPORT_BYTES`. An access inside it reads or writes that byte and
no other; one outside it faults by name, and so does PACK under an offset that R6 forbids. -/
def Obligations.ReportSpaceBounds : Prop :=
  (∀ (s : State) (addr : Nat), addr < s.params.reportBytes → memRead addr s = .ok (s.rpt.read addr)) ∧
  (∀ (s : State) (addr : Nat) (v : Byte), addr < s.params.reportBytes → s.rpt.wf →
    ∃ t, memWrite addr v s = .ok t ∧ t = { s with rpt := t.rpt } ∧ t.rpt.wf ∧
      memRead addr t = .ok v ∧ (∀ b, b ≠ addr → memRead b t = memRead b s)) ∧
  (∀ (s : State) (addr : Nat) (v : Byte), s.params.reportBytes ≤ addr →
    memRead addr s = .error (.noSuchReportByte addr) ∧
    memWrite addr v s = .error (.noSuchReportByte addr)) ∧
  (∀ s : State, s.params.reportBytes ≤ s.params.buttonOffset →
    exec .pack s = .fault (.noSuchReportByte s.params.buttonOffset))

/-- R112: after DECODE and PACK the button byte is the accumulator with its bits reversed. -/
def Obligations.ButtonByteIsReversedAccumulator : Prop :=
  ∀ s : State, s.params.wf = true → s.rpt.wf →
    ∃ t u, exec .decode s = .next t ∧ exec .pack t = .next u ∧
      (∀ k, k < 8 →
        (u.rpt.read s.params.buttonOffset).getLsbD k = s.acc.getLsbD (7 - k))

/-! ## Rules of the whole machine -/

/-- R33, R23, R24 and the canonical form of the buffer: from every state that meets the invariant,
every step that answers a next state answers one that meets it. -/
def Obligations.StepKeepsInvariant : Prop :=
  ∀ s t : State, BlockInv s → step s = .next t → BlockInv t

/-- R145, R148: from every state whose trace meets the minima and agrees with the phase, every step
answers one whose trace does, at step level and at tick level, however the environment lengthens
it. -/
def Obligations.StepKeepsMinimumDelays : Prop :=
  ∀ s t : State, s.params.wf = true → TimingInv s → step s = .next t → TimingInv t

/-- Both invariants hold after reset, whatever parameters R6 allows. -/
def Obligations.ResetMeetsInvariants : Prop :=
  (BlockInv State.reset ∧ TimingInv State.reset) ∧
  (∀ p : Params, p.wf = true →
    BlockInv { State.reset with params := p } ∧ TimingInv { State.reset with params := p })

/-- R120: under the parameters R6 allows, no step faults, whatever the state. -/
def Obligations.NoStepFaults : Prop :=
  ∀ (s : State) (f : Fault), s.params.wf = true → step s ≠ .fault f

/-- R121, R84, R69: exactly when a step is refused, and with which reason. The first line counts a
phase other than IDLE with `BUSY` 0, which no run reaches, as a block that cannot take a command
(log entry 9). The order is the model's: cmdWhileBusy comes before reservedPhase and is given in a
stalled period too, where the other two are not (log entries 2 and 9). -/
def Obligations.ExactlyThreeRefusals : Prop :=
  ∀ (s : State) (r : Refusal), step s = .refused r ↔
    s.ports.rst = false ∧
    ((r = .cmdWhileBusy ∧ s.ports.cmd ≠ 0b00#2 ∧ (s.upc ≠ 0x0#4 ∨ s.busy = true)) ∨
     (r = .notInitialised ∧ s.ports.cmd = 0b10#2 ∧ s.upc = 0x0#4 ∧ s.busy = false ∧
       s.inited = false ∧ (s.params.fClkHz = none ∨ s.ports.stall = false)) ∨
     (r = .reservedPhase ∧ s.ports.cmd = 0b00#2 ∧ (s.upc = 0xE#4 ∨ s.upc = 0xF#4) ∧
       (s.params.fClkHz = none ∨ s.ports.stall = false)))

/-- R104, R89: in a state that meets the invariant, a host that does its duties always gets a step:
only NOP while busy, CREATE_REPORT only after INIT. -/
def Obligations.DutifulHostAlwaysGetsAStep : Prop :=
  ∀ s : State, BlockInv s → (s.busy = true → s.ports.cmd = 0b00#2) →
    (s.ports.cmd = 0b10#2 → s.inited = true) → ∃ t, step s = .next t

/-- R155, R6: no step changes a parameter. -/
def Obligations.ParametersNeverChange : Prop :=
  ∀ s t : State, step s = .next t → t.params = s.params

/-- R11 to R13, R23 and R24: which instructions write ACC, I, BS, TMR and the buffer; every other
instruction leaves them as they were. IDLE writes none of them, whatever command it executes. -/
def Obligations.OnlyTheseWriteData : Prop :=
  ∀ (i : Instr) (s t : State), exec i s = .next t →
    (i ≠ .clr → i ≠ .sample → t.acc = s.acc) ∧
    (i ≠ .clr → i ≠ .loop → t.i = s.i) ∧
    (i ≠ .clr → i ≠ .decode → t.bs = s.bs) ∧
    (i ≠ .pack → t.rpt = s.rpt ∧ ∀ addr, t.rpt.read addr = s.rpt.read addr) ∧
    (i ≠ .latchHi → i ≠ .clkHi → i ≠ .clkLo → i ≠ .waitLatch → i ≠ .waitClkHi → i ≠ .waitClkLo →
      t.tmr = s.tmr)

/-- R15 to R21: which instructions write the flags, the size slot, the directions and the output
latches. IDLE writes what the command it executes writes. -/
def Obligations.OnlyTheseWriteControl : Prop :=
  ∀ (i : Instr) (s t : State), exec i s = .next t →
    (i ≠ .createReport → i ≠ .done → ¬(i = .idle ∧ s.ports.cmd = 0b10#2) →
      t.busy = s.busy ∧ t.rdy = s.rdy) ∧
    (i ≠ .init → ¬(i = .idle ∧ s.ports.cmd = 0b01#2) → t.inited = s.inited ∧ t.dir = s.dir) ∧
    (i ≠ .done → t.size = s.size ∧ t.force = s.force) ∧
    (i ≠ .latchHi → i ≠ .latchLo → i ≠ .init → ¬(i = .idle ∧ s.ports.cmd = 0b01#2) →
      t.out.latch = s.out.latch) ∧
    (i ≠ .clkHi → i ≠ .clkLo → i ≠ .init → ¬(i = .idle ∧ s.ports.cmd = 0b01#2) →
      t.out.clock = s.out.clock) ∧
    (s.force = false → t.force = false) ∧ readForce t = false

/-- R103: where UPC goes from each instruction. A wait stays where it is only at tick level. -/
def Obligations.PhaseSuccessors : Prop :=
  ∀ (i : Instr) (s t : State), exec i s = .next t →
    match i with
    | .nop => t.upc = s.upc
    | .init => t.upc = 0x0#4
    | .createReport => t.upc = 0x1#4
    | .processReport => t.upc = 0x0#4
    | .idle => t.upc = if s.ports.cmd = 0b10#2 then 0x1#4 else 0x0#4
    | .clr => t.upc = 0x2#4
    | .latchHi => t.upc = 0x3#4
    | .waitLatch => t.upc = 0x4#4 ∨ (s.params.fClkHz ≠ none ∧ t.upc = s.upc)
    | .latchLo => t.upc = 0x5#4
    | .sample => t.upc = 0x6#4
    | .clkHi => t.upc = 0x7#4
    | .waitClkHi => t.upc = 0x8#4 ∨ (s.params.fClkHz ≠ none ∧ t.upc = s.upc)
    | .clkLo => t.upc = 0x9#4
    | .waitClkLo => t.upc = 0xA#4 ∨ (s.params.fClkHz ≠ none ∧ t.upc = s.upc)
    | .loop => t.upc = 0x5#4 ∨ t.upc = 0xB#4
    | .decode => t.upc = 0xC#4
    | .pack => t.upc = 0xD#4
    | .done => t.upc = 0x0#4

/-- R22, R33 (c), (d), (h): in a state that meets the invariant the block drives LATCH and CLOCK
exactly when INIT has run, LATCH high exactly in WAIT_LATCH and LATCH_LO, CLOCK high exactly in
WAIT_CLK_HI and CLK_LO, and it never drives the other three lines. -/
def Obligations.LineLevels : Prop :=
  ∀ s : State, BlockInv s →
    (s.inited = false → ∀ l, lineLevel s l = none) ∧
    (s.inited = true →
      lineLevel s .latch = some (decide (s.upc = 0x3#4 ∨ s.upc = 0x4#4)) ∧
      lineLevel s .clock = some (decide (s.upc = 0x7#4 ∨ s.upc = 0x8#4))) ∧
    lineLevel s .data = none ∧ lineLevel s .led0 = none ∧ lineLevel s .led1 = none

/-- R48, R43: from a state that meets the invariant, a step without reset changes at most one of
the two output latches; and it changes a latch exactly when it adds that line's event. -/
def Obligations.OnePinEdgePerStep : Prop :=
  ∀ s t : State, BlockInv s → s.ports.rst = false → step s = .next t →
    (t.out.latch = s.out.latch ∨ t.out.clock = s.out.clock) ∧
    (t.out.latch ≠ s.out.latch ↔
      ∃ x, t.evt = s.evt ++ [x] ∧ (x.1 = .latchRise ∨ x.1 = .latchFall)) ∧
    (t.out.clock ≠ s.out.clock ↔
      ∃ x, t.evt = s.evt ++ [x] ∧ (x.1 = .clockRise s.i ∨ x.1 = .clockFall s.i))

/-! ## The host's side -/

/-- R50, R57, R89: the host's read of the report has no meaning while `BUSY` is 1; with `RDY` 1 it
gives every byte, the size, and the force flag 0. That a read before any report is ready is turned
away under a name of its own is the model's (log entry 10). -/
def Obligations.TakingTheReport : Prop :=
  ∀ s : State,
    (s.busy = true → takeReport s = .error .readWhileBusy) ∧
    (s.busy = false → s.rdy = false → takeReport s = .error .noReport) ∧
    (s.busy = false → s.rdy = true → ∃ r, takeReport s = .ok r ∧
      r.bytes.length = s.params.reportBytes ∧
      (∀ addr, addr < s.params.reportBytes → r.bytes[addr]? = some (s.rpt.read addr)) ∧
      r.size = s.size ∧ r.force = false)

/-- R129: the five callbacks other than create-report and process-report change no state of the
block, in IDLE; only time passes and the environment, the connected controller with it, goes on. Create-report and process-report
present the commands of R82 and R83. -/
def Obligations.CallbacksOfTheStack : Prop :=
  (∀ (s : State) (c : Callback), c ≠ .createReport → c ≠ .processReport →
    s.ports.rst = false → s.ports.cmd = c.cmd → s.upc = 0x0#4 →
    ∃ t, step s = .next t ∧
      t = { s with now := t.now, ports := t.ports, script := t.script, pad := padAfter s t }) ∧
  decode (.cmd Callback.createReport.cmd) = .ok .createReport ∧
  decode (.cmd Callback.processReport.cmd) = .ok .processReport

/-! ## A whole operation, from every state one can start in -/

/-- R73, R104: an accepted CREATE_REPORT executes the 55 micro-operations of the fixed sequence, in
that order, and is busy until the last of them has ended. -/
def Obligations.OperationFollowsFixedSequence : Prop :=
  ∀ s : State, Starts s → s.params.fClkHz = none → Undisturbed s 55 →
    fixedSequence.length = 55 ∧
    (∀ n, n < 55 → ∃ u i, core.run (n + 1) s = .next u ∧ fixedSequence[n]? = some i ∧
      decode (.uph u.upc) = .ok i ∧ u.busy = true) ∧
    (∀ k, k < 8 → ∃ u, core.run (5 + 6 * k) s = .next u ∧ u.upc = 0x5#4 ∧ u.i.toNat = k) ∧
    (∃ t, core.run 56 s = .next t ∧ t.upc = 0x0#4 ∧ t.busy = false)

/-- R85, R86: what an operation computes from its eight sampled levels, and the pin events it makes.
Nothing else of the state before it matters. -/
def Obligations.OperationResult : Prop :=
  ∀ (s : State) (d : Nat → Level), Starts s → s.params.fClkHz = none → Undisturbed s 55 →
    ShowsLevels s d →
    ∃ t, core.run 56 s = .next t ∧
      (∀ k, k < 8 → (t.rpt.read s.params.buttonOffset).getLsbD k = !d k) ∧
      (∀ addr, addr < s.params.reportBytes → addr ≠ s.params.buttonOffset →
        t.rpt.read addr = 0x00#8) ∧
      t.size.toNat = s.params.reportBytes ∧ t.force = false ∧ t.rdy = true ∧ t.busy = false ∧
      t.upc = 0x0#4 ∧ t.out = ⟨false, false⟩ ∧ t.dir = s.dir ∧ t.inited = s.inited ∧
      (∀ k, k < 8 → t.bs.get k = !d k ∧ t.acc.getLsbD (7 - k) = !d k) ∧ t.i = 8#4 ∧
      t.evt.map Prod.fst =
        s.evt.map Prod.fst ++ readEvents d ++ [.reportReady (reportImage t)]

/-- R53: with a well-behaved controller on which the buttons `p` are held during the latch pulse, the
flags after the operation are `p` and the button byte holds them, whatever is held later (R154). -/
def Obligations.ControllerIsReadCorrectly : Prop :=
  ∀ (s : State) (p : ButtonState), BlockInv s → Starts s → s.params.fClkHz = none →
    Undisturbed s 55 → ControllerAnswers s p →
    ∃ t, core.run 56 s = .next t ∧ t.rdy = true ∧ t.bs = p ∧
      (∀ k, k < 8 → (t.rpt.read s.params.buttonOffset).getLsbD k = p.get k)

/-- R55: with no controller and a pull-up on DATA, every flag reads released and the report is all
zero. -/
def Obligations.AbsentControllerReadsReleased : Prop :=
  ∀ s : State, Starts s → s.params.fClkHz = none → Undisturbed s 55 → NothingConnected s →
    s.params.dataPullup = true →
    ∃ t, core.run 56 s = .next t ∧ t.rdy = true ∧ t.acc = 0x00#8 ∧
      (∀ k, k < 8 → t.bs.get k = false) ∧
      (∀ addr, addr < s.params.reportBytes → t.rpt.read addr = 0x00#8)

/-- R87, R113, R30: two operations with equal parameters and equal sampled levels end with equal
reports, sizes and force flags, whatever the states they began in. -/
def Obligations.ResultDependsOnSamplesAlone : Prop :=
  ∀ (s s' : State) (d : Nat → Level), Starts s → Starts s' → s.params = s'.params →
    s.params.fClkHz = none → Undisturbed s 55 → Undisturbed s' 55 →
    ShowsLevels s d → ShowsLevels s' d →
    ∃ t t', core.run 56 s = .next t ∧ core.run 56 s' = .next t' ∧ takeReport t = takeReport t' ∧
      ∃ r, takeReport t = .ok r

/-- R145, R150: in any trace of one operation that meets the minima, REPORT_READY comes at least
108 microseconds after LATCH_RISE. -/
def Obligations.TraceOfOneReadLasts108 : Prop :=
  ∀ (l : List Stamped) (d : Nat → Level) (bytes : List Byte),
    l.map Prod.fst = readEvents d ++ [.reportReady bytes] → minimaHold l = true →
    ∃ first last, l.head? = some first ∧ l.getLast? = some last ∧ first.2 + 108 ≤ last.2

/-- R150, R147: however the environment lengthens its steps, an operation has at least 108
microseconds between its LATCH_RISE and its REPORT_READY. -/
def Obligations.OperationLastsAtLeast108 : Prop :=
  ∀ s : State, Starts s → s.params.fClkHz = none → Undisturbed s 55 →
    ∃ t mid rise ready bytes, core.run 56 s = .next t ∧
      t.evt = s.evt ++ (.latchRise, rise) :: mid ++ [(.reportReady bytes, ready)] ∧
      rise + 108 ≤ ready

/-- R156: at tick level an operation takes `38 + N_LATCH + 8 × (N_CLK_HI + N_CLK_LO)` unstalled
clock periods from CLR to DONE, at any clock frequency, and is busy throughout. -/
def Obligations.TickOperationLength : Prop :=
  ∀ (s : State) (f total : Nat), Starts s → s.params.fClkHz = some f →
    total = 38 + ⌈((12 * f : Nat) : Rat) / 1000000⌉₊
      + 8 * (⌈((6 * f : Nat) : Rat) / 1000000⌉₊ + ⌈((6 * f : Nat) : Rat) / 1000000⌉₊) →
    Undisturbed s total → (∀ k, k ≤ total → (inputAt s k).stall = false) →
    (∀ n, 1 ≤ n → n ≤ total → ∃ u, core.run n s = .next u ∧ u.busy = true) ∧
    (∃ t, core.run (total + 1) s = .next t ∧ t.upc = 0x0#4 ∧ t.busy = false ∧ t.rdy = true)

/-- R156 and R148: the tick-level machine refines the step-level one. Every period lasts
`1000000 / F_CLK_HZ` microseconds. A stalled one changes nothing else, TMR included; a period of a
wait that is not its last takes one off TMR and changes nothing else; every other period does
exactly what the step-level step does, TMR, the clock parameter and the instant of a wait's end
apart. The model's, not the spec's: that the environment goes on to its next input and the
controller sees the period (log entries 2 and 23), and
that every effect and event of a period, SAMPLE's included, has the instant of the period's end,
where R156 says so of pin writes only (log entry 20). -/
def Obligations.TickLevelRefinesStepLevel : Prop :=
  ∀ (s t : State) (f : Nat), s.params.fClkHz = some f → s.ports.rst = false → step s = .next t →
    t.now = s.now + 1000000 / (f : Rat) ∧
    if s.ports.stall = true then
      t = { s with now := t.now, ports := t.ports, script := t.script, pad := padAfter s t }
    else if (s.upc = 0x3#4 ∨ s.upc = 0x7#4 ∨ s.upc = 0x9#4) ∧ 1 < s.tmr then
      t = { s with
            now := t.now, tmr := s.tmr - 1, ports := t.ports, script := t.script, pad := padAfter s t }
    else
      ∃ u, step (asStepLevel s f) = .next u ∧
        t = { u with now := t.now, tmr := t.tmr, params := s.params } ∧
        t.evt = u.evt

/-- R123, D13: an interruption lengthens a step and changes nothing else. Two states that differ
only in instants and in how far the environment lengthens its steps step alike, however differently
the time goes. The premise rules out traces no run reaches, whose broken delays would put a
controller outside its contract (R159). -/
def Obligations.TimeChangesNoValue : Prop :=
  ∀ s s' : State, TimingInv s → TimingInv s' → eraseTime s = eraseTime s' →
    eraseOutcome (step s) = eraseOutcome (step s')

/-- R140, R144, R103: while an operation runs, a step without reset keeps it running or is its DONE;
only DONE and reset end one. -/
def Obligations.OnlyDoneOrResetEndsAnOperation : Prop :=
  ∀ s t : State, BlockInv s → s.busy = true → s.ports.rst = false → step s = .next t →
    (s.upc ≠ 0xD#4 → t.busy = true ∧ t.rdy = s.rdy ∧ ∀ bytes i, t.evt ≠ s.evt ++ [(.reportReady bytes, i)]) ∧
    (t.busy = false → s.upc = 0xD#4 ∧ t.rdy = true)

/-! ## Scripts -/

/-- R71, R88, R85: the line `CREATE_REPORT data=W`, run in IDLE after INIT, at step level and at tick
level, ends after exactly one operation, whose samples are the bits of `W` from bit 7 down (R61). -/
def Obligations.ScriptLineRunsOneOperation : Prop :=
  ∀ (s : State) (w : Byte), s.upc = 0x0#4 → s.busy = false → s.inited = true →
    s.params.wf = true → s.rpt.wf →
    ∃ t, runLine { action := .createReport w } s = .ended t ∧
      t.upc = 0x0#4 ∧ t.busy = false ∧ t.rdy = true ∧ t.acc = ~~~w ∧
      (∀ k, k < 8 → (t.rpt.read s.params.buttonOffset).getLsbD k = !w.getLsbD (7 - k)) ∧
      (∀ addr, addr < s.params.reportBytes → addr ≠ s.params.buttonOffset →
        t.rpt.read addr = 0x00#8) ∧
      t.size.toNat = s.params.reportBytes ∧
      t.evt.map Prod.fst =
        s.evt.map Prod.fst ++ readEvents (fun k => w.getLsbD (7 - k)) ++ [.reportReady (reportImage t)]

/-- R71, R80, R81, R83, R140: each other line ends at once. RESET is issued in any state, a command
in IDLE only. After the line the environment is quiet (log entry 5, the model's). -/
def Obligations.OtherScriptLinesEndAtOnce : Prop :=
  (∀ s : State, runLine { action := .reset } s =
    .ended { State.reset with
      params := s.params, draws := s.draws, pad := { s.pad with capture := .nothing } }) ∧
  (∀ s : State, s.upc = 0x0#4 → s.busy = false →
    (∃ t, runLine { action := .nop } s = .ended t ∧
      t = { s with now := t.now, ports := Input.quiet, script := [], pad := t.pad }) ∧
    (∀ payload, ∃ t, runLine { action := .processReport payload } s = .ended t ∧
      t = { s with now := t.now, ports := Input.quiet, script := [], pad := t.pad }) ∧
    (∃ t, runLine { action := .init } s = .ended t ∧
      t = { s with
            dir := ⟨true, true, false, false, false⟩
            out := ⟨false, false⟩
            inited := true
            now := t.now
            ports := Input.quiet
            script := []
            pad := t.pad })) ∧
  (∀ (s : State) (a : Action), a = .nop ∨ a = .init ∨ (∃ w, a = .createReport w) ∨
      (∃ payload, a = .processReport payload) →
    s.upc ≠ 0x0#4 ∨ s.busy = true → runLine { action := a } s = .notIdle)

/-- R84, R121: a script's CREATE_REPORT before INIT is refused, changes no state, and its reason is
recorded. That the script goes on with the next line is what program P3 of
spec/95_test_vectors.md shows (log entry 21). -/
def Obligations.RefusedLineChangesNothing : Prop :=
  ∀ (s : State) (w : Byte) (lines : List ScriptLine) (refusals : List Refusal),
    s.upc = 0x0#4 → s.busy = false → s.inited = false →
    runScript ({ action := .createReport w } :: lines) s refusals =
      runScript lines s (refusals ++ [.notInitialised])

/-- R71, R145, R148, R156: an `@t` that the rules allow gives its micro-operation the instant `t`.
The first two clauses say which instants have inputs, and which inputs: at step level every one that
is not too early, by lengthening the step; at tick level every one a whole number of periods later
than the earliest, by stalled periods before it. The third says that running these inputs, at either
level, executes the micro-operation, with its end at `t` and at no step before. How the environment
does it is the model's (log entry 21), and so is, at tick level, that the instant of a
micro-operation that writes no pin is the end of its last period (log entry 20). -/
def Obligations.TimedStepHasItsInstant : Prop :=
  ∀ (s : State) (i : Instr) (presented : Input) (least : Nat),
    least = (if i = .waitLatch then 12 else if i = .waitClkHi ∨ i = .waitClkLo then 6 else 0) →
    (s.params.fClkHz = none → ∀ t : Rat,
      (s.now + least ≤ t →
        ∃ d, timedInputs s.params s.now i presented (some t) =
          some ([{ presented with extra := d }], t)) ∧
      (t < s.now + least → timedInputs s.params s.now i presented (some t) = none)) ∧
    (∀ f n periods : Nat, s.params.fClkHz = some f → 1 ≤ f →
      periods = max 1 ⌈((least * f : Nat) : Rat) / 1000000⌉₊ →
      timedInputs s.params s.now i presented
          (some (s.now + (n + periods : Nat) * (1000000 / (f : Rat)))) =
        some (List.replicate n { Input.quiet with stall := true }
            ++ List.replicate periods { presented with extra := ⟨0, 1⟩ },
          s.now + (n + periods : Nat) * (1000000 / (f : Rat)))) ∧
    (∀ (t : Rat) (inputs : List Input), Executable s i presented →
      timedInputs s.params s.now i presented (some t) = some (inputs, t) →
      (∀ k, k < inputs.length →
        ∃ v, core.run k (s.present inputs) = .next v ∧ v.upc = s.upc) ∧
      ∃ u, core.run inputs.length (s.present inputs) = .next u ∧ u.now = t ∧
        (i ≠ .idle → u.upc ≠ s.upc))

/-- R88, R104, R131: from every state in IDLE that meets the invariant, every script, timed or not,
runs to its end, at step level and at tick level: the last line's command has ended, UPC is IDLE and
BUSY is 0; unless an `@t` cannot be had or an EXPECT line does not hold, and a script of actions
without `@t` always ends so. After INIT, without RESET, no line is refused. That a script with a
refused line goes on and ends is the model's (log entry 21), and of the hardware nothing may be
claimed then (R121). -/
def Obligations.EveryScriptEndsInIdle : Prop :=
  ∀ (lines : List ScriptLine) (s : State), BlockInv s → s.upc = 0x0#4 →
    (runScript lines s [] = .stopped .illTimed ∨ runScript lines s [] = .stopped .unmet ∨
      ∃ t refusals, runScript lines s [] = .ended t refusals ∧
        t.upc = 0x0#4 ∧ t.busy = false ∧ BlockInv t ∧
        (∀ r ∈ refusals, r = .notInitialised) ∧
        (s.inited = true → (∀ l ∈ lines, l.action ≠ .reset) → refusals = [])) ∧
    ((∀ l ∈ lines, l.marks = [] ∧ ∀ what, l.action ≠ .expect what) →
      ∃ t refusals, runScript lines s [] = .ended t refusals)

/-! ## The controller's capture -/

/-- R154, R53 (a): the buttons a well-behaved controller is read with are those held in one step of
the latch pulse, all eight together, whatever is held in the other steps: a button that changes after
the pulse is not seen. In which step of the pulse they are captured is free (R54 (c), log entry 23). -/
def Obligations.ButtonsAreCapturedAtTheLatch : Prop :=
  ∀ (s : State) (held : Nat → ButtonState), BlockInv s → Starts s → s.params.fClkHz = none →
    Undisturbed s 55 → ControllerConnected s held →
    ∃ t n, core.run 56 s = .next t ∧ 2 ≤ n ∧ n ≤ 4 ∧ t.rdy = true ∧ t.bs = held n ∧
      (∀ k, k < 8 → (t.rpt.read s.params.buttonOffset).getLsbD k = (held n).get k)

/-- R154, R53 (a), at step level and at tick level: a sample does not depend on what is held at its
instant; a step with LATCH low before and after it changes no capture; and the step in which LATCH
falls captures buttons held in some step of the pulse. That the controller is followed step by step
is the model's (log entry 23). -/
def Obligations.CaptureStaysUntilTheNextPulse : Prop :=
  (∀ (s t : State) (held later : ButtonState),
    exec .sample { s with ports := { s.ports with data := .controller held } } = .next t →
    exec .sample { s with ports := { s.ports with data := .controller later } } =
      .next { t with ports := { t.ports with data := .controller later } }) ∧
  (∀ (s t : State) (held : ButtonState), s.ports.data = .controller held → s.ports.rst = false →
    step s = .next t →
    (lineLevel s .latch ≠ some true → lineLevel t .latch ≠ some true → t.pad = s.pad) ∧
    (∀ l, s.pad.capture = .latching l → lineLevel s .latch = some true →
      lineLevel t .latch ≠ some true →
      ∃ b, t.pad.capture = .captured b ∧ (b = held ∨ b ∈ l)))
end

