-- ==== Sys2Proof/Laws/Memory.lean ====
section
/-!
SUPPORT. The laws of the report memory: reading after writing, and that every operation keeps the
canonical form. Equal contents in canonical form are equal data.
-/

namespace Sys2Proof.Machine.Memory

open Sys2Proof.Machine

@[simp] theorem read_nil (a : Nat) : read [] a = unlisted := rfl

@[simp] theorem read_cons (k : Nat) (v : Byte) (m : Memory) (a : Nat) :
    read ((k, v) :: m) a = if k = a then v else read m a := rfl

theorem wf_nil : wf [] := by simp [wf]

theorem wf_cons {k : Nat} {v : Byte} {m : Memory} :
    wf ((k, v) :: m) ↔ (∀ c ∈ m, k < c.1) ∧ v ≠ unlisted ∧ wf m := by
  simp only [wf, List.pairwise_cons, List.mem_cons, forall_eq_or_imp]
  tauto

/-- An address below every listed one is not listed. -/
theorem read_of_lt {m : Memory} {a : Nat} (h : ∀ c ∈ m, a < c.1) : read m a = unlisted := by
  induction m with
  | nil => rfl
  | cons c m ih =>
    obtain ⟨k, v⟩ := c
    have hk : a < k := h (k, v) (by simp)
    rw [read_cons, if_neg (by omega)]
    exact ih fun c hc => h c (by simp [hc])

theorem read_put_same {m : Memory} {a : Nat} {v : Byte} (h : ∀ c ∈ m, a < c.1) :
    read (put a v m) a = v := by
  unfold put
  split
  · next hv => rw [read_of_lt h, hv]
  · simp

theorem read_put_other {m : Memory} {a b : Nat} {v : Byte} (h : b ≠ a) :
    read (put a v m) b = read m b := by
  unfold put
  split
  · rfl
  · simp [h.symm]

theorem wf_put {m : Memory} {a : Nat} {v : Byte} (hm : wf m) (h : ∀ c ∈ m, a < c.1) :
    wf (put a v m) := by
  unfold put
  split
  · exact hm
  · next hv => exact wf_cons.2 ⟨h, hv, hm⟩

theorem mem_put {m : Memory} {a : Nat} {v : Byte} {c : Host.Cell} (h : c ∈ put a v m) :
    c.1 = a ∨ c ∈ m := by
  unfold put at h
  split at h
  · exact .inr h
  · rcases List.mem_cons.1 h with h | h
    · exact .inl (by rw [h])
    · exact .inr h

theorem mem_write {m : Memory} {a : Nat} {v : Byte} {c : Host.Cell} (h : c ∈ write m a v) :
    c.1 = a ∨ c ∈ m := by
  induction m with
  | nil => exact mem_put h
  | cons d m ih =>
    obtain ⟨k, w⟩ := d
    unfold write at h
    split at h
    · exact mem_put h
    · split at h
      · exact (mem_put h).imp_right (List.mem_cons_of_mem _)
      · rcases List.mem_cons.1 h with h | h
        · exact .inr (by simp [h])
        · exact (ih h).imp_right (List.mem_cons_of_mem _)

/-- Every address above `k` of a canonical list headed by `k`, seen from an address below `k`. -/
theorem lt_of_lt_head {k a : Nat} {w : Byte} {m : Memory} (hm : wf ((k, w) :: m)) (h : a < k) :
    ∀ c ∈ (k, w) :: m, a < c.1 := by
  intro c hc
  rcases List.mem_cons.1 hc with hc | hc
  · rw [hc]; exact h
  · exact h.trans ((wf_cons.1 hm).1 c hc)

/-- A write keeps the canonical form. -/
theorem write_wf {m : Memory} (hm : wf m) (a : Nat) (v : Byte) : wf (write m a v) := by
  induction m with
  | nil => exact wf_put wf_nil (by simp)
  | cons d m ih =>
    obtain ⟨k, w⟩ := d
    obtain ⟨hlt, hw, hm'⟩ := wf_cons.1 hm
    unfold write
    split
    · next h => exact wf_put hm (lt_of_lt_head hm h)
    · split
      · next h => exact wf_put hm' (by rw [h]; exact hlt)
      · next h1 h2 =>
        refine wf_cons.2 ⟨fun c hc => ?_, hw, ih hm'⟩
        rcases mem_write hc with hc | hc
        · omega
        · exact hlt c hc

/-- A read after a write to the same place gives the value written. -/
theorem read_write_same {m : Memory} (hm : wf m) (a : Nat) (v : Byte) :
    read (write m a v) a = v := by
  induction m with
  | nil => exact read_put_same (by simp)
  | cons d m ih =>
    obtain ⟨k, w⟩ := d
    obtain ⟨hlt, -, hm'⟩ := wf_cons.1 hm
    unfold write
    split
    · next h => exact read_put_same (lt_of_lt_head hm h)
    · split
      · next h => exact read_put_same (by rw [h]; exact hlt)
      · next h1 h2 => rw [read_cons, if_neg (by omega), ih hm']

/-- A write leaves every other place alone. -/
theorem read_write_other {m : Memory} {a b : Nat} (h : b ≠ a) (v : Byte) :
    read (write m a v) b = read m b := by
  induction m with
  | nil => exact read_put_other h
  | cons d m ih =>
    obtain ⟨k, w⟩ := d
    unfold write
    split
    · exact read_put_other h
    · split
      · next h2 => rw [read_put_other h, read_cons, if_neg (by omega)]
      · simp [ih]

/-- Zeroing keeps the canonical form. -/
theorem zeroBelow_wf {m : Memory} (hm : wf m) (n : Nat) : wf (zeroBelow n m) := by
  induction n with
  | zero => exact hm
  | succ n ih => exact write_wf ih n _

/-- Zeroing the first `n` bytes: they read 0, every other byte as before. -/
theorem read_zeroBelow {m : Memory} (hm : wf m) (n a : Nat) :
    read (zeroBelow n m) a = if a < n then 0x00#8 else read m a := by
  induction n with
  | zero => simp [zeroBelow]
  | succ n ih =>
    unfold zeroBelow
    by_cases h : a = n
    · subst h; simp [read_write_same (zeroBelow_wf hm _)]
    · rw [read_write_other h, ih]
      by_cases h2 : a < n
      · simp [h2, Nat.lt_succ_of_lt h2]
      · rw [if_neg h2, if_neg (by omega)]

/-- An address above every address of a canonical list that reads like another list reads 0 there. -/
theorem eq_nil_of_read {m : Memory} (hm : wf m) (h : ∀ a, read m a = unlisted) : m = [] := by
  cases m with
  | nil => rfl
  | cons c m =>
    obtain ⟨k, v⟩ := c
    exact absurd (by simpa using h k) (wf_cons.1 hm).2.1

/-- Canonical memories that read alike are equal data. -/
theorem ext_of_read {m n : Memory} (hm : wf m) (hn : wf n) (h : ∀ a, read m a = read n a) : m = n := by
  induction m generalizing n with
  | nil => exact (eq_nil_of_read hn fun a => (h a).symm).symm
  | cons c m ih =>
    obtain ⟨k, v⟩ := c
    obtain ⟨hlt, hv, hm'⟩ := wf_cons.1 hm
    cases n with
    | nil => exact absurd (by simpa using h k) hv
    | cons d n =>
      obtain ⟨l, w⟩ := d
      obtain ⟨hlt', hw, hn'⟩ := wf_cons.1 hn
      have hkl : k = l := by
        rcases Nat.lt_trichotomy k l with hl | hl | hl
        · have := h k
          rw [read_cons, if_pos rfl, read_of_lt (lt_of_lt_head hn hl)] at this
          exact absurd this hv
        · exact hl
        · have := h l
          rw [read_cons l, if_pos rfl, read_of_lt (lt_of_lt_head hm hl)] at this
          exact absurd this.symm hw
      subst hkl
      have hvw : v = w := by simpa using h k
      subst hvw
      refine congrArg _ (ih hm' hn' fun a => ?_)
      by_cases ha : k = a
      · subst ha; rw [read_of_lt hlt, read_of_lt hlt']
      · simpa [ha] using h a

end Sys2Proof.Machine.Memory
end

