-- ==== Sys2Proof/Laws/State.lean ====
section
/-!
SUPPORT. What each update of State does to each field: one lemma a field, so that no proof unfolds
a record update.
-/

namespace Sys2Proof.Machine

/-! ### elapse -/

@[simp] theorem elapse_acc (t : Nat) (s : State) : (elapse t s).acc = s.acc := by
  unfold elapse; split <;> rfl
@[simp] theorem elapse_i (t : Nat) (s : State) : (elapse t s).i = s.i := by
  unfold elapse; split <;> rfl
@[simp] theorem elapse_bs (t : Nat) (s : State) : (elapse t s).bs = s.bs := by
  unfold elapse; split <;> rfl
@[simp] theorem elapse_upc (t : Nat) (s : State) : (elapse t s).upc = s.upc := by
  unfold elapse; split <;> rfl
@[simp] theorem elapse_busy (t : Nat) (s : State) : (elapse t s).busy = s.busy := by
  unfold elapse; split <;> rfl
@[simp] theorem elapse_rdy (t : Nat) (s : State) : (elapse t s).rdy = s.rdy := by
  unfold elapse; split <;> rfl
@[simp] theorem elapse_inited (t : Nat) (s : State) : (elapse t s).inited = s.inited := by
  unfold elapse; split <;> rfl
@[simp] theorem elapse_force (t : Nat) (s : State) : (elapse t s).force = s.force := by
  unfold elapse; split <;> rfl
@[simp] theorem elapse_size (t : Nat) (s : State) : (elapse t s).size = s.size := by
  unfold elapse; split <;> rfl
@[simp] theorem elapse_dir (t : Nat) (s : State) : (elapse t s).dir = s.dir := by
  unfold elapse; split <;> rfl
@[simp] theorem elapse_out (t : Nat) (s : State) : (elapse t s).out = s.out := by
  unfold elapse; split <;> rfl
@[simp] theorem elapse_tmr (t : Nat) (s : State) : (elapse t s).tmr = s.tmr := by
  unfold elapse; split <;> rfl
@[simp] theorem elapse_rpt (t : Nat) (s : State) : (elapse t s).rpt = s.rpt := by
  unfold elapse; split <;> rfl
@[simp] theorem elapse_evt (t : Nat) (s : State) : (elapse t s).evt = s.evt := by
  unfold elapse; split <;> rfl
@[simp] theorem elapse_params (t : Nat) (s : State) : (elapse t s).params = s.params := by
  unfold elapse; split <;> rfl
@[simp] theorem elapse_ports (t : Nat) (s : State) : (elapse t s).ports = s.ports := by
  unfold elapse; split <;> rfl
@[simp] theorem elapse_script (t : Nat) (s : State) : (elapse t s).script = s.script := by
  unfold elapse; split <;> rfl
@[simp] theorem elapse_draws (t : Nat) (s : State) : (elapse t s).draws = s.draws := by
  unfold elapse; split <;> rfl
@[simp] theorem elapse_pad (t : Nat) (s : State) : (elapse t s).pad = s.pad := by
  unfold elapse; split <;> rfl

/-! ### loadTmr -/

@[simp] theorem loadTmr_acc (t : Nat) (s : State) : (loadTmr t s).acc = s.acc := by
  unfold loadTmr; split <;> rfl
@[simp] theorem loadTmr_i (t : Nat) (s : State) : (loadTmr t s).i = s.i := by
  unfold loadTmr; split <;> rfl
@[simp] theorem loadTmr_bs (t : Nat) (s : State) : (loadTmr t s).bs = s.bs := by
  unfold loadTmr; split <;> rfl
@[simp] theorem loadTmr_upc (t : Nat) (s : State) : (loadTmr t s).upc = s.upc := by
  unfold loadTmr; split <;> rfl
@[simp] theorem loadTmr_busy (t : Nat) (s : State) : (loadTmr t s).busy = s.busy := by
  unfold loadTmr; split <;> rfl
@[simp] theorem loadTmr_rdy (t : Nat) (s : State) : (loadTmr t s).rdy = s.rdy := by
  unfold loadTmr; split <;> rfl
@[simp] theorem loadTmr_inited (t : Nat) (s : State) : (loadTmr t s).inited = s.inited := by
  unfold loadTmr; split <;> rfl
@[simp] theorem loadTmr_force (t : Nat) (s : State) : (loadTmr t s).force = s.force := by
  unfold loadTmr; split <;> rfl
@[simp] theorem loadTmr_size (t : Nat) (s : State) : (loadTmr t s).size = s.size := by
  unfold loadTmr; split <;> rfl
@[simp] theorem loadTmr_dir (t : Nat) (s : State) : (loadTmr t s).dir = s.dir := by
  unfold loadTmr; split <;> rfl
@[simp] theorem loadTmr_out (t : Nat) (s : State) : (loadTmr t s).out = s.out := by
  unfold loadTmr; split <;> rfl
@[simp] theorem loadTmr_rpt (t : Nat) (s : State) : (loadTmr t s).rpt = s.rpt := by
  unfold loadTmr; split <;> rfl
@[simp] theorem loadTmr_now (t : Nat) (s : State) : (loadTmr t s).now = s.now := by
  unfold loadTmr; split <;> rfl
@[simp] theorem loadTmr_evt (t : Nat) (s : State) : (loadTmr t s).evt = s.evt := by
  unfold loadTmr; split <;> rfl
@[simp] theorem loadTmr_params (t : Nat) (s : State) : (loadTmr t s).params = s.params := by
  unfold loadTmr; split <;> rfl
@[simp] theorem loadTmr_ports (t : Nat) (s : State) : (loadTmr t s).ports = s.ports := by
  unfold loadTmr; split <;> rfl
@[simp] theorem loadTmr_script (t : Nat) (s : State) : (loadTmr t s).script = s.script := by
  unfold loadTmr; split <;> rfl
@[simp] theorem loadTmr_draws (t : Nat) (s : State) : (loadTmr t s).draws = s.draws := by
  unfold loadTmr; split <;> rfl
@[simp] theorem loadTmr_pad (t : Nat) (s : State) : (loadTmr t s).pad = s.pad := by
  unfold loadTmr; split <;> rfl

/-! ### waitFor -/

@[simp] theorem waitFor_acc (t : Nat) (p : PhaseCode) (s : State) : (waitFor t p s).acc = s.acc := by
  unfold waitFor; split
  · simp
  · split <;> simp
@[simp] theorem waitFor_i (t : Nat) (p : PhaseCode) (s : State) : (waitFor t p s).i = s.i := by
  unfold waitFor; split
  · simp
  · split <;> simp
@[simp] theorem waitFor_bs (t : Nat) (p : PhaseCode) (s : State) : (waitFor t p s).bs = s.bs := by
  unfold waitFor; split
  · simp
  · split <;> simp
@[simp] theorem waitFor_busy (t : Nat) (p : PhaseCode) (s : State) : (waitFor t p s).busy = s.busy := by
  unfold waitFor; split
  · simp
  · split <;> simp
@[simp] theorem waitFor_rdy (t : Nat) (p : PhaseCode) (s : State) : (waitFor t p s).rdy = s.rdy := by
  unfold waitFor; split
  · simp
  · split <;> simp
@[simp] theorem waitFor_inited (t : Nat) (p : PhaseCode) (s : State) : (waitFor t p s).inited = s.inited := by
  unfold waitFor; split
  · simp
  · split <;> simp
@[simp] theorem waitFor_force (t : Nat) (p : PhaseCode) (s : State) : (waitFor t p s).force = s.force := by
  unfold waitFor; split
  · simp
  · split <;> simp
@[simp] theorem waitFor_size (t : Nat) (p : PhaseCode) (s : State) : (waitFor t p s).size = s.size := by
  unfold waitFor; split
  · simp
  · split <;> simp
@[simp] theorem waitFor_dir (t : Nat) (p : PhaseCode) (s : State) : (waitFor t p s).dir = s.dir := by
  unfold waitFor; split
  · simp
  · split <;> simp
@[simp] theorem waitFor_out (t : Nat) (p : PhaseCode) (s : State) : (waitFor t p s).out = s.out := by
  unfold waitFor; split
  · simp
  · split <;> simp
@[simp] theorem waitFor_rpt (t : Nat) (p : PhaseCode) (s : State) : (waitFor t p s).rpt = s.rpt := by
  unfold waitFor; split
  · simp
  · split <;> simp
@[simp] theorem waitFor_evt (t : Nat) (p : PhaseCode) (s : State) : (waitFor t p s).evt = s.evt := by
  unfold waitFor; split
  · simp
  · split <;> simp
@[simp] theorem waitFor_params (t : Nat) (p : PhaseCode) (s : State) : (waitFor t p s).params = s.params := by
  unfold waitFor; split
  · simp
  · split <;> simp
@[simp] theorem waitFor_ports (t : Nat) (p : PhaseCode) (s : State) : (waitFor t p s).ports = s.ports := by
  unfold waitFor; split
  · simp
  · split <;> simp
@[simp] theorem waitFor_script (t : Nat) (p : PhaseCode) (s : State) : (waitFor t p s).script = s.script := by
  unfold waitFor; split
  · simp
  · split <;> simp
@[simp] theorem waitFor_draws (t : Nat) (p : PhaseCode) (s : State) : (waitFor t p s).draws = s.draws := by
  unfold waitFor; split
  · simp
  · split <;> simp
@[simp] theorem waitFor_pad (t : Nat) (p : PhaseCode) (s : State) : (waitFor t p s).pad = s.pad := by
  unfold waitFor; split
  · simp
  · split <;> simp

/-! ### stallPeriod -/

@[simp] theorem stallPeriod_acc (s : State) : (stallPeriod s).acc = s.acc := rfl
@[simp] theorem stallPeriod_i (s : State) : (stallPeriod s).i = s.i := rfl
@[simp] theorem stallPeriod_bs (s : State) : (stallPeriod s).bs = s.bs := rfl
@[simp] theorem stallPeriod_upc (s : State) : (stallPeriod s).upc = s.upc := rfl
@[simp] theorem stallPeriod_busy (s : State) : (stallPeriod s).busy = s.busy := rfl
@[simp] theorem stallPeriod_rdy (s : State) : (stallPeriod s).rdy = s.rdy := rfl
@[simp] theorem stallPeriod_inited (s : State) : (stallPeriod s).inited = s.inited := rfl
@[simp] theorem stallPeriod_force (s : State) : (stallPeriod s).force = s.force := rfl
@[simp] theorem stallPeriod_size (s : State) : (stallPeriod s).size = s.size := rfl
@[simp] theorem stallPeriod_dir (s : State) : (stallPeriod s).dir = s.dir := rfl
@[simp] theorem stallPeriod_out (s : State) : (stallPeriod s).out = s.out := rfl
@[simp] theorem stallPeriod_tmr (s : State) : (stallPeriod s).tmr = s.tmr := rfl
@[simp] theorem stallPeriod_rpt (s : State) : (stallPeriod s).rpt = s.rpt := rfl
@[simp] theorem stallPeriod_evt (s : State) : (stallPeriod s).evt = s.evt := rfl
@[simp] theorem stallPeriod_params (s : State) : (stallPeriod s).params = s.params := rfl
@[simp] theorem stallPeriod_ports (s : State) : (stallPeriod s).ports = s.ports := rfl
@[simp] theorem stallPeriod_script (s : State) : (stallPeriod s).script = s.script := rfl
@[simp] theorem stallPeriod_draws (s : State) : (stallPeriod s).draws = s.draws := rfl
@[simp] theorem stallPeriod_pad (s : State) : (stallPeriod s).pad = s.pad := rfl

/-! ### pinWrite -/

@[simp] theorem pinWrite_acc (p : OutLine) (b : Level) (s : State) : (pinWrite p b s).acc = s.acc := by cases p <;> rfl
@[simp] theorem pinWrite_i (p : OutLine) (b : Level) (s : State) : (pinWrite p b s).i = s.i := by cases p <;> rfl
@[simp] theorem pinWrite_bs (p : OutLine) (b : Level) (s : State) : (pinWrite p b s).bs = s.bs := by cases p <;> rfl
@[simp] theorem pinWrite_upc (p : OutLine) (b : Level) (s : State) : (pinWrite p b s).upc = s.upc := by cases p <;> rfl
@[simp] theorem pinWrite_busy (p : OutLine) (b : Level) (s : State) : (pinWrite p b s).busy = s.busy := by cases p <;> rfl
@[simp] theorem pinWrite_rdy (p : OutLine) (b : Level) (s : State) : (pinWrite p b s).rdy = s.rdy := by cases p <;> rfl
@[simp] theorem pinWrite_inited (p : OutLine) (b : Level) (s : State) : (pinWrite p b s).inited = s.inited := by cases p <;> rfl
@[simp] theorem pinWrite_force (p : OutLine) (b : Level) (s : State) : (pinWrite p b s).force = s.force := by cases p <;> rfl
@[simp] theorem pinWrite_size (p : OutLine) (b : Level) (s : State) : (pinWrite p b s).size = s.size := by cases p <;> rfl
@[simp] theorem pinWrite_dir (p : OutLine) (b : Level) (s : State) : (pinWrite p b s).dir = s.dir := by cases p <;> rfl
@[simp] theorem pinWrite_tmr (p : OutLine) (b : Level) (s : State) : (pinWrite p b s).tmr = s.tmr := by cases p <;> rfl
@[simp] theorem pinWrite_rpt (p : OutLine) (b : Level) (s : State) : (pinWrite p b s).rpt = s.rpt := by cases p <;> rfl
@[simp] theorem pinWrite_now (p : OutLine) (b : Level) (s : State) : (pinWrite p b s).now = s.now := by cases p <;> rfl
@[simp] theorem pinWrite_evt (p : OutLine) (b : Level) (s : State) : (pinWrite p b s).evt = s.evt := by cases p <;> rfl
@[simp] theorem pinWrite_params (p : OutLine) (b : Level) (s : State) : (pinWrite p b s).params = s.params := by cases p <;> rfl
@[simp] theorem pinWrite_ports (p : OutLine) (b : Level) (s : State) : (pinWrite p b s).ports = s.ports := by cases p <;> rfl
@[simp] theorem pinWrite_script (p : OutLine) (b : Level) (s : State) : (pinWrite p b s).script = s.script := by cases p <;> rfl
@[simp] theorem pinWrite_draws (p : OutLine) (b : Level) (s : State) : (pinWrite p b s).draws = s.draws := by cases p <;> rfl
@[simp] theorem pinWrite_pad (p : OutLine) (b : Level) (s : State) : (pinWrite p b s).pad = s.pad := by cases p <;> rfl

/-! ### emit -/

@[simp] theorem emit_acc (e : Event) (s : State) : (emit e s).acc = s.acc := rfl
@[simp] theorem emit_i (e : Event) (s : State) : (emit e s).i = s.i := rfl
@[simp] theorem emit_bs (e : Event) (s : State) : (emit e s).bs = s.bs := rfl
@[simp] theorem emit_upc (e : Event) (s : State) : (emit e s).upc = s.upc := rfl
@[simp] theorem emit_busy (e : Event) (s : State) : (emit e s).busy = s.busy := rfl
@[simp] theorem emit_rdy (e : Event) (s : State) : (emit e s).rdy = s.rdy := rfl
@[simp] theorem emit_inited (e : Event) (s : State) : (emit e s).inited = s.inited := rfl
@[simp] theorem emit_force (e : Event) (s : State) : (emit e s).force = s.force := rfl
@[simp] theorem emit_size (e : Event) (s : State) : (emit e s).size = s.size := rfl
@[simp] theorem emit_dir (e : Event) (s : State) : (emit e s).dir = s.dir := rfl
@[simp] theorem emit_out (e : Event) (s : State) : (emit e s).out = s.out := rfl
@[simp] theorem emit_tmr (e : Event) (s : State) : (emit e s).tmr = s.tmr := rfl
@[simp] theorem emit_rpt (e : Event) (s : State) : (emit e s).rpt = s.rpt := rfl
@[simp] theorem emit_now (e : Event) (s : State) : (emit e s).now = s.now := rfl
@[simp] theorem emit_evt (e : Event) (s : State) : (emit e s).evt = s.evt ++ [(e, s.now)] := rfl
@[simp] theorem emit_params (e : Event) (s : State) : (emit e s).params = s.params := rfl
@[simp] theorem emit_ports (e : Event) (s : State) : (emit e s).ports = s.ports := rfl
@[simp] theorem emit_script (e : Event) (s : State) : (emit e s).script = s.script := rfl
@[simp] theorem emit_draws (e : Event) (s : State) : (emit e s).draws = s.draws := rfl
@[simp] theorem emit_pad (e : Event) (s : State) : (emit e s).pad = s.pad := rfl

/-! ### jump -/

@[simp] theorem jump_acc (p : PhaseCode) (s : State) : (jump p s).acc = s.acc := rfl
@[simp] theorem jump_i (p : PhaseCode) (s : State) : (jump p s).i = s.i := rfl
@[simp] theorem jump_bs (p : PhaseCode) (s : State) : (jump p s).bs = s.bs := rfl
@[simp] theorem jump_upc (p : PhaseCode) (s : State) : (jump p s).upc = p := rfl
@[simp] theorem jump_busy (p : PhaseCode) (s : State) : (jump p s).busy = s.busy := rfl
@[simp] theorem jump_rdy (p : PhaseCode) (s : State) : (jump p s).rdy = s.rdy := rfl
@[simp] theorem jump_inited (p : PhaseCode) (s : State) : (jump p s).inited = s.inited := rfl
@[simp] theorem jump_force (p : PhaseCode) (s : State) : (jump p s).force = s.force := rfl
@[simp] theorem jump_size (p : PhaseCode) (s : State) : (jump p s).size = s.size := rfl
@[simp] theorem jump_dir (p : PhaseCode) (s : State) : (jump p s).dir = s.dir := rfl
@[simp] theorem jump_out (p : PhaseCode) (s : State) : (jump p s).out = s.out := rfl
@[simp] theorem jump_tmr (p : PhaseCode) (s : State) : (jump p s).tmr = s.tmr := rfl
@[simp] theorem jump_rpt (p : PhaseCode) (s : State) : (jump p s).rpt = s.rpt := rfl
@[simp] theorem jump_now (p : PhaseCode) (s : State) : (jump p s).now = s.now := rfl
@[simp] theorem jump_evt (p : PhaseCode) (s : State) : (jump p s).evt = s.evt := rfl
@[simp] theorem jump_params (p : PhaseCode) (s : State) : (jump p s).params = s.params := rfl
@[simp] theorem jump_ports (p : PhaseCode) (s : State) : (jump p s).ports = s.ports := rfl
@[simp] theorem jump_script (p : PhaseCode) (s : State) : (jump p s).script = s.script := rfl
@[simp] theorem jump_draws (p : PhaseCode) (s : State) : (jump p s).draws = s.draws := rfl
@[simp] theorem jump_pad (p : PhaseCode) (s : State) : (jump p s).pad = s.pad := rfl

/-! ### configureLines -/

@[simp] theorem configureLines_acc (s : State) : (configureLines s).acc = s.acc := rfl
@[simp] theorem configureLines_i (s : State) : (configureLines s).i = s.i := rfl
@[simp] theorem configureLines_bs (s : State) : (configureLines s).bs = s.bs := rfl
@[simp] theorem configureLines_upc (s : State) : (configureLines s).upc = s.upc := rfl
@[simp] theorem configureLines_busy (s : State) : (configureLines s).busy = s.busy := rfl
@[simp] theorem configureLines_rdy (s : State) : (configureLines s).rdy = s.rdy := rfl
@[simp] theorem configureLines_inited (s : State) : (configureLines s).inited = s.inited := rfl
@[simp] theorem configureLines_force (s : State) : (configureLines s).force = s.force := rfl
@[simp] theorem configureLines_size (s : State) : (configureLines s).size = s.size := rfl
@[simp] theorem configureLines_dir (s : State) : (configureLines s).dir = ⟨true, true, false, false, false⟩ := rfl
@[simp] theorem configureLines_out (s : State) : (configureLines s).out = s.out := rfl
@[simp] theorem configureLines_tmr (s : State) : (configureLines s).tmr = s.tmr := rfl
@[simp] theorem configureLines_rpt (s : State) : (configureLines s).rpt = s.rpt := rfl
@[simp] theorem configureLines_now (s : State) : (configureLines s).now = s.now := rfl
@[simp] theorem configureLines_evt (s : State) : (configureLines s).evt = s.evt := rfl
@[simp] theorem configureLines_params (s : State) : (configureLines s).params = s.params := rfl
@[simp] theorem configureLines_ports (s : State) : (configureLines s).ports = s.ports := rfl
@[simp] theorem configureLines_script (s : State) : (configureLines s).script = s.script := rfl
@[simp] theorem configureLines_draws (s : State) : (configureLines s).draws = s.draws := rfl
@[simp] theorem configureLines_pad (s : State) : (configureLines s).pad = s.pad := rfl

/-! ### nextInput -/

@[simp] theorem nextInput_acc (s : State) : (nextInput s).acc = s.acc := rfl
@[simp] theorem nextInput_i (s : State) : (nextInput s).i = s.i := rfl
@[simp] theorem nextInput_bs (s : State) : (nextInput s).bs = s.bs := rfl
@[simp] theorem nextInput_upc (s : State) : (nextInput s).upc = s.upc := rfl
@[simp] theorem nextInput_busy (s : State) : (nextInput s).busy = s.busy := rfl
@[simp] theorem nextInput_rdy (s : State) : (nextInput s).rdy = s.rdy := rfl
@[simp] theorem nextInput_inited (s : State) : (nextInput s).inited = s.inited := rfl
@[simp] theorem nextInput_force (s : State) : (nextInput s).force = s.force := rfl
@[simp] theorem nextInput_size (s : State) : (nextInput s).size = s.size := rfl
@[simp] theorem nextInput_dir (s : State) : (nextInput s).dir = s.dir := rfl
@[simp] theorem nextInput_out (s : State) : (nextInput s).out = s.out := rfl
@[simp] theorem nextInput_tmr (s : State) : (nextInput s).tmr = s.tmr := rfl
@[simp] theorem nextInput_rpt (s : State) : (nextInput s).rpt = s.rpt := rfl
@[simp] theorem nextInput_now (s : State) : (nextInput s).now = s.now := rfl
@[simp] theorem nextInput_evt (s : State) : (nextInput s).evt = s.evt := rfl
@[simp] theorem nextInput_params (s : State) : (nextInput s).params = s.params := rfl
@[simp] theorem nextInput_ports (s : State) : (nextInput s).ports = s.script.headD Input.quiet := rfl
@[simp] theorem nextInput_script (s : State) : (nextInput s).script = s.script.tail := rfl
@[simp] theorem nextInput_draws (s : State) : (nextInput s).draws = s.draws := rfl
@[simp] theorem nextInput_pad (s : State) : (nextInput s).pad = s.pad := rfl

/-! ### endStep -/

@[simp] theorem endStep_acc (before s : State) : (endStep before s).acc = s.acc := rfl
@[simp] theorem endStep_i (before s : State) : (endStep before s).i = s.i := rfl
@[simp] theorem endStep_bs (before s : State) : (endStep before s).bs = s.bs := rfl
@[simp] theorem endStep_upc (before s : State) : (endStep before s).upc = s.upc := rfl
@[simp] theorem endStep_busy (before s : State) : (endStep before s).busy = s.busy := rfl
@[simp] theorem endStep_rdy (before s : State) : (endStep before s).rdy = s.rdy := rfl
@[simp] theorem endStep_inited (before s : State) : (endStep before s).inited = s.inited := rfl
@[simp] theorem endStep_force (before s : State) : (endStep before s).force = s.force := rfl
@[simp] theorem endStep_size (before s : State) : (endStep before s).size = s.size := rfl
@[simp] theorem endStep_dir (before s : State) : (endStep before s).dir = s.dir := rfl
@[simp] theorem endStep_out (before s : State) : (endStep before s).out = s.out := rfl
@[simp] theorem endStep_tmr (before s : State) : (endStep before s).tmr = s.tmr := rfl
@[simp] theorem endStep_rpt (before s : State) : (endStep before s).rpt = s.rpt := rfl
@[simp] theorem endStep_now (before s : State) : (endStep before s).now = s.now := rfl
@[simp] theorem endStep_evt (before s : State) : (endStep before s).evt = s.evt := rfl
@[simp] theorem endStep_params (before s : State) : (endStep before s).params = s.params := rfl
@[simp] theorem endStep_ports (before s : State) : (endStep before s).ports = s.script.headD Input.quiet := rfl
@[simp] theorem endStep_script (before s : State) : (endStep before s).script = s.script.tail := rfl
@[simp] theorem endStep_draws (before s : State) : (endStep before s).draws = s.draws := rfl
@[simp] theorem endStep_pad (before s : State) : (endStep before s).pad = padAfter before s := rfl

/-! ### zeroReport -/

@[simp] theorem zeroReport_acc (s : State) : (zeroReport s).acc = s.acc := rfl
@[simp] theorem zeroReport_i (s : State) : (zeroReport s).i = s.i := rfl
@[simp] theorem zeroReport_bs (s : State) : (zeroReport s).bs = s.bs := rfl
@[simp] theorem zeroReport_upc (s : State) : (zeroReport s).upc = s.upc := rfl
@[simp] theorem zeroReport_busy (s : State) : (zeroReport s).busy = s.busy := rfl
@[simp] theorem zeroReport_rdy (s : State) : (zeroReport s).rdy = s.rdy := rfl
@[simp] theorem zeroReport_inited (s : State) : (zeroReport s).inited = s.inited := rfl
@[simp] theorem zeroReport_force (s : State) : (zeroReport s).force = s.force := rfl
@[simp] theorem zeroReport_size (s : State) : (zeroReport s).size = s.size := rfl
@[simp] theorem zeroReport_dir (s : State) : (zeroReport s).dir = s.dir := rfl
@[simp] theorem zeroReport_out (s : State) : (zeroReport s).out = s.out := rfl
@[simp] theorem zeroReport_tmr (s : State) : (zeroReport s).tmr = s.tmr := rfl
@[simp] theorem zeroReport_rpt (s : State) : (zeroReport s).rpt = Memory.zeroBelow s.params.reportBytes s.rpt := rfl
@[simp] theorem zeroReport_now (s : State) : (zeroReport s).now = s.now := rfl
@[simp] theorem zeroReport_evt (s : State) : (zeroReport s).evt = s.evt := rfl
@[simp] theorem zeroReport_params (s : State) : (zeroReport s).params = s.params := rfl
@[simp] theorem zeroReport_ports (s : State) : (zeroReport s).ports = s.ports := rfl
@[simp] theorem zeroReport_script (s : State) : (zeroReport s).script = s.script := rfl
@[simp] theorem zeroReport_draws (s : State) : (zeroReport s).draws = s.draws := rfl
@[simp] theorem zeroReport_pad (s : State) : (zeroReport s).pad = s.pad := rfl

/-! ### storeBit -/

@[simp] theorem storeBit_acc (b : Bool) (s : State) : (storeBit b s).acc = if b then s.acc ||| sampleMask s.i else s.acc &&& ~~~(sampleMask s.i) := rfl
@[simp] theorem storeBit_i (b : Bool) (s : State) : (storeBit b s).i = s.i := rfl
@[simp] theorem storeBit_bs (b : Bool) (s : State) : (storeBit b s).bs = s.bs := rfl
@[simp] theorem storeBit_upc (b : Bool) (s : State) : (storeBit b s).upc = s.upc := rfl
@[simp] theorem storeBit_busy (b : Bool) (s : State) : (storeBit b s).busy = s.busy := rfl
@[simp] theorem storeBit_rdy (b : Bool) (s : State) : (storeBit b s).rdy = s.rdy := rfl
@[simp] theorem storeBit_inited (b : Bool) (s : State) : (storeBit b s).inited = s.inited := rfl
@[simp] theorem storeBit_force (b : Bool) (s : State) : (storeBit b s).force = s.force := rfl
@[simp] theorem storeBit_size (b : Bool) (s : State) : (storeBit b s).size = s.size := rfl
@[simp] theorem storeBit_dir (b : Bool) (s : State) : (storeBit b s).dir = s.dir := rfl
@[simp] theorem storeBit_out (b : Bool) (s : State) : (storeBit b s).out = s.out := rfl
@[simp] theorem storeBit_tmr (b : Bool) (s : State) : (storeBit b s).tmr = s.tmr := rfl
@[simp] theorem storeBit_rpt (b : Bool) (s : State) : (storeBit b s).rpt = s.rpt := rfl
@[simp] theorem storeBit_now (b : Bool) (s : State) : (storeBit b s).now = s.now := rfl
@[simp] theorem storeBit_evt (b : Bool) (s : State) : (storeBit b s).evt = s.evt := rfl
@[simp] theorem storeBit_params (b : Bool) (s : State) : (storeBit b s).params = s.params := rfl
@[simp] theorem storeBit_ports (b : Bool) (s : State) : (storeBit b s).ports = s.ports := rfl
@[simp] theorem storeBit_script (b : Bool) (s : State) : (storeBit b s).script = s.script := rfl
@[simp] theorem storeBit_draws (b : Bool) (s : State) : (storeBit b s).draws = s.draws := rfl
@[simp] theorem storeBit_pad (b : Bool) (s : State) : (storeBit b s).pad = s.pad := rfl

/-! ### startOperation -/

@[simp] theorem startOperation_acc (s : State) : (startOperation s).acc = s.acc := rfl
@[simp] theorem startOperation_i (s : State) : (startOperation s).i = s.i := rfl
@[simp] theorem startOperation_bs (s : State) : (startOperation s).bs = s.bs := rfl
@[simp] theorem startOperation_upc (s : State) : (startOperation s).upc = s.upc := rfl
@[simp] theorem startOperation_busy (s : State) : (startOperation s).busy = true := rfl
@[simp] theorem startOperation_rdy (s : State) : (startOperation s).rdy = false := rfl
@[simp] theorem startOperation_inited (s : State) : (startOperation s).inited = s.inited := rfl
@[simp] theorem startOperation_force (s : State) : (startOperation s).force = s.force := rfl
@[simp] theorem startOperation_size (s : State) : (startOperation s).size = s.size := rfl
@[simp] theorem startOperation_dir (s : State) : (startOperation s).dir = s.dir := rfl
@[simp] theorem startOperation_out (s : State) : (startOperation s).out = s.out := rfl
@[simp] theorem startOperation_tmr (s : State) : (startOperation s).tmr = s.tmr := rfl
@[simp] theorem startOperation_rpt (s : State) : (startOperation s).rpt = s.rpt := rfl
@[simp] theorem startOperation_now (s : State) : (startOperation s).now = s.now := rfl
@[simp] theorem startOperation_evt (s : State) : (startOperation s).evt = s.evt := rfl
@[simp] theorem startOperation_params (s : State) : (startOperation s).params = s.params := rfl
@[simp] theorem startOperation_ports (s : State) : (startOperation s).ports = s.ports := rfl
@[simp] theorem startOperation_script (s : State) : (startOperation s).script = s.script := rfl
@[simp] theorem startOperation_draws (s : State) : (startOperation s).draws = s.draws := rfl
@[simp] theorem startOperation_pad (s : State) : (startOperation s).pad = s.pad := rfl

/-! ### endOperation -/

@[simp] theorem endOperation_acc (s : State) : (endOperation s).acc = s.acc := rfl
@[simp] theorem endOperation_i (s : State) : (endOperation s).i = s.i := rfl
@[simp] theorem endOperation_bs (s : State) : (endOperation s).bs = s.bs := rfl
@[simp] theorem endOperation_upc (s : State) : (endOperation s).upc = s.upc := rfl
@[simp] theorem endOperation_busy (s : State) : (endOperation s).busy = false := rfl
@[simp] theorem endOperation_rdy (s : State) : (endOperation s).rdy = true := rfl
@[simp] theorem endOperation_inited (s : State) : (endOperation s).inited = s.inited := rfl
@[simp] theorem endOperation_force (s : State) : (endOperation s).force = s.force := rfl
@[simp] theorem endOperation_size (s : State) : (endOperation s).size = s.size := rfl
@[simp] theorem endOperation_dir (s : State) : (endOperation s).dir = s.dir := rfl
@[simp] theorem endOperation_out (s : State) : (endOperation s).out = s.out := rfl
@[simp] theorem endOperation_tmr (s : State) : (endOperation s).tmr = s.tmr := rfl
@[simp] theorem endOperation_rpt (s : State) : (endOperation s).rpt = s.rpt := rfl
@[simp] theorem endOperation_now (s : State) : (endOperation s).now = s.now := rfl
@[simp] theorem endOperation_evt (s : State) : (endOperation s).evt = s.evt := rfl
@[simp] theorem endOperation_params (s : State) : (endOperation s).params = s.params := rfl
@[simp] theorem endOperation_ports (s : State) : (endOperation s).ports = s.ports := rfl
@[simp] theorem endOperation_script (s : State) : (endOperation s).script = s.script := rfl
@[simp] theorem endOperation_draws (s : State) : (endOperation s).draws = s.draws := rfl
@[simp] theorem endOperation_pad (s : State) : (endOperation s).pad = s.pad := rfl

/-! ### markInited -/

@[simp] theorem markInited_acc (s : State) : (markInited s).acc = s.acc := rfl
@[simp] theorem markInited_i (s : State) : (markInited s).i = s.i := rfl
@[simp] theorem markInited_bs (s : State) : (markInited s).bs = s.bs := rfl
@[simp] theorem markInited_upc (s : State) : (markInited s).upc = s.upc := rfl
@[simp] theorem markInited_busy (s : State) : (markInited s).busy = s.busy := rfl
@[simp] theorem markInited_rdy (s : State) : (markInited s).rdy = s.rdy := rfl
@[simp] theorem markInited_inited (s : State) : (markInited s).inited = true := rfl
@[simp] theorem markInited_force (s : State) : (markInited s).force = s.force := rfl
@[simp] theorem markInited_size (s : State) : (markInited s).size = s.size := rfl
@[simp] theorem markInited_dir (s : State) : (markInited s).dir = s.dir := rfl
@[simp] theorem markInited_out (s : State) : (markInited s).out = s.out := rfl
@[simp] theorem markInited_tmr (s : State) : (markInited s).tmr = s.tmr := rfl
@[simp] theorem markInited_rpt (s : State) : (markInited s).rpt = s.rpt := rfl
@[simp] theorem markInited_now (s : State) : (markInited s).now = s.now := rfl
@[simp] theorem markInited_evt (s : State) : (markInited s).evt = s.evt := rfl
@[simp] theorem markInited_params (s : State) : (markInited s).params = s.params := rfl
@[simp] theorem markInited_ports (s : State) : (markInited s).ports = s.ports := rfl
@[simp] theorem markInited_script (s : State) : (markInited s).script = s.script := rfl
@[simp] theorem markInited_draws (s : State) : (markInited s).draws = s.draws := rfl
@[simp] theorem markInited_pad (s : State) : (markInited s).pad = s.pad := rfl

/-! ### writeForce -/

@[simp] theorem writeForce_acc (b : Bool) (s : State) : (writeForce b s).acc = s.acc := rfl
@[simp] theorem writeForce_i (b : Bool) (s : State) : (writeForce b s).i = s.i := rfl
@[simp] theorem writeForce_bs (b : Bool) (s : State) : (writeForce b s).bs = s.bs := rfl
@[simp] theorem writeForce_upc (b : Bool) (s : State) : (writeForce b s).upc = s.upc := rfl
@[simp] theorem writeForce_busy (b : Bool) (s : State) : (writeForce b s).busy = s.busy := rfl
@[simp] theorem writeForce_rdy (b : Bool) (s : State) : (writeForce b s).rdy = s.rdy := rfl
@[simp] theorem writeForce_inited (b : Bool) (s : State) : (writeForce b s).inited = s.inited := rfl
@[simp] theorem writeForce_force (b : Bool) (s : State) : (writeForce b s).force = false := rfl
@[simp] theorem writeForce_size (b : Bool) (s : State) : (writeForce b s).size = s.size := rfl
@[simp] theorem writeForce_dir (b : Bool) (s : State) : (writeForce b s).dir = s.dir := rfl
@[simp] theorem writeForce_out (b : Bool) (s : State) : (writeForce b s).out = s.out := rfl
@[simp] theorem writeForce_tmr (b : Bool) (s : State) : (writeForce b s).tmr = s.tmr := rfl
@[simp] theorem writeForce_rpt (b : Bool) (s : State) : (writeForce b s).rpt = s.rpt := rfl
@[simp] theorem writeForce_now (b : Bool) (s : State) : (writeForce b s).now = s.now := rfl
@[simp] theorem writeForce_evt (b : Bool) (s : State) : (writeForce b s).evt = s.evt := rfl
@[simp] theorem writeForce_params (b : Bool) (s : State) : (writeForce b s).params = s.params := rfl
@[simp] theorem writeForce_ports (b : Bool) (s : State) : (writeForce b s).ports = s.ports := rfl
@[simp] theorem writeForce_script (b : Bool) (s : State) : (writeForce b s).script = s.script := rfl
@[simp] theorem writeForce_draws (b : Bool) (s : State) : (writeForce b s).draws = s.draws := rfl
@[simp] theorem writeForce_pad (b : Bool) (s : State) : (writeForce b s).pad = s.pad := rfl

/-! ### writeSize -/

@[simp] theorem writeSize_acc (v : BitVec 16) (s : State) : (writeSize v s).acc = s.acc := rfl
@[simp] theorem writeSize_i (v : BitVec 16) (s : State) : (writeSize v s).i = s.i := rfl
@[simp] theorem writeSize_bs (v : BitVec 16) (s : State) : (writeSize v s).bs = s.bs := rfl
@[simp] theorem writeSize_upc (v : BitVec 16) (s : State) : (writeSize v s).upc = s.upc := rfl
@[simp] theorem writeSize_busy (v : BitVec 16) (s : State) : (writeSize v s).busy = s.busy := rfl
@[simp] theorem writeSize_rdy (v : BitVec 16) (s : State) : (writeSize v s).rdy = s.rdy := rfl
@[simp] theorem writeSize_inited (v : BitVec 16) (s : State) : (writeSize v s).inited = s.inited := rfl
@[simp] theorem writeSize_force (v : BitVec 16) (s : State) : (writeSize v s).force = s.force := rfl
@[simp] theorem writeSize_size (v : BitVec 16) (s : State) : (writeSize v s).size = v := rfl
@[simp] theorem writeSize_dir (v : BitVec 16) (s : State) : (writeSize v s).dir = s.dir := rfl
@[simp] theorem writeSize_out (v : BitVec 16) (s : State) : (writeSize v s).out = s.out := rfl
@[simp] theorem writeSize_tmr (v : BitVec 16) (s : State) : (writeSize v s).tmr = s.tmr := rfl
@[simp] theorem writeSize_rpt (v : BitVec 16) (s : State) : (writeSize v s).rpt = s.rpt := rfl
@[simp] theorem writeSize_now (v : BitVec 16) (s : State) : (writeSize v s).now = s.now := rfl
@[simp] theorem writeSize_evt (v : BitVec 16) (s : State) : (writeSize v s).evt = s.evt := rfl
@[simp] theorem writeSize_params (v : BitVec 16) (s : State) : (writeSize v s).params = s.params := rfl
@[simp] theorem writeSize_ports (v : BitVec 16) (s : State) : (writeSize v s).ports = s.ports := rfl
@[simp] theorem writeSize_script (v : BitVec 16) (s : State) : (writeSize v s).script = s.script := rfl
@[simp] theorem writeSize_draws (v : BitVec 16) (s : State) : (writeSize v s).draws = s.draws := rfl
@[simp] theorem writeSize_pad (v : BitVec 16) (s : State) : (writeSize v s).pad = s.pad := rfl

/-! ### pinRead: what it changes is the draw counter only -/

theorem freeDraw_snd (s : State) : (freeDraw s).2 = { s with draws := s.draws + 1 } := rfl

/-- Reading DATA leaves the state as it is, or moves the draw counter on by one. -/
theorem pinRead_snd (s : State) : (pinRead s).2 = s ∨ (pinRead s).2 = { s with draws := s.draws + 1 } := by
  unfold pinRead
  split
  · exact .inl rfl
  · split
    · exact .inl rfl
    · exact .inr rfl
  · split
    · exact .inl rfl
    · exact .inr rfl
  · exact .inr rfl

@[simp] theorem pinRead_acc (s : State) : (pinRead s).2.acc = s.acc := by
  rcases pinRead_snd s with h | h <;> rw [h]
@[simp] theorem pinRead_i (s : State) : (pinRead s).2.i = s.i := by
  rcases pinRead_snd s with h | h <;> rw [h]
@[simp] theorem pinRead_bs (s : State) : (pinRead s).2.bs = s.bs := by
  rcases pinRead_snd s with h | h <;> rw [h]
@[simp] theorem pinRead_upc (s : State) : (pinRead s).2.upc = s.upc := by
  rcases pinRead_snd s with h | h <;> rw [h]
@[simp] theorem pinRead_busy (s : State) : (pinRead s).2.busy = s.busy := by
  rcases pinRead_snd s with h | h <;> rw [h]
@[simp] theorem pinRead_rdy (s : State) : (pinRead s).2.rdy = s.rdy := by
  rcases pinRead_snd s with h | h <;> rw [h]
@[simp] theorem pinRead_inited (s : State) : (pinRead s).2.inited = s.inited := by
  rcases pinRead_snd s with h | h <;> rw [h]
@[simp] theorem pinRead_force (s : State) : (pinRead s).2.force = s.force := by
  rcases pinRead_snd s with h | h <;> rw [h]
@[simp] theorem pinRead_size (s : State) : (pinRead s).2.size = s.size := by
  rcases pinRead_snd s with h | h <;> rw [h]
@[simp] theorem pinRead_dir (s : State) : (pinRead s).2.dir = s.dir := by
  rcases pinRead_snd s with h | h <;> rw [h]
@[simp] theorem pinRead_out (s : State) : (pinRead s).2.out = s.out := by
  rcases pinRead_snd s with h | h <;> rw [h]
@[simp] theorem pinRead_tmr (s : State) : (pinRead s).2.tmr = s.tmr := by
  rcases pinRead_snd s with h | h <;> rw [h]
@[simp] theorem pinRead_rpt (s : State) : (pinRead s).2.rpt = s.rpt := by
  rcases pinRead_snd s with h | h <;> rw [h]
@[simp] theorem pinRead_now (s : State) : (pinRead s).2.now = s.now := by
  rcases pinRead_snd s with h | h <;> rw [h]
@[simp] theorem pinRead_evt (s : State) : (pinRead s).2.evt = s.evt := by
  rcases pinRead_snd s with h | h <;> rw [h]
@[simp] theorem pinRead_params (s : State) : (pinRead s).2.params = s.params := by
  rcases pinRead_snd s with h | h <;> rw [h]
@[simp] theorem pinRead_ports (s : State) : (pinRead s).2.ports = s.ports := by
  rcases pinRead_snd s with h | h <;> rw [h]
@[simp] theorem pinRead_script (s : State) : (pinRead s).2.script = s.script := by
  rcases pinRead_snd s with h | h <;> rw [h]
@[simp] theorem pinRead_pad (s : State) : (pinRead s).2.pad = s.pad := by
  rcases pinRead_snd s with h | h <;> rw [h]

/-! ### resetBlock -/

@[simp] theorem resetBlock_params (s : State) : (resetBlock s).params = s.params := rfl
@[simp] theorem resetBlock_ports (s : State) : (resetBlock s).ports = s.ports := rfl
@[simp] theorem resetBlock_script (s : State) : (resetBlock s).script = s.script := rfl
@[simp] theorem resetBlock_draws (s : State) : (resetBlock s).draws = s.draws := rfl
@[simp] theorem resetBlock_pad (s : State) : (resetBlock s).pad = s.pad := rfl

@[simp] theorem resetBlock_acc (s : State) : (resetBlock s).acc = State.reset.acc := rfl
@[simp] theorem resetBlock_i (s : State) : (resetBlock s).i = State.reset.i := rfl
@[simp] theorem resetBlock_bs (s : State) : (resetBlock s).bs = State.reset.bs := rfl
@[simp] theorem resetBlock_upc (s : State) : (resetBlock s).upc = State.reset.upc := rfl
@[simp] theorem resetBlock_busy (s : State) : (resetBlock s).busy = State.reset.busy := rfl
@[simp] theorem resetBlock_rdy (s : State) : (resetBlock s).rdy = State.reset.rdy := rfl
@[simp] theorem resetBlock_inited (s : State) : (resetBlock s).inited = State.reset.inited := rfl
@[simp] theorem resetBlock_force (s : State) : (resetBlock s).force = State.reset.force := rfl
@[simp] theorem resetBlock_size (s : State) : (resetBlock s).size = State.reset.size := rfl
@[simp] theorem resetBlock_dir (s : State) : (resetBlock s).dir = State.reset.dir := rfl
@[simp] theorem resetBlock_out (s : State) : (resetBlock s).out = State.reset.out := rfl
@[simp] theorem resetBlock_tmr (s : State) : (resetBlock s).tmr = State.reset.tmr := rfl
@[simp] theorem resetBlock_rpt (s : State) : (resetBlock s).rpt = State.reset.rpt := rfl
@[simp] theorem resetBlock_now (s : State) : (resetBlock s).now = State.reset.now := rfl
@[simp] theorem resetBlock_evt (s : State) : (resetBlock s).evt = State.reset.evt := rfl

end Sys2Proof.Machine
end

