-- ==== Sys2Proof/Laws/Ops.lean ====
section
/-!
SUPPORT. One lemma for each shared operation that says once what it can do: time, the waits, the
operands of SAMPLE, DECODE and PACK, the report space.
-/

namespace Sys2Proof.Machine

/-! ## Time -/

theorem Delay_nonneg (d : Delay) : 0 ≤ d.toTime := by
  unfold Delay.toTime
  positivity

theorem period_nonneg (f : Nat) : 0 ≤ period f := by
  unfold period
  positivity

/-- What `elapse` changes is `NOW` alone. -/
theorem elapse_eq (t : Nat) (s : State) : elapse t s = { s with now := (elapse t s).now } := by
  unfold elapse
  split <;> rfl

theorem elapse_now_step {s : State} (t : Nat) (h : s.params.fClkHz = none) :
    (elapse t s).now = s.now + (t : Time) + s.ports.extra.toTime := by
  unfold elapse
  rw [h]

theorem elapse_now_tick {s : State} {f : Nat} (t : Nat) (h : s.params.fClkHz = some f) :
    (elapse t s).now = s.now + period f := by
  unfold elapse
  rw [h]

/-- `NOW` never decreases (R148). -/
theorem le_elapse_now (t : Nat) (s : State) : s.now ≤ (elapse t s).now := by
  cases h : s.params.fClkHz with
  | none =>
    rw [elapse_now_step t h]
    have h1 := Delay_nonneg s.ports.extra
    have h2 : (0 : Time) ≤ (t : Time) := by positivity
    linarith
  | some f =>
    rw [elapse_now_tick t h]
    have h1 := period_nonneg f
    linarith

/-- At step level a step that waits for `t` comes at least `t` later (R145). -/
theorem add_le_elapse_now {s : State} (t : Nat) (h : s.params.fClkHz = none) :
    s.now + (t : Time) ≤ (elapse t s).now := by
  rw [elapse_now_step t h]
  have h1 := Delay_nonneg s.ports.extra
  linarith

/-- `N_x` is the least number of ticks that covers `T_x` (R156). -/
theorem le_tickCount_mul (t f : Nat) : t * f ≤ tickCount t f * 1000000 := by
  unfold tickCount
  omega

theorem tickCount_mul_lt (t f : Nat) : tickCount t f * 1000000 < t * f + 1000000 := by
  unfold tickCount
  omega

/-- `N_x` is the ceiling R156 writes. -/
theorem tickCount_eq_ceil (t f : Nat) : tickCount t f = ⌈((t * f : Nat) : Rat) / 1000000⌉₊ := by
  have h1 := le_tickCount_mul t f
  have h2 := tickCount_mul_lt t f
  apply le_antisymm
  · by_contra hlt
    have h3 : ((t * f : Nat) : Rat) / 1000000 ≤ ((⌈((t * f : Nat) : Rat) / 1000000⌉₊ : Nat) : Rat) :=
      Nat.le_ceil _
    rw [div_le_iff₀ (by norm_num)] at h3
    have h4 : t * f ≤ ⌈((t * f : Nat) : Rat) / 1000000⌉₊ * 1000000 := by exact_mod_cast h3
    omega
  · apply Nat.ceil_le.2
    rw [div_le_iff₀ (by norm_num)]
    exact_mod_cast h1

theorem tickCount_pos {t f : Nat} (ht : 1 ≤ t) (hf : 1 ≤ f) : 1 ≤ tickCount t f := by
  have h : 1 ≤ t * f := Nat.mul_le_mul ht hf
  unfold tickCount
  omega

/-- The ticks of a wait last at least as long as the wait (R156). -/
theorem le_tickCount_period (t : Nat) {f : Nat} (hf : 1 ≤ f) :
    (t : Time) ≤ (tickCount t f : Time) * period f := by
  have h : (t : Time) * (f : Time) ≤ (tickCount t f : Time) * 1000000 := by
    exact_mod_cast le_tickCount_mul t f
  have hf' : (0 : Time) < (f : Time) := by exact_mod_cast hf
  unfold period
  rw [← mul_div_assoc, le_div_iff₀ hf']
  exact h

/-- The shared body of the waits at step level. -/
theorem waitFor_step {s : State} (t : Nat) (p : PhaseCode) (h : s.params.fClkHz = none) :
    waitFor t p s = { s with upc := p, now := s.now + (t : Time) + s.ports.extra.toTime } := by
  unfold waitFor elapse
  rw [h]

/-- The shared body of the waits at tick level while more than one tick is left. -/
theorem waitFor_count {s : State} {f : Nat} (t : Nat) (p : PhaseCode)
    (h : s.params.fClkHz = some f) (ht : 1 < s.tmr) :
    waitFor t p s = { s with tmr := s.tmr - 1, now := s.now + period f } := by
  unfold waitFor elapse
  rw [h]
  simp [ht]

/-- The shared body of the waits at tick level in the last tick. -/
theorem waitFor_last {s : State} {f : Nat} (t : Nat) (p : PhaseCode)
    (h : s.params.fClkHz = some f) (ht : ¬1 < s.tmr) :
    waitFor t p s = { s with tmr := 0, upc := p, now := s.now + period f } := by
  unfold waitFor elapse
  rw [h]
  simp [ht]

theorem loadTmr_step {s : State} (t : Nat) (h : s.params.fClkHz = none) : loadTmr t s = s := by
  unfold loadTmr
  rw [h]

theorem loadTmr_tick {s : State} {f : Nat} (t : Nat) (h : s.params.fClkHz = some f) :
    loadTmr t s = { s with tmr := tickCount t f } := by
  unfold loadTmr
  rw [h]

/-! ## Traces -/

@[simp] theorem minimaHold_nil : minimaHold [] = true := rfl

@[simp] theorem minimaHold_single (x : Stamped) : minimaHold [x] = true := rfl

@[simp] theorem minimaHold_cons_cons (x y : Stamped) (l : List Stamped) :
    minimaHold (x :: y :: l) = (decide (x.2 + (minGap x.1 y.1 : Time) ≤ y.2) && minimaHold (y :: l)) :=
  rfl

/-- Appending one event to a trace asks one inequality more, against the event that was last. -/
theorem minimaHold_append_one (l : List Stamped) (y : Stamped) :
    minimaHold (l ++ [y]) = true ↔
      minimaHold l = true ∧ ∀ x, l.getLast? = some x → x.2 + (minGap x.1 y.1 : Time) ≤ y.2 := by
  induction l with
  | nil => simp
  | cons x l ih =>
    cases l with
    | nil => simp
    | cons z l =>
      simp only [List.cons_append, minimaHold_cons_cons, Bool.and_eq_true] at ih ⊢
      rw [ih, and_assoc]
      simp [List.getLast?_cons_cons]

/-- The controller's view starts anew at a `LATCH_RISE`, else it grows with the trace. -/
theorem sinceLatch_append_one (l : List Stamped) (y : Stamped) :
    sinceLatch (l ++ [y]) = if y.1 = .latchRise then [y] else sinceLatch l ++ [y] := by
  simp [sinceLatch, List.foldl_append]

@[simp] theorem sinceLatch_nil : sinceLatch [] = [] := rfl

/-! ## The operands -/

/-- The level SAMPLE gets is the line's where it is driven, and high with nothing connected and a
pull-up (R44, R55). -/
theorem pinRead_driven {s : State} {d : Level} (h : s.ports.data = .driven d) :
    pinRead s = (d, s) := by
  unfold pinRead
  rw [h]

theorem pinRead_floating {s : State} (h : s.ports.data = .floating)
    (hp : s.params.dataPullup = true) : pinRead s = (true, s) := by
  unfold pinRead
  rw [h]
  simp [hp]

/-- A connected controller answers for what it has captured, whatever is held now (R53, R154). -/
theorem pinRead_controller {s : State} {held p : ButtonState} {d : Level}
    (h : s.ports.data = .controller held) (hp : s.pad.capture = .captured p)
    (hd : contractLevel p s.evt s.now = some d) : pinRead s = (d, s) := by
  unfold pinRead padLevel
  rw [h]
  simp [hp, hd]

/-! ## The connected controller -/

/-- What is captured was held in some step of the pulse (R53 (a), R154). -/
theorem captureOf_mem (pulses : Nat) (held : List ButtonState) (last : ButtonState) :
    captureOf pulses held last ∈ held ++ [last] := by
  have h : Config.freeCapture pulses % (held.length + 1) < (held ++ [last]).length := by
    simpa using Nat.mod_lt _ (Nat.succ_pos _)
  unfold captureOf
  rw [List.getD_eq_getElem?_getD, List.getElem?_eq_getElem h]
  exact List.getElem_mem h

theorem padAfter_reset {b : State} (a : State) (h : b.ports.rst = true) :
    padAfter b a = { b.pad with capture := .nothing } := by
  simp [padAfter, h]

/-- With LATCH low before and after a step, a connected controller keeps its capture (R154). -/
theorem padAfter_low {b a : State} {held : ButtonState} (hr : b.ports.rst = false)
    (hd : b.ports.data = .controller held) (hb : latchHigh b = false) (ha : latchHigh a = false) :
    padAfter b a = b.pad := by
  simp [padAfter, hr, hd, hb, ha]

theorem padAfter_rise {b a : State} {held : ButtonState} (hr : b.ports.rst = false)
    (hd : b.ports.data = .controller held) (hb : latchHigh b = false) (ha : latchHigh a = true) :
    padAfter b a = { b.pad with capture := .latching [held] } := by
  simp [padAfter, hr, hd, hb, ha]

theorem padAfter_high {b a : State} {held : ButtonState} {l : List ButtonState}
    (hr : b.ports.rst = false) (hd : b.ports.data = .controller held) (hb : latchHigh b = true)
    (ha : latchHigh a = true) (hl : b.pad.capture = .latching l) :
    padAfter b a = { b.pad with capture := .latching (l ++ [held]) } := by
  simp [padAfter, hr, hd, hb, ha, hl]

theorem padAfter_fall {b a : State} {held : ButtonState} {l : List ButtonState}
    (hr : b.ports.rst = false) (hd : b.ports.data = .controller held) (hb : latchHigh b = true)
    (ha : latchHigh a = false) (hl : b.pad.capture = .latching l) :
    padAfter b a =
      { capture := .captured (captureOf b.pad.pulses l held), pulses := b.pad.pulses + 1 } := by
  simp [padAfter, hr, hd, hb, ha, hl]

/-- SAMPLE's store reaches bit `7 - I` and no other (R95). -/
theorem storeBit_getLsbD (b : Bool) (s : State) {k : Nat} (hk : k < 8) :
    (storeBit b s).acc.getLsbD k = if k + s.i.toNat = 7 then b else s.acc.getLsbD k := by
  have hi : s.i.toNat < 16 := s.i.isLt
  have hm : (sampleMask s.i).getLsbD k = decide (k + s.i.toNat = 7) := by
    unfold sampleMask
    generalize s.i.toNat = n at hi
    interval_cases n <;> interval_cases k <;> rfl
  rw [BitVec.getLsbD_eq_getElem hk] at hm
  rw [storeBit_acc]
  cases b <;> by_cases h : k + s.i.toNat = 7 <;> simp [hm, h, hk]

/-- DECODE's masks pick bit `7 - k` for flag `k` (R63, R101). -/
theorem decodeButtons_get (acc : Byte) {k : Nat} (hk : k < 8) :
    (decodeButtons acc).get k = acc.getLsbD (7 - k) := by
  have h : ∀ acc : Byte, (decodeButtons acc).get k = acc.getLsbD (7 - k) := by
    interval_cases k <;> decide
  exact h acc

/-- PACK's masks put flag `k` into bit `k` (R64, R110). -/
theorem packButtons_getLsbD (bs : ButtonState) {k : Nat} (hk : k < 8) :
    (packButtons bs).getLsbD k = bs.get k := by
  obtain ⟨a, b, c, d, e, f, g, h⟩ := bs
  interval_cases k <;> revert a b c d e f g h <;> decide

/-! ## The report space -/

theorem memWrite_ok {s : State} {a : Nat} {v : Byte} (h : a < s.params.reportBytes) :
    memWrite a v s = .ok { s with rpt := s.rpt.write a v } := by
  simp [memWrite, h]

/-- What PACK leaves in the buffer (R110): the button byte, zeros in the rest of the report. -/
theorem read_packed {m : Memory} (hm : m.wf) (n off : Nat) (v : Byte) (a : Nat) :
    ((Memory.zeroBelow n m).write off v).read a =
      if a = off then v else if a < n then 0x00#8 else m.read a := by
  by_cases h : a = off
  · subst h
    rw [Memory.read_write_same (Memory.zeroBelow_wf hm n), if_pos rfl]
  · rw [Memory.read_write_other h, Memory.read_zeroBelow hm, if_neg h]

end Sys2Proof.Machine
end

