-- ==== Sys2Proof/Laws/Exec.lean ====
section
/-!
SUPPORT. What each instruction that completes on its path does to the whole state, as one record:
later proofs cite these equations and unfold no meaning.
-/

namespace Sys2Proof.Machine

theorem canTake_iff {s : State} : canTake s = true ↔ s.upc = 0x0#4 ∧ s.busy = false := by
  simp [canTake]

theorem canTake_eq_false {s : State} : canTake s = false ↔ s.upc ≠ 0x0#4 ∨ s.busy = true := by
  simp only [canTake, Bool.and_eq_false_iff, decide_eq_false_iff_not, Bool.not_eq_false']

/-- The instant of a step, spelt as a field update that `simp` leaves alone. -/
theorem jump_elapse (t : Nat) (p : PhaseCode) (s : State) :
    jump p (elapse t s) = { s with upc := p, now := (elapse t s).now } := by
  rw [elapse_eq t s]; rfl

theorem execNop_eq (s : State) : execNop s = .next { s with now := (elapse 0 s).now } := by
  unfold execNop
  rw [← elapse_eq]

theorem execInit_eq {s : State} (h : canTake s = true) :
    execInit s = .next { s with
      dir := ⟨true, true, false, false, false⟩, out := ⟨false, false⟩, inited := true
      upc := 0x0#4, now := (elapse 0 s).now } := by
  unfold execInit
  rw [if_pos h, elapse_eq 0 s]
  rfl

theorem execCreateReport_eq {s : State} (h : canTake s = true) (hi : s.inited = true) :
    execCreateReport s = .next { s with
      busy := true, rdy := false, upc := 0x1#4, now := (elapse 0 s).now } := by
  unfold execCreateReport
  rw [if_pos h, if_pos hi, elapse_eq 0 s]
  rfl

theorem execProcessReport_eq {s : State} (h : canTake s = true) :
    execProcessReport s = .next { s with upc := 0x0#4, now := (elapse 0 s).now } := by
  unfold execProcessReport
  rw [if_pos h, jump_elapse]

theorem execInit_busy {s : State} (h : canTake s = false) : execInit s = .refused .cmdWhileBusy := by
  simp [execInit, h]

theorem execCreateReport_busy {s : State} (h : canTake s = false) :
    execCreateReport s = .refused .cmdWhileBusy := by
  simp [execCreateReport, h]

theorem execCreateReport_uninit {s : State} (h : canTake s = true) (hi : s.inited = false) :
    execCreateReport s = .refused .notInitialised := by
  simp [execCreateReport, h, hi]

theorem execProcessReport_busy {s : State} (h : canTake s = false) :
    execProcessReport s = .refused .cmdWhileBusy := by
  simp [execProcessReport, h]

/-- The four commands IDLE can find on the port (R90). -/
theorem execIdle_cases (s : State) :
    (s.ports.cmd = 0b00#2 ∧ execIdle s = .next { s with upc := 0x0#4, now := (elapse 0 s).now }) ∨
    (s.ports.cmd = 0b01#2 ∧ execIdle s = execInit s) ∨
    (s.ports.cmd = 0b10#2 ∧ execIdle s = execCreateReport s) ∨
    (s.ports.cmd = 0b11#2 ∧ execIdle s = execProcessReport s) := by
  have h : s.ports.cmd = 0b00#2 ∨ s.ports.cmd = 0b01#2 ∨ s.ports.cmd = 0b10#2 ∨
      s.ports.cmd = 0b11#2 := by
    generalize s.ports.cmd = c
    revert c
    decide
  unfold execIdle
  rcases h with h | h | h | h
  · left
    rw [h]
    exact ⟨rfl, congrArg Host.Outcome.next (jump_elapse 0 0x0#4 s)⟩
  · exact .inr (.inl ⟨h, by rw [h]; rfl⟩)
  · exact .inr (.inr (.inl ⟨h, by rw [h]; rfl⟩))
  · exact .inr (.inr (.inr ⟨h, by rw [h]; rfl⟩))

theorem execClr_eq (s : State) :
    execClr s = .next { s with
      acc := 0x00#8, i := 0#4, bs := noButtons, upc := 0x2#4, now := (elapse 0 s).now } := by
  unfold execClr
  rw [elapse_eq 0 s]
  rfl

/-- `loadTmr` after other updates: the value TMR takes depends on the parameters alone. -/
theorem loadTmr_eq (t : Nat) (s : State) : loadTmr t s = { s with tmr := (loadTmr t s).tmr } := by
  unfold loadTmr
  split <;> rfl

theorem loadTmr_tmr (t : Nat) (s : State) :
    (loadTmr t s).tmr =
      match s.params.fClkHz with
      | none => s.tmr
      | some f => tickCount t f := by
  unfold loadTmr
  cases s.params.fClkHz <;> rfl

theorem execLatchHi_eq (s : State) :
    execLatchHi s = .next { s with
      out := { s.out with latch := true }
      evt := s.evt ++ [(.latchRise, (elapse 0 s).now)]
      tmr := (loadTmr tLatchMin s).tmr
      upc := 0x3#4
      now := (elapse 0 s).now } := by
  unfold execLatchHi
  rw [loadTmr_eq, loadTmr_tmr, loadTmr_tmr, elapse_eq 0 s]
  rfl

theorem execLatchLo_eq (s : State) :
    execLatchLo s = .next { s with
      out := { s.out with latch := false }
      evt := s.evt ++ [(.latchFall, (elapse 0 s).now)]
      upc := 0x5#4
      now := (elapse 0 s).now } := by
  unfold execLatchLo
  rw [elapse_eq 0 s]
  rfl

/-- SAMPLE, with the answer of the environment as `pinRead` gives it at the step's instant. -/
theorem execSample_eq (s : State) :
    execSample s = .next { s with
      acc := (storeBit (!(pinRead (elapse 0 s)).1) s).acc
      evt := s.evt ++ [(.sample s.i (pinRead (elapse 0 s)).1, (elapse 0 s).now)]
      upc := 0x6#4
      now := (elapse 0 s).now
      draws := (pinRead (elapse 0 s)).2.draws } := by
  unfold execSample
  have h : (pinRead (elapse 0 s)).2 =
      { s with now := (elapse 0 s).now, draws := (pinRead (elapse 0 s)).2.draws } := by
    rcases pinRead_snd (elapse 0 s) with h | h <;> rw [h, elapse_eq 0 s]
  simp only []
  rw [h]
  rfl

theorem execClkHi_eq (s : State) :
    execClkHi s = .next { s with
      out := { s.out with clock := true }
      evt := s.evt ++ [(.clockRise s.i, (elapse 0 s).now)]
      tmr := (loadTmr tClkHiMin s).tmr
      upc := 0x7#4
      now := (elapse 0 s).now } := by
  unfold execClkHi
  rw [loadTmr_eq, loadTmr_tmr, loadTmr_tmr, elapse_eq 0 s]
  rfl

theorem execClkLo_eq (s : State) :
    execClkLo s = .next { s with
      out := { s.out with clock := false }
      evt := s.evt ++ [(.clockFall s.i, (elapse 0 s).now)]
      tmr := (loadTmr tClkLoMin s).tmr
      upc := 0x9#4
      now := (elapse 0 s).now } := by
  unfold execClkLo
  rw [loadTmr_eq, loadTmr_tmr, loadTmr_tmr, elapse_eq 0 s]
  rfl

theorem execLoop_eq (s : State) :
    execLoop s = .next { s with
      i := s.i + 1#4
      upc := if s.i + 1#4 < 8#4 then 0x5#4 else 0xB#4
      now := (elapse 0 s).now } := by
  unfold execLoop
  rw [elapse_eq 0 s]
  rfl

theorem execDecode_eq (s : State) :
    execDecode s = .next { s with
      bs := decodeButtons s.acc, upc := 0xC#4, now := (elapse 0 s).now } := by
  unfold execDecode
  rw [elapse_eq 0 s]
  rfl

/-- PACK under parameters R6 allows. -/
theorem execPack_eq {s : State} (h : s.params.buttonOffset < s.params.reportBytes) :
    execPack s = .next { s with
      rpt := (Memory.zeroBelow s.params.reportBytes s.rpt).write s.params.buttonOffset (packButtons s.bs)
      upc := 0xD#4
      now := (elapse 0 s).now } := by
  unfold execPack
  rw [memWrite_ok (by simpa using h), elapse_eq 0 s]
  rfl

/-- PACK under an offset R6 forbids. -/
theorem execPack_fault {s : State} (h : s.params.reportBytes ≤ s.params.buttonOffset) :
    execPack s = .fault (.noSuchReportByte s.params.buttonOffset) := by
  unfold execPack memWrite
  rw [if_neg (by simpa using h)]

theorem execDone_eq (s : State) :
    execDone s = .next { s with
      size := sizeValue s.params
      force := false
      evt := s.evt ++ [(.reportReady (reportImage s), (elapse 0 s).now)]
      busy := false
      rdy := true
      upc := 0x0#4
      now := (elapse 0 s).now } := by
  unfold execDone
  rw [elapse_eq 0 s]
  rfl

end Sys2Proof.Machine
end

