-- ==== Sys2Proof/Laws/PerInstr.lean ====
section
/-!
SUPPORT. Facts about every instruction as syntax: its selector word is not reserved, and the
decoder reads the instruction back from it (spec/30_encoding.md rules R67 to R69).
-/

namespace Sys2Proof.Laws.Encoding

/-- The instruction's word is well formed and decodes to it. -/
def Statement (i : Instr) : Prop := (encode i).wf = true ∧ decode (encode i) = .ok i

theorem nop : Statement .nop := ⟨rfl, rfl⟩
theorem init : Statement .init := ⟨rfl, rfl⟩
theorem createReport : Statement .createReport := ⟨rfl, rfl⟩
theorem processReport : Statement .processReport := ⟨rfl, rfl⟩
theorem idle : Statement .idle := ⟨rfl, rfl⟩
theorem clr : Statement .clr := ⟨rfl, rfl⟩
theorem latchHi : Statement .latchHi := ⟨rfl, rfl⟩
theorem waitLatch : Statement .waitLatch := ⟨rfl, rfl⟩
theorem latchLo : Statement .latchLo := ⟨rfl, rfl⟩
theorem sample : Statement .sample := ⟨rfl, rfl⟩
theorem clkHi : Statement .clkHi := ⟨rfl, rfl⟩
theorem waitClkHi : Statement .waitClkHi := ⟨rfl, rfl⟩
theorem clkLo : Statement .clkLo := ⟨rfl, rfl⟩
theorem waitClkLo : Statement .waitClkLo := ⟨rfl, rfl⟩
theorem loop : Statement .loop := ⟨rfl, rfl⟩
theorem decode : Statement .decode := ⟨rfl, rfl⟩
theorem pack : Statement .pack := ⟨rfl, rfl⟩
theorem done : Statement .done := ⟨rfl, rfl⟩

end Sys2Proof.Laws.Encoding
end

