-- ==== Sys2Proof/Laws/Script.lean ====
section
/-!
SUPPORT. The inputs of a script line that is not timed, and the ends of a run
(spec/30_encoding.md rule R71, spec/40_host_commands.md rule R88).
-/

namespace Sys2Proof.Machine

/-! ## How long a micro-operation takes -/

@[simp] theorem leastWait_waitLatch : leastWait .waitLatch = 12 := rfl
@[simp] theorem leastWait_waitClkHi : leastWait .waitClkHi = 6 := rfl
@[simp] theorem leastWait_waitClkLo : leastWait .waitClkLo = 6 := rfl

theorem stepCount_step {p : Params} (h : p.fClkHz = none) (i : Instr) : stepCount p i = 1 := by
  simp [stepCount, h]

theorem stepCount_tick {p : Params} {f : Nat} (h : p.fClkHz = some f) (i : Instr) :
    stepCount p i = max 1 (tickCount (leastWait i) f) := by
  simp [stepCount, h]

/-! ## Inputs of a line -/

theorem lengthenBy_zero (p : Params) : lengthenBy p 0 = some ([], ⟨0, 1⟩) := by
  unfold lengthenBy
  split <;> simp

theorem lengthenBy_step {p : Params} (h : p.fClkHz = none) {x : Time} (hx : 0 ≤ x) :
    ∃ d : Delay, lengthenBy p x = some ([], d) ∧ d.toTime = x := by
  refine ⟨⟨x.num.toNat, x.den⟩, by simp [lengthenBy, h, hx], ?_⟩
  have hn : ((x.num.toNat : Nat) : Int) = x.num := Int.toNat_of_nonneg (Rat.num_nonneg.2 hx)
  have : ((x.num.toNat : Nat) : Rat) = (x.num : Rat) := by exact_mod_cast hn
  simp [Delay.toTime, this, Rat.num_div_den]

theorem lengthenBy_neg {p : Params} (h : p.fClkHz = none) {x : Time} (hx : x < 0) :
    lengthenBy p x = none := by
  simp [lengthenBy, h, hx]

/-- A micro-operation without a mark is as short as can be. -/
theorem timedInputs_unmarked (p : Params) (now : Time) (i : Instr) (presented : Input) :
    timedInputs p now i presented none =
      some (List.replicate (stepCount p i) { presented with extra := ⟨0, 1⟩ },
        now + leastDuration p i) := by
  simp [timedInputs, lengthenBy_zero]

theorem inputsOf_unmarked (p : Params) (now : Time) (steps : List (Instr × Input)) :
    inputsOf p now (steps.map fun x => (x.1, x.2, none)) =
      some (steps.map fun x => List.replicate (stepCount p x.1) { x.2 with extra := ⟨0, 1⟩ }) := by
  induction steps generalizing now with
  | nil => rfl
  | cons x steps ih => simp [inputsOf, timedInputs_unmarked, ih]

/-- A line that is not timed always has its inputs. -/
theorem inputs_unmarked (p : Params) (now : Time) (a : Action) :
    ScriptLine.inputs p now ⟨a, []⟩ =
      some (a.steps.map fun x => List.replicate (stepCount p x.1) { x.2 with extra := ⟨0, 1⟩ }) := by
  have h : attachMarks a.steps [] = some (a.steps.map fun x => (x.1, x.2, none)) := by
    cases a.steps <;> rfl
  simp [ScriptLine.inputs, h, inputsOf_unmarked]

/-! ## Runs -/

theorem isFinal_iff {s : State} : isFinal s = true ↔ s.upc = 0x0#4 ∧ s.busy = false := by
  simp [isFinal, canTake]

theorem untilFinal_final {s : State} (h : isFinal s = true) (fuel : Nat) :
    untilFinal fuel s = .ended s := by
  cases fuel <;> simp [untilFinal, h]

/-- One step of a line that has not ended. -/
theorem untilFinal_step {s t : State} (h : isFinal s = false) (hs : step s = .next t) (fuel : Nat) :
    untilFinal (fuel + 1) s = untilFinal fuel t := by
  simp [untilFinal, h, hs]

/-- Whatever ends, ends in a final state. -/
theorem untilFinal_ended {fuel : Nat} {s t : State} (h : untilFinal fuel s = .ended t) :
    isFinal t = true := by
  induction fuel generalizing s with
  | zero =>
    unfold untilFinal at h
    split at h <;> cases h
    assumption
  | succ n ih =>
    unfold untilFinal at h
    split at h
    · cases h; assumption
    · split at h
      · exact ih h
      · cases h
      · cases h

end Sys2Proof.Machine
end

