-- ==== Sys2Proof/Laws/Step.lean ====
section
/-!
SUPPORT. What a step can do, once: it takes a reset, passes a stalled period, or executes the
micro-operation UPC selects; and when each of these happens. Then runs of several steps.
-/

namespace Sys2Proof.Machine

/-- The micro-operation a phase code decodes to has that code (R68). -/
theorem encode_of_decodePhase {c : PhaseCode} {i : Instr} (h : decodePhase c = .ok i) :
    encode i = .uph c := by
  have hall : ∀ c : PhaseCode,
      (match decodePhase c with
        | .ok i => decide (encode i = .uph c)
        | .error _ => true) = true := by decide
  have hc := hall c
  rw [h] at hc
  simpa using hc

theorem preempt_reset {s : State} (h : s.ports.rst = true) :
    preempt s = some (.next (endStep s (resetBlock s))) := by
  simp [preempt, h]

theorem preempt_busy {s : State} (hr : s.ports.rst = false) (hc : s.ports.cmd ≠ Cmd.nop)
    (ht : canTake s = false) : preempt s = some (.refused .cmdWhileBusy) := by
  simp [preempt, hr, hc, ht]

theorem preempt_stall {s : State} (hr : s.ports.rst = false)
    (hc : s.ports.cmd = Cmd.nop ∨ canTake s = true) (hs : stalled s = true) :
    preempt s = some (.next (endStep s (stallPeriod s))) := by
  rcases hc with hc | hc <;> simp [preempt, hr, hc, hs]

theorem preempt_none {s : State} (hr : s.ports.rst = false)
    (hc : s.ports.cmd = Cmd.nop ∨ canTake s = true) (hs : stalled s = false) :
    preempt s = none := by
  rcases hc with hc | hc <;> simp [preempt, hr, hc, hs]

theorem finish_next {b : State} {r : Result} {t : State} :
    finish b r = .next t ↔ ∃ u, r = .next u ∧ t = endStep b u := by
  cases r <;> simp [finish, eq_comm]

/-- The three ways a step answers a next state. -/
theorem step_next_cases {s t : State} (h : step s = .next t) :
    (s.ports.rst = true ∧ t = endStep s (resetBlock s)) ∨
    (s.ports.rst = false ∧ stalled s = true ∧ t = endStep s (stallPeriod s)) ∨
    (s.ports.rst = false ∧ (s.ports.cmd = Cmd.nop ∨ canTake s = true) ∧ stalled s = false ∧
      ∃ i u, decodePhase s.upc = .ok i ∧ exec i s = .next u ∧ t = endStep s u) := by
  cases hr : s.ports.rst with
  | true =>
    rw [step, preempt_reset hr] at h
    exact .inl ⟨rfl, by simpa using h.symm⟩
  | false =>
    by_cases hc : s.ports.cmd = Cmd.nop ∨ canTake s = true
    · cases hs : stalled s with
      | true =>
        rw [step, preempt_stall hr hc hs] at h
        exact .inr (.inl ⟨rfl, rfl, by simpa using h.symm⟩)
      | false =>
        rw [step, preempt_none hr hc hs] at h
        cases hd : decodePhase s.upc with
        | error e => rw [hd] at h; simp at h
        | ok i =>
          rw [hd] at h
          obtain ⟨u, hu, ht⟩ := finish_next.1 h
          exact .inr (.inr ⟨rfl, hc, rfl, i, u, rfl, hu, ht⟩)
    · obtain ⟨hc, ht⟩ := not_or.1 hc
      rw [step, preempt_busy hr hc (by simpa using ht)] at h
      simp at h

/-! ## Runs of several steps -/

theorem coreRun_next {M : Host.Core} {n : Nat} {s t : M.State} (h : M.step s = .next t) :
    M.run (n + 1) s = M.run n t := by
  rw [Host.Core.run.eq_def]
  simp only [h]

theorem coreRun_append {M : Host.Core} {a : Nat} (b : Nat) {s t : M.State} (h : M.run a s = .next t) :
    M.run (a + b) s = M.run b t := by
  induction a generalizing s with
  | zero =>
    rw [Host.Core.run.eq_def] at h
    cases h
    rw [Nat.zero_add]
  | succ a ih =>
    cases hs : M.step s with
    | next u =>
      rw [coreRun_next hs] at h
      rw [show a + 1 + b = (a + b) + 1 by omega, coreRun_next hs]
      exact ih h
    | fault r =>
      rw [Host.Core.run.eq_def] at h
      simp [hs] at h
    | refused r =>
      rw [Host.Core.run.eq_def] at h
      simp [hs] at h

/-- The first step of a run. -/
theorem run_next {n : Nat} {s t : State} (h : step s = .next t) : core.run (n + 1) s = core.run n t :=
  coreRun_next (M := core) h

/-- A run goes on where a shorter one has ended. -/
theorem run_append {a : Nat} (b : Nat) {s t : State} (h : core.run a s = .next t) :
    core.run (a + b) s = core.run b t :=
  coreRun_append (M := core) b h

end Sys2Proof.Machine
end

