-- ==== Sys2Proof/Tests/Slice0.lean ====
section
/-!
SUPPORT. Tests: words written out from spec/30_encoding.md rules R67 and R68, vectors of
spec/95_test_vectors.md (its numbers H…, M…, K…, T… are named), refusals of ill-formed terms, and
for each statement with hypotheses a state that meets them.
-/

namespace Sys2Proof.Tests

open Sys2Proof Sys2Proof.Machine

/-! ## Small states -/

/-- The fields of the next state a meaning or a step answers. -/
def after {α : Type} (r : Result) (f : State → α) : Option α :=
  match r with
  | .next t => some (f t)
  | .fault _ => none
  | .refused _ => none

def refusal (r : Result) : Option Refusal :=
  match r with
  | .next _ => none
  | .fault _ => none
  | .refused x => some x

def fault (r : Result) : Option Fault :=
  match r with
  | .next _ => none
  | .fault x => some x
  | .refused _ => none

/-- After RESET and INIT (vector H2). -/
def inited : State :=
  { State.reset with inited := true, dir := ⟨true, true, false, false, false⟩ }

/-- In the middle of an operation, about to execute phase `p`. -/
def running (p : PhaseCode) : State := { inited with busy := true, upc := p }

def ticking (s : State) : State := { s with params := { s.params with fClkHz := some 1000000 } }

def allButtons : ButtonState := ⟨true, true, true, true, true, true, true, true⟩
def aRight : ButtonState := ⟨true, false, false, false, false, false, false, true⟩

/-! ## Well-formedness: one ill-formed term for each check -/

theorem test_wf_phase_E : (CodeWord.uph 0xE#4).wf = false := by decide
theorem test_wf_phase_F : (CodeWord.uph 0xF#4).wf = false := by decide
theorem test_wf_phase_D : (CodeWord.uph 0xD#4).wf = true := by decide
theorem test_wf_no_bytes : Params.wf { reportBytes := 0 } = false := by decide
theorem test_wf_size_slot : Params.wf { reportBytes := 65536 } = false := by decide
theorem test_wf_offset : Params.wf { reportBytes := 3, buttonOffset := 3 } = false := by decide
theorem test_wf_clock : Params.wf { fClkHz := some 0 } = false := by decide
theorem test_wf_default : Params.wf {} = true := by decide
theorem test_wf_largest : Params.wf { reportBytes := 65535, buttonOffset := 65534 } = true := by decide
theorem test_wf_memory_zero : ¬Memory.wf [(0, 0x00#8)] := by decide
theorem test_wf_memory_order : ¬Memory.wf [(1, 0x01#8), (1, 0x02#8)] := by decide

/-! ## Decoding: the words of the tables R67 and R68, bit by bit -/

theorem test_cmd_nop : decode (.cmd (0#1 ++ 0#1)) = .ok .nop := by decide
theorem test_cmd_init : decode (.cmd (0#1 ++ 1#1)) = .ok .init := by decide
theorem test_cmd_create : decode (.cmd (1#1 ++ 0#1)) = .ok .createReport := by decide
theorem test_cmd_process : decode (.cmd (1#1 ++ 1#1)) = .ok .processReport := by decide
theorem test_uph_idle : decode (.uph (0#1 ++ 0#1 ++ 0#1 ++ 0#1)) = .ok .idle := by decide
theorem test_uph_clr : decode (.uph (0#1 ++ 0#1 ++ 0#1 ++ 1#1)) = .ok .clr := by decide
theorem test_uph_latch_hi : decode (.uph (0#1 ++ 0#1 ++ 1#1 ++ 0#1)) = .ok .latchHi := by decide
theorem test_uph_wait_latch : decode (.uph (0#1 ++ 0#1 ++ 1#1 ++ 1#1)) = .ok .waitLatch := by decide
theorem test_uph_latch_lo : decode (.uph (0#1 ++ 1#1 ++ 0#1 ++ 0#1)) = .ok .latchLo := by decide
theorem test_uph_sample : decode (.uph (0#1 ++ 1#1 ++ 0#1 ++ 1#1)) = .ok .sample := by decide
theorem test_uph_clk_hi : decode (.uph (0#1 ++ 1#1 ++ 1#1 ++ 0#1)) = .ok .clkHi := by decide
theorem test_uph_wait_clk_hi : decode (.uph (0#1 ++ 1#1 ++ 1#1 ++ 1#1)) = .ok .waitClkHi := by decide
theorem test_uph_clk_lo : decode (.uph (1#1 ++ 0#1 ++ 0#1 ++ 0#1)) = .ok .clkLo := by decide
theorem test_uph_wait_clk_lo : decode (.uph (1#1 ++ 0#1 ++ 0#1 ++ 1#1)) = .ok .waitClkLo := by decide
theorem test_uph_loop : decode (.uph (1#1 ++ 0#1 ++ 1#1 ++ 0#1)) = .ok .loop := by decide
theorem test_uph_decode : decode (.uph (1#1 ++ 0#1 ++ 1#1 ++ 1#1)) = .ok .decode := by decide
theorem test_uph_pack : decode (.uph (1#1 ++ 1#1 ++ 0#1 ++ 0#1)) = .ok .pack := by decide
theorem test_uph_done : decode (.uph (1#1 ++ 1#1 ++ 0#1 ++ 1#1)) = .ok .done := by decide
theorem test_uph_reserved :
    decode (.uph (1#1 ++ 1#1 ++ 1#1 ++ 0#1)) = .error (.reservedPhase 0xE#4) := by decide

/-! Table words: by the table's widths, and in whole bytes (log entry 4). -/
theorem test_table_cmd_width : decodeTableWord 2 1 = some .init := by decide
theorem test_table_uph_width : decodeTableWord 4 1 = some .clr := by decide
theorem test_table_byte_low : decodeTableWord 8 2 = some .createReport := by decide
theorem test_table_byte_high : decodeTableWord 8 0xC = some .pack := by decide
theorem test_table_byte_reserved : decodeTableWord 8 0xE = none := by decide
theorem test_table_bit_above : decodeTableWord 4 16 = none := by decide

/-! ## Host commands -/

/-- H1. -/
theorem test_nop_after_reset :
    after (step State.reset) (fun t => (t.upc, t.busy, t.rdy, t.inited)) =
      some (0x0#4, false, false, false) := by decide
/-- H10: a NOP while busy has no effect. -/
theorem test_nop_while_busy :
    after (exec .nop (running 0x2#4)) (fun t => (t.upc, t.busy)) = some (0x2#4, true) := by decide
/-- H2. -/
theorem test_init :
    after (step (State.reset.withFetchWord 2 1)) (fun t => (t.dir, t.out, t.inited, t.upc)) =
      some (⟨true, true, false, false, false⟩, ⟨false, false⟩, true, 0x0#4) := by decide
/-- H8. -/
theorem test_init_while_busy : refusal (exec .init (running 0x2#4)) = some .cmdWhileBusy := by decide
/-- H4. -/
theorem test_create_before_init :
    refusal (step (State.reset.withFetchWord 2 2)) = some .notInitialised := by decide
/-- H12. -/
theorem test_create :
    after (exec .createReport { inited with rdy := true, rpt := [(0, 0x81#8)] })
      (fun t => (t.busy, t.rdy, t.upc, t.rpt)) = some (true, false, 0x1#4, [(0, 0x81#8)]) := by decide
/-- H11. -/
theorem test_process :
    after (exec .processReport
        { inited with rdy := true, ports := { Input.quiet with payload := [0xFF#8, 0xFF#8] } })
      (fun t => (t.rdy, t.upc, t.rpt)) = some (true, 0x0#4, []) := by decide
/-- H9, through the step. -/
theorem test_process_while_busy :
    refusal (step { running 0x2#4 with ports := { Input.quiet with cmd := 0b11#2 } }) =
      some .cmdWhileBusy := by decide

/-! ## Micro-operations of the Reader -/

/-- R90: INIT reaches the block through IDLE. -/
theorem test_idle_init :
    after (exec .idle { State.reset with ports := { Input.quiet with cmd := 0b01#2 } })
      (fun t => (t.inited, t.upc)) = some (true, 0x0#4) := by decide
/-- M18. -/
theorem test_idle_nop : after (exec .idle inited) (fun t => (t.upc, t.inited)) = some (0x0#4, true) := by decide
/-- M1. -/
theorem test_clr :
    after (exec .clr { running 0x1#4 with acc := 0xFF#8, i := 8#4, bs := allButtons, rpt := [(0, 0xFF#8)] })
      (fun t => (t.acc, t.i, t.bs, t.rpt)) =
      some (0x00#8, 0#4, noButtons, [(0, 0xFF#8)]) := by decide
/-- M2. -/
theorem test_latch_hi :
    after (exec .latchHi (running 0x2#4)) (fun t => (t.out, t.evt.map Prod.fst, t.upc)) =
      some (⟨true, false⟩, [.latchRise], 0x3#4) := by decide
/-- Section 5 of 95_test_vectors.md: period 2 loads TMR with 12 at 1 MHz. -/
theorem test_latch_hi_tick :
    after (exec .latchHi (ticking (running 0x2#4))) (fun t => t.tmr) = some 12 := by decide
/-- M3: the least instant is 12 later. -/
theorem test_wait_latch :
    after (exec .waitLatch (running 0x3#4)) (fun t => (t.upc, decide (t.now = 12))) =
      some (0x4#4, true) := by decide +kernel
/-- Section 5: TMR 1 at the start of a period is the last of the wait. -/
theorem test_wait_latch_tick :
    after (exec .waitLatch { ticking (running 0x3#4) with tmr := 1 }) (fun t => (t.upc, t.tmr)) =
      some (0x4#4, 0) := by decide
/-- M4. -/
theorem test_latch_lo :
    after (exec .latchLo { running 0x4#4 with out := ⟨true, false⟩ })
      (fun t => (t.out, t.evt.map Prod.fst, t.upc)) =
      some (⟨false, false⟩, [.latchFall], 0x5#4) := by decide
/-- M7. -/
theorem test_sample_low :
    after (exec .sample { running 0x5#4 with
        i := 7#4, acc := 0x80#8, ports := { Input.quiet with data := .driven false } })
      (fun t => (t.acc, t.evt.map Prod.fst, t.upc)) =
      some (0x81#8, [.sample 7#4 false], 0x6#4) := by decide
/-- M8: a high level writes 0 into bit 3. -/
theorem test_sample_high :
    after (exec .sample { running 0x5#4 with
        i := 4#4, acc := 0xF8#8, ports := { Input.quiet with data := .driven true } })
      (fun t => t.acc) = some 0xF0#8 := by decide
/-- M9. -/
theorem test_clk_hi :
    after (exec .clkHi { running 0x6#4 with i := 2#4 }) (fun t => (t.out, t.evt.map Prod.fst, t.upc)) =
      some (⟨false, true⟩, [.clockRise 2#4], 0x7#4) := by decide
/-- M10. -/
theorem test_wait_clk_hi :
    after (exec .waitClkHi (running 0x7#4)) (fun t => (t.upc, decide (t.now = 6))) =
      some (0x8#4, true) := by decide +kernel
/-- Section 5: a wait with ticks left stays in its phase. -/
theorem test_wait_clk_hi_tick :
    after (exec .waitClkHi { ticking (running 0x7#4) with tmr := 6 }) (fun t => (t.upc, t.tmr)) =
      some (0x7#4, 5) := by decide
/-- M11. -/
theorem test_clk_lo :
    after (exec .clkLo { running 0x8#4 with i := 2#4, out := ⟨false, true⟩ })
      (fun t => (t.out, t.evt.map Prod.fst, t.upc)) =
      some (⟨false, false⟩, [.clockFall 2#4], 0x9#4) := by decide
/-- M12. -/
theorem test_wait_clk_lo :
    after (exec .waitClkLo (running 0x9#4)) (fun t => (t.upc, decide (t.now = 6))) =
      some (0xA#4, true) := by decide +kernel
/-- M14. -/
theorem test_loop_back :
    after (exec .loop { running 0xA#4 with i := 6#4 }) (fun t => (t.i, t.upc)) =
      some (7#4, 0x5#4) := by decide
/-- M15. -/
theorem test_loop_out :
    after (exec .loop { running 0xA#4 with i := 7#4 }) (fun t => (t.i, t.upc)) =
      some (8#4, 0xB#4) := by decide
/-- M16. -/
theorem test_decode :
    after (exec .decode { running 0xB#4 with acc := 0x81#8 }) (fun t => (t.bs, t.upc)) =
      some (aRight, 0xC#4) := by decide
/-- M17. -/
theorem test_decode_clears :
    after (exec .decode { running 0xB#4 with bs := allButtons }) (fun t => t.bs) =
      some noButtons := by decide

/-! ## Micro-operations of the Packer -/

/-- K1. -/
theorem test_pack :
    after (exec .pack { running 0xC#4 with bs := aRight, rpt := [(0, 0x7E#8)] })
      (fun t => (t.rpt, t.upc)) = some ([(0, 0x81#8)], 0xD#4) := by decide
/-- K4. -/
theorem test_pack_three_bytes :
    after (exec .pack { running 0xC#4 with
        bs := ⟨false, false, false, false, true, false, false, false⟩
        params := { reportBytes := 3, buttonOffset := 2 }
        rpt := [(0, 0xAA#8), (1, 0xBB#8), (2, 0xCC#8)] })
      (fun t => reportImage t) = some [0x00#8, 0x00#8, 0x10#8] := by decide
/-- K7. -/
theorem test_done :
    after (exec .done { running 0xD#4 with params := { reportBytes := 3 } })
      (fun t => (t.size, t.force, t.busy, t.rdy, t.upc)) =
      some (0x0003#16, false, false, true, 0x0#4) := by decide
/-- K6: the event carries the report. -/
theorem test_done_event :
    after (exec .done { running 0xD#4 with rpt := [(0, 0x81#8)] }) (fun t => t.evt.map Prod.fst) =
      some [.reportReady [0x81#8]] := by decide

/-! ## The machine around them -/

/-- P6: reset in the middle of a clock pulse. -/
theorem test_reset_mid_operation :
    after (step { running 0x7#4 with
        out := ⟨false, true⟩, acc := 0x80#8, ports := { Input.quiet with rst := true } })
      (fun t => (t.upc, t.busy, t.inited, t.acc, t.dir, t.out)) =
      some (0x0#4, false, false, 0x00#8, ⟨false, false, false, false, false⟩, ⟨false, false⟩) := by decide
/-- A placed word is executed by the next step: a command, and a phase in a whole byte. -/
theorem test_fetch_word :
    after (step (State.reset.withFetchWord 2 1)) (fun t => t.inited) = some true ∧
    after (step (State.reset.withFetchWord 8 0xC)) (fun t => t.upc) = some 0xD#4 := by decide

theorem test_reserved_phase : refusal (step (running 0xE#4)) = some .reservedPhase := by decide
/-- R156: a stalled period executes nothing. -/
theorem test_stall :
    after (step { ticking (running 0x6#4) with ports := { Input.quiet with stall := true } })
      (fun t => (t.upc, t.out)) = some (0x6#4, ⟨false, false⟩) := by decide
theorem test_bad_offset_faults :
    fault (exec .pack { running 0xC#4 with params := { reportBytes := 2, buttonOffset := 2 } }) =
      some (.noSuchReportByte 2) := by decide
/-- R50: no read of the report while busy; R89: only with RDY. -/
theorem test_take_busy : takeReport (running 0x5#4) = .error .readWhileBusy := by decide
theorem test_take :
    takeReport { inited with rdy := true, size := 1#16, rpt := [(0, 0x81#8)] } =
      .ok ⟨[0x81#8], 1#16, false⟩ := by decide

/-- R157: tick counts at 700 kHz and 16 MHz. -/
theorem test_tick_counts :
    (tickCount tLatchMin 700000, tickCount tClkHiMin 700000, tickCount tLatchMin 16000000) =
      (9, 5, 192) := by decide
theorem test_read_min : tReadMin = 108 := by decide
theorem test_tmr_width : tmrWidth 1000000 = 4 := by decide

/-- T3, T4 and T6: traces that break R145; T7 and T8: zero gaps that do not. -/
theorem test_T3 : minimaHold [(.latchRise, 0), (.latchFall, 119 / 10)] = false := by decide +kernel
theorem test_T4 : minimaHold [(.clockRise 3#4, 48), (.clockFall 3#4, 53)] = false := by decide +kernel
theorem test_T6 : minimaHold [(.clockFall 7#4, 102), (.reportReady [], 105)] = false := by decide +kernel
theorem test_T7_T8 :
    minimaHold [(.latchFall, 12), (.sample 0#4 false, 12), (.clockRise 0#4, 12)] = true := by
  decide +kernel

/-- R53: after two pulses a controller that holds Select shows it low. -/
theorem test_controller_level :
    contractLevel ⟨false, false, true, false, false, false, false, false⟩
      [(.latchRise, 0), (.latchFall, 12), (.clockRise 0#4, 12), (.clockFall 0#4, 18),
       (.clockRise 1#4, 24), (.clockFall 1#4, 30)] 36 = some false := by decide +kernel
/-- R159: a sample that comes too early is outside the contract. -/
theorem test_controller_too_early :
    contractLevel noButtons
      [(.latchRise, 0), (.latchFall, 12), (.clockRise 0#4, 12), (.clockFall 0#4, 18)] 20 = none := by
  decide +kernel

/-! ## Witnesses: states that meet the hypotheses of the statements -/

/-- StepExecutesPhase, at both ends of the table and for a command in IDLE. -/
theorem witness_step_phase :
    (decode (.uph (running 0xD#4).upc) = .ok .done ∧ (running 0xD#4).ports.rst = false ∧
      (running 0xD#4).ports.cmd = 0b00#2 ∧ (running 0xD#4).params.fClkHz = none) ∧
    (decode (.uph inited.upc) = .ok .idle ∧ inited.busy = false) := by decide

/-- StepExecutesCommand, CreateReportAccepted, InitConfiguresLines and ProcessReportIsNoOp (first
clauses), CommandChecks (third clause). -/
def commanded (c : CmdCode) : State := { inited with ports := { Input.quiet with cmd := c } }
theorem witness_step_command :
    decode (.cmd (commanded 0b10#2).ports.cmd) = .ok .createReport ∧
    (commanded 0b10#2).ports.rst = false ∧ (commanded 0b10#2).upc = 0x0#4 ∧
    (commanded 0b10#2).busy = false ∧ (commanded 0b10#2).inited = true ∧
    (commanded 0b10#2).params.fClkHz = none := by decide

/-- CommandChecks, first and second clauses, and the refused clauses of INIT and PROCESS_REPORT. -/
theorem witness_command_checks :
    ((running 0x2#4).busy = true ∧
      ({ running 0x2#4 with ports := (commanded 0b11#2).ports }).ports.cmd ≠ 0b00#2) ∧
    (State.reset.upc = 0x0#4 ∧ State.reset.busy = false ∧ State.reset.inited = false) := by decide

/-- ResetInAnyState. -/
theorem witness_reset : ({ running 0x7#4 with ports := { Input.quiet with rst := true } }).ports.rst = true := by
  decide

/-- IdleExecutesPresentedCommand: all four codes occur. -/
theorem witness_idle_commands :
    (commanded 0b00#2).ports.cmd = 0b00#2 ∧ (commanded 0b01#2).ports.cmd = 0b01#2 ∧
    (commanded 0b10#2).ports.cmd = 0b10#2 ∧ (commanded 0b11#2).ports.cmd = 0b11#2 := by decide

/-- LatchEdges, ClockEdges, WaitsLastTheirMinimum, EveryLengtheningIsPossible, WaitsCountTicks:
both levels occur, and both sides of the countdown. -/
theorem witness_levels :
    (running 0x3#4).params.fClkHz = none ∧
    (ticking (running 0x3#4)).params.fClkHz = some 1000000 ∧
    1 < ({ ticking (running 0x3#4) with tmr := 2 }).tmr ∧
    ({ ticking (running 0x3#4) with tmr := 1 }).tmr ≤ 1 := by decide

theorem witness_lengthening : (0 : Rat) ≤ 250 := by norm_num

/-- SampleStoresInvertedLevel: a driven line, and an open one with a pull-up; both ends of `I`. -/
theorem witness_sample :
    ({ running 0x5#4 with ports := { Input.quiet with data := .driven false } }).ports.data =
      .driven false ∧
    ((running 0x5#4).ports.data = .floating ∧ (running 0x5#4).params.dataPullup = true) ∧
    (7 + (running 0x5#4).i.toNat = 7 ∧ 0 + ({ running 0x5#4 with i := 7#4 }).i.toNat = 7) := by decide

/-- LoopCountsToEight: the two sides of the loop's end. -/
theorem witness_loop :
    ({ running 0xA#4 with i := 6#4 }).i.toNat < 7 ∧ ({ running 0xA#4 with i := 7#4 }).i.toNat = 7 := by
  decide

/-- PackRebuildsReport, ButtonByteIsReversedAccumulator, DoneDeliversReport, NoStepFaults,
StepKeepsMinimumDelays (its first premise): bounds of the report at offset 2 of 3. -/
def threeBytes : State :=
  { running 0xC#4 with
    params := { reportBytes := 3, buttonOffset := 2 }, rpt := [(0, 0xAA#8), (2, 0xCC#8)] }
theorem witness_pack :
    threeBytes.params.wf = true ∧ threeBytes.rpt.wf ∧
    (0 < threeBytes.params.reportBytes ∧ 0 ≠ threeBytes.params.buttonOffset) ∧
    threeBytes.params.reportBytes ≤ 3 := by decide

/-- ReportSpaceBounds: the last byte inside, the first outside, and an offset outside. -/
theorem witness_bounds :
    2 < threeBytes.params.reportBytes ∧ threeBytes.params.reportBytes ≤ 3 ∧
    (({ threeBytes with params := { reportBytes := 2, buttonOffset := 2 } }).params.reportBytes ≤
      ({ threeBytes with params := { reportBytes := 2, buttonOffset := 2 } }).params.buttonOffset) := by
  decide

/-- A state in the middle of an operation that meets the invariant: the first premise of
StepKeepsInvariant, LineLevels, OnePinEdgePerStep, OnlyDoneOrResetEndsAnOperation and
DutifulHostAlwaysGetsAStep. -/
theorem witness_block_inv : BlockInv (running 0x5#4) := by
  constructor <;> first | decide | (intro _ _; rfl)

/-- … which steps on. -/
theorem witness_inv_steps :
    (running 0x5#4).busy = true ∧ (running 0x5#4).ports.cmd = 0b00#2 ∧
    (running 0x5#4).ports.rst = false ∧ (running 0x5#4).upc ≠ 0xD#4 ∧
    after (step (running 0x5#4)) (fun t => t.upc) = some 0x6#4 := by decide

/-- OnlyDoneOrResetEndsAnOperation, second clause: DONE ends the operation, from a state that meets
the invariant. -/
theorem witness_block_inv_done : BlockInv { running 0xD#4 with i := 8#4 } := by
  constructor <;> first | decide | (intro _ _; rfl)
theorem witness_done_ends :
    after (step { running 0xD#4 with i := 8#4 }) (fun t => (t.busy, t.rdy)) = some (false, true) := by
  decide

/-- OnePinEdgePerStep: a step that moves LATCH and one that moves CLOCK, from states that meet the
invariant. -/
theorem witness_block_inv_edges :
    BlockInv (running 0x2#4) ∧ BlockInv (running 0x6#4) := by
  constructor <;> constructor <;> first | decide | (intro _ _; rfl)
theorem witness_edges :
    after (step (running 0x2#4)) (fun t => t.out) = some ⟨true, false⟩ ∧
    after (step (running 0x6#4)) (fun t => t.out) = some ⟨false, true⟩ := by decide

/-- LineLevels: not configured, and configured. -/
theorem witness_lines : State.reset.inited = false ∧ (running 0x5#4).inited = true := by decide

/-- DutifulHostAlwaysGetsAStep: CREATE_REPORT presented after INIT. -/
theorem witness_dutiful :
    (commanded 0b10#2).busy = false ∧ (commanded 0b10#2).ports.cmd = 0b10#2 ∧
    (commanded 0b10#2).inited = true := by decide

/-- A state in a wait, with a trace, that meets the timing invariant: StepKeepsMinimumDelays. -/
def latched : State := { running 0x4#4 with out := ⟨true, false⟩, now := 12, evt := [(.latchRise, 0)] }
theorem witness_timing_inv : TimingInv latched := by
  refine ⟨rfl, ?_, ?_⟩
  · simp [latched]
  · simp [PhaseTiming, latched, running]
theorem witness_timing_steps :
    latched.params.wf = true ∧ after (step latched) (fun t => t.upc) = some 0x5#4 := by decide

/-- TimeChangesNoValue: two states that differ in their instants only. -/
def latchedLater : State :=
  { latched with
    now := 262, evt := [(.latchRise, 0)], ports := { Input.quiet with extra := ⟨40, 1⟩ } }
theorem witness_time :
    TimingInv latchedLater ∧ eraseTime latched = eraseTime latchedLater ∧ latched ≠ latchedLater := by
  refine ⟨⟨rfl, ?_, ?_⟩, rfl, ?_⟩
  · simp [latchedLater]
  · simp [PhaseTiming, latchedLater, latched, running]
    norm_num
  · intro h
    have h' := congrArg (fun s : State => s.ports.extra.num) h
    revert h'
    decide

/-- ExactlyThreeRefusals: each reason occurs. -/
theorem witness_refusals :
    refusal (step { running 0x2#4 with ports := (commanded 0b01#2).ports }) = some .cmdWhileBusy ∧
    refusal (step { State.reset with ports := (commanded 0b10#2).ports }) = some .notInitialised ∧
    refusal (step (running 0xF#4)) = some .reservedPhase := by decide

/-- ParametersNeverChange, OnlyTheseWriteData, OnlyTheseWriteControl, PhaseSuccessors: next states
exist; both successors of LOOP and of a wait at tick level occur (tests above). -/
theorem witness_next : (after (exec .clr (running 0x1#4)) (fun t => t.upc)).isSome = true := by decide

/-- TakingTheReport: the three cases. -/
theorem witness_take :
    (running 0x5#4).busy = true ∧ (inited.busy = false ∧ inited.rdy = false) ∧
    (({ inited with rdy := true }).busy = false ∧ ({ inited with rdy := true }).rdy = true) := by decide

/-- CallbacksOfTheStack. -/
theorem witness_callback :
    Callback.startOfFrame ≠ .createReport ∧ Callback.startOfFrame ≠ .processReport ∧
    inited.ports.rst = false ∧ inited.ports.cmd = Callback.startOfFrame.cmd ∧ inited.upc = 0x0#4 := by
  decide

/-- The operation statements: a state one starts in, with the script of program P2 to come. -/
def p2 : State := inited.present ((Action.createReport 0x7E#8).steps.map Prod.snd)
theorem witness_starts : Starts p2 := by
  constructor <;> decide
theorem witness_p2_bounded :
    p2.params.fClkHz = none ∧
    ((List.range 56).all fun k =>
      k == 0 || (decide ((inputAt p2 k).cmd = 0b00#2) && !(inputAt p2 k).rst)) = true ∧
    ((List.range 8).all fun k => decide ((inputAt p2 (5 + 6 * k)).data =
      .driven (wireLevel 0x7E#8 k))) = true := by
  decide
theorem witness_undisturbed : Undisturbed p2 55 := by
  intro k h1 h2
  have h := List.all_eq_true.1 witness_p2_bounded.2.1 k (List.mem_range.2 (by omega))
  have h0 : (k == 0) = false := by simp; omega
  simpa [h0] using h
theorem witness_levels_shown :
    ShowsLevels p2 (wireLevel 0x7E#8) := by
  intro k hk
  simpa using List.all_eq_true.1 witness_p2_bounded.2.2 k (List.mem_range.2 hk)

/-- AbsentControllerReadsReleased: a lone CREATE_REPORT, nothing connected. -/
theorem witness_absent :
    Starts (commanded 0b10#2) ∧ Undisturbed (commanded 0b10#2) 55 ∧
    NothingConnected (commanded 0b10#2) ∧ (commanded 0b10#2).params.dataPullup = true := by
  refine ⟨by constructor <;> decide, ?_, ?_, rfl⟩
  · intro k h1 _
    cases k with
    | zero => omega
    | succ n => exact ⟨rfl, rfl⟩
  · intro k _
    rw [show 5 + 6 * k = (4 + 6 * k) + 1 by omega]
    rfl

/-- ControllerIsReadCorrectly, ButtonsAreCapturedAtTheLatch: a controller connected throughout; a and
right are held during the latch pulse, steps 2 to 4, all buttons from then on. -/
def padConnected : State :=
  { commanded 0b10#2 with
    script := List.replicate 4 { Input.quiet with data := .controller aRight }
      ++ List.replicate 51 { Input.quiet with data := .controller allButtons } }
def padHeld (n : Nat) : ButtonState := if n ≤ 4 then aRight else allButtons
theorem witness_controller_bounded :
    ((List.range 56).all fun k =>
      k == 0 || (decide ((inputAt padConnected k).cmd = 0b00#2) && !(inputAt padConnected k).rst)) = true ∧
    ((List.range 48).all fun n =>
      decide (n < 2) || decide ((inputAt padConnected n).data = .controller (padHeld n))) = true := by
  decide
theorem witness_controller_inv : BlockInv padConnected := by
  constructor <;> first | decide | (intro _ _; rfl)
theorem witness_controller :
    Starts padConnected ∧ padConnected.params.fClkHz = none ∧ Undisturbed padConnected 55 ∧
    ControllerConnected padConnected padHeld ∧ ControllerAnswers padConnected aRight := by
  have hc : ControllerConnected padConnected padHeld := by
    intro n h1 h2
    have h := List.all_eq_true.1 witness_controller_bounded.2 n (List.mem_range.2 (by omega))
    simpa [show ¬ n < 2 by omega] using h
  refine ⟨by constructor <;> decide, rfl, ?_, hc, padHeld, hc, ?_⟩
  · intro k h1 h2
    have h := List.all_eq_true.1 witness_controller_bounded.1 k (List.mem_range.2 (by omega))
    have h0 : (k == 0) = false := by simp; omega
    simpa [h0] using h
  · intro n _ h
    exact if_pos h

/-- CaptureStaysUntilTheNextPulse: a step with LATCH low, and the fall of a pulse. -/
theorem witness_capture :
    (lineLevel (running 0x5#4) .latch ≠ some true ∧
      after (step { running 0x5#4 with ports := { Input.quiet with data := .controller aRight } })
        (fun t => lineLevel t .latch) = some (some false)) ∧
    (lineLevel latched .latch = some true ∧
      after (step { latched with
          ports := { Input.quiet with data := .controller aRight }
          pad := ⟨.latching [allButtons, aRight], 0⟩ })
        (fun t => (lineLevel t .latch, t.pad.pulses)) = some (some false, 1)) := by decide
/-- R53 (a), R154: the rise notes what is held; after the fall a change is not seen. -/
theorem test_pad_rise :
    after (step { running 0x2#4 with ports := { Input.quiet with data := .controller aRight } })
      (fun t => t.pad.capture) = some (.latching [aRight]) := by decide
theorem test_pad_keeps :
    after (step { running 0x6#4 with
        ports := { Input.quiet with data := .controller allButtons }, pad := ⟨.captured aRight, 1⟩ })
      (fun t => t.pad.capture) = some (.captured aRight) := by decide
/-- R140: no capture is claimed across a reset. -/
theorem test_pad_reset :
    after (step { latched with ports := { Input.quiet with rst := true }, pad := ⟨.latching [aRight], 3⟩ })
      (fun t => t.pad) = some ⟨.nothing, 3⟩ := by decide

/-- ResultDependsOnSamplesAlone: two different states that start with the same samples. -/
theorem witness_two_starts :
    Starts { p2 with acc := 0xFF#8, rpt := [(0, 0x7E#8)] } ∧
    ({ p2 with acc := 0xFF#8, rpt := [(0, 0x7E#8)] } : State).params = p2.params := by
  refine ⟨by constructor <;> decide, rfl⟩

/-- TraceOfOneReadLasts108: trace T1, the tightest legal one, with all lines high. -/
def traceT1 : List Stamped :=
  [(Event.latchRise, 0), (Event.latchFall, 12)]
    ++ (List.range 8).flatMap (fun k =>
      [(Event.sample (BitVec.ofNat 4 k) true, ((12 + 12 * k : Nat) : Time)),
       (Event.clockRise (BitVec.ofNat 4 k), ((12 + 12 * k : Nat) : Time)),
       (Event.clockFall (BitVec.ofNat 4 k), ((18 + 12 * k : Nat) : Time))])
    ++ [(Event.reportReady [0x00#8], 108)]
theorem witness_T1 :
    traceT1.map Prod.fst = readEvents (fun _ => true) ++ [.reportReady [0x00#8]] ∧
    minimaHold traceT1 = true := by
  constructor
  · rfl
  · decide +kernel

/-! ## Scripts (R71) -/

/-- R73: a line's operation is the fixed sequence. -/
theorem test_line_steps : (operationSteps 0x7E#8).map Prod.fst = fixedSequence := by decide
/-- R61: sample 0 is bit 7 of `W`; P2's data 01111110. -/
theorem test_wire : (List.range 8).map (wireLevel 0x7E#8) =
    [false, true, true, true, true, true, true, false] := by decide
/-- A mark that names another micro-operation than the line executes. -/
theorem test_marks_wrong :
    attachMarks (operationSteps 0x7E#8) [(.clr, none), (.sample, some 5)] = none := by decide
/-- P4: WAIT_LATCH at 262 after LATCH_HI at 0 is lengthened by 250; at 11 it would be too early. -/
theorem test_timed :
    timedInputs {} 0 .waitLatch Input.quiet (some 262) = some ([{ Input.quiet with extra := ⟨250, 1⟩ }], 262) ∧
    timedInputs {} 0 .waitLatch Input.quiet (some 11) = none := by
  constructor <;> decide +kernel
theorem test_expect : Expectation.holds inited (.out ⟨false, false⟩) = true ∧
    Expectation.holds inited (.inited false) = false := by decide
/-- P1's items of one bit, P6's undriven CLOCK; a byte inside the report and one that does not exist. -/
theorem test_expect_single :
    Expectation.holds inited (.outBit .latch false) = true ∧
    Expectation.holds inited (.dirBit .clock true) = true ∧
    Expectation.holds State.reset (.dirBit .clock false) = true ∧
    Expectation.holds { inited with bs := aRight } (.bsFlag 7 true) = true ∧
    Expectation.holds inited (.rptByte 0 0x00#8) = true ∧
    Expectation.holds inited (.rptByte 1 0x00#8) = false := by decide

/-- ScriptLineRunsOneOperation, OtherScriptLinesEndAtOnce, EveryScriptEndsInIdle: after INIT, at both
levels; RefusedLineChangesNothing: after reset. -/
theorem witness_script :
    (inited.upc = 0x0#4 ∧ inited.busy = false ∧ inited.inited = true ∧ inited.params.wf = true ∧
      inited.rpt.wf) ∧
    (ticking inited).params.wf = true ∧
    (State.reset.upc = 0x0#4 ∧ State.reset.busy = false ∧ State.reset.inited = false) ∧
    (running 0x2#4).upc ≠ 0x0#4 := by decide
theorem witness_script_inv : BlockInv inited ∧
    ∀ l ∈ [({ action := .createReport 0xE7#8 } : ScriptLine), { action := .nop }],
      l.marks = [] ∧ ∀ what, l.action ≠ .expect what := by
  constructor
  · constructor <;> first | decide | (intro _ _; rfl)
  · simp
/-- TimedStepHasItsInstant: an instant at the bound, one below it, and a wait at 1 MHz. -/
theorem witness_timed :
    State.reset.now + (12 : Nat) ≤ (12 : Rat) ∧ (11 : Rat) < State.reset.now + (12 : Nat) ∧
    (ticking inited).params.fClkHz = some 1000000 ∧
    12 = max 1 ⌈((12 * 1000000 : Nat) : Rat) / 1000000⌉₊ := by
  refine ⟨?_, ?_, rfl, ?_⟩ <;> norm_num [State.reset]

/-- … its third clause: a wait about to begin, at both levels, and a command in IDLE. -/
theorem witness_executable :
    Executable (running 0x3#4) .waitLatch Input.quiet ∧
    Executable { ticking (running 0x3#4) with tmr := 12 } .waitLatch Input.quiet ∧
    Executable inited .idle { Input.quiet with cmd := 0b10#2 } := by
  refine ⟨⟨rfl, rfl, rfl, .inl rfl, .inl rfl, ?_⟩, ⟨rfl, rfl, rfl, .inr rfl, .inl rfl, ?_⟩,
    ⟨rfl, rfl, rfl, .inl rfl, .inr ⟨rfl, rfl, fun _ => rfl⟩, ?_⟩⟩
  · intro f h; cases h
  · intro f h; cases h; decide
  · intro f h; cases h
/-- … with inputs that exist: P4's wait at step level, one stalled period and twelve at 1 MHz. -/
theorem witness_timed_inputs :
    (timedInputs {} 0 .waitLatch Input.quiet (some 262)).isSome = true ∧
    (timedInputs { fClkHz := some 1000000 } 0 .waitLatch Input.quiet (some 13)).map
      (fun x => (x.1.length, x.1.map Input.stall)) =
      some (13, true :: List.replicate 12 false) := by
  constructor <;> decide +kernel
/-- EveryScriptEndsInIdle: with a timed line and an EXPECT line, after INIT and without RESET. -/
theorem witness_script_clean : inited.inited = true ∧
    ∀ l ∈ [({ action := .createReport 0xE7#8, marks := [(.idle, some 5)] } : ScriptLine),
        { action := .expect [.rdy true] }], l.action ≠ .reset := by
  decide

/-- TickOperationLength and TickLevelRefinesStepLevel: a clocked start; 146 periods at 1 MHz. -/
theorem witness_tick :
    Starts (ticking (commanded 0b10#2)) ∧
    (ticking (commanded 0b10#2)).params.fClkHz = some 1000000 ∧
    Undisturbed (ticking (commanded 0b10#2)) 146 ∧
    (∀ k, k ≤ 146 → (inputAt (ticking (commanded 0b10#2)) k).stall = false) ∧
    146 = 38 + ⌈((12 * 1000000 : Nat) : Rat) / 1000000⌉₊
      + 8 * (⌈((6 * 1000000 : Nat) : Rat) / 1000000⌉₊ + ⌈((6 * 1000000 : Nat) : Rat) / 1000000⌉₊) := by
  refine ⟨by constructor <;> decide, rfl, ?_, ?_, by norm_num⟩
  · intro k h1 _
    cases k with
    | zero => omega
    | succ n => exact ⟨rfl, rfl⟩
  · intro k _
    cases k <;> rfl
/-- … its three cases: a stalled period, a wait with ticks left, a step like the step level's. -/
theorem witness_tick_cases :
    (after (step { ticking (running 0x6#4) with ports := { Input.quiet with stall := true } })
      (fun t => t.upc)) = some 0x6#4 ∧
    (after (step { ticking (running 0x3#4) with tmr := 2 }) (fun t => (t.upc, t.tmr))) =
      some (0x3#4, 1) ∧
    (after (step (ticking (running 0x2#4))) (fun t => (t.upc, t.tmr))) = some (0x3#4, 12) := by decide

end Sys2Proof.Tests
end

