-- ==== Sys2Proof/Proofs/Effects.lean ====
section
/-!
SUPPORT. What an instruction that answers a next state has done, said once for all eighteen: the
relation `Effect` and the lemma `exec_effect` that `exec` obeys it. Frames and successors are read
off its cases.
-/

namespace Sys2Proof.Machine

/-! ## Inversion of the meanings that can stop -/

theorem next_unique {r : Result} {t u : State} (ht : r = .next t) (hu : r = .next u) : u = t :=
  Host.Outcome.next.inj (hu.symm.trans ht)

theorem execInit_next {s t : State} (h : execInit s = .next t) :
    canTake s = true ∧ t = { s with
      dir := ⟨true, true, false, false, false⟩, out := ⟨false, false⟩, inited := true
      upc := 0x0#4, now := (elapse 0 s).now } := by
  cases hc : canTake s with
  | true => exact ⟨rfl, next_unique (execInit_eq hc) h⟩
  | false => cases (execInit_busy hc).symm.trans h

theorem execCreateReport_next {s t : State} (h : execCreateReport s = .next t) :
    canTake s = true ∧ s.inited = true ∧ t = { s with
      busy := true, rdy := false, upc := 0x1#4, now := (elapse 0 s).now } := by
  cases hc : canTake s with
  | true =>
    rcases Bool.eq_false_or_eq_true s.inited with hi | hi
    · exact ⟨rfl, hi, next_unique (execCreateReport_eq hc hi) h⟩
    · cases (execCreateReport_uninit hc hi).symm.trans h
  | false => cases (execCreateReport_busy hc).symm.trans h

theorem execProcessReport_next {s t : State} (h : execProcessReport s = .next t) :
    canTake s = true ∧ t = { s with upc := 0x0#4, now := (elapse 0 s).now } := by
  cases hc : canTake s with
  | true => exact ⟨rfl, next_unique (execProcessReport_eq hc) h⟩
  | false => cases (execProcessReport_busy hc).symm.trans h

theorem execPack_next {s t : State} (h : execPack s = .next t) :
    s.params.buttonOffset < s.params.reportBytes ∧ t = { s with
      rpt := (Memory.zeroBelow s.params.reportBytes s.rpt).write s.params.buttonOffset
        (packButtons s.bs)
      upc := 0xD#4
      now := (elapse 0 s).now } := by
  rcases Nat.lt_or_ge s.params.buttonOffset s.params.reportBytes with ho | ho
  · exact ⟨ho, next_unique (execPack_eq ho) h⟩
  · cases (execPack_fault ho).symm.trans h

/-- A wait either stays for another tick, at tick level only, or goes on to its successor. -/
theorem waitFor_upc (t : Nat) (p : PhaseCode) (s : State) :
    (waitFor t p s).upc = p ∨ (s.params.fClkHz ≠ none ∧ (waitFor t p s).upc = s.upc) := by
  cases hf : s.params.fClkHz with
  | none => exact .inl (by rw [waitFor_step t p hf])
  | some f =>
    by_cases ht : 1 < s.tmr
    · exact .inr ⟨by simp, by rw [waitFor_count t p hf ht]⟩
    · exact .inl (by rw [waitFor_last t p hf ht])

/-! ## One relation for all instructions -/

/-- `Effect s i t`: instruction `i`, executed in `s`, has led to `t`. A command has the same effect
presented on the port while IDLE executes as by its own meaning (R90). -/
inductive Effect (s : State) : Instr → State → Prop
  | nop : Effect s .nop { s with now := (elapse 0 s).now }
  | init {i : Instr} (presented : i = .init ∨ i = .idle ∧ s.ports.cmd = 0b01#2)
      (taken : canTake s = true) :
      Effect s i { s with
        dir := ⟨true, true, false, false, false⟩, out := ⟨false, false⟩, inited := true
        upc := 0x0#4, now := (elapse 0 s).now }
  | createReport {i : Instr} (presented : i = .createReport ∨ i = .idle ∧ s.ports.cmd = 0b10#2)
      (taken : canTake s = true) (inited : s.inited = true) :
      Effect s i { s with busy := true, rdy := false, upc := 0x1#4, now := (elapse 0 s).now }
  | processReport {i : Instr} (presented : i = .processReport ∨ i = .idle ∧ s.ports.cmd = 0b11#2)
      (taken : canTake s = true) :
      Effect s i { s with upc := 0x0#4, now := (elapse 0 s).now }
  | idle (quiet : s.ports.cmd = 0b00#2) :
      Effect s .idle { s with upc := 0x0#4, now := (elapse 0 s).now }
  | clr : Effect s .clr { s with
      acc := 0x00#8, i := 0#4, bs := noButtons, upc := 0x2#4, now := (elapse 0 s).now }
  | latchHi : Effect s .latchHi { s with
      out := { s.out with latch := true }
      evt := s.evt ++ [(.latchRise, (elapse 0 s).now)]
      tmr := (loadTmr tLatchMin s).tmr
      upc := 0x3#4, now := (elapse 0 s).now }
  | waitLatch : Effect s .waitLatch (waitFor tLatchMin 0x4#4 s)
  | latchLo : Effect s .latchLo { s with
      out := { s.out with latch := false }
      evt := s.evt ++ [(.latchFall, (elapse 0 s).now)]
      upc := 0x5#4, now := (elapse 0 s).now }
  | sample (d : Level) (draws : Nat) (answer : d = (pinRead (elapse 0 s)).1)
      (drawn : draws = (pinRead (elapse 0 s)).2.draws) :
      Effect s .sample { s with
        acc := (storeBit (!d) s).acc
        evt := s.evt ++ [(.sample s.i d, (elapse 0 s).now)]
        upc := 0x6#4, now := (elapse 0 s).now, draws := draws }
  | clkHi : Effect s .clkHi { s with
      out := { s.out with clock := true }
      evt := s.evt ++ [(.clockRise s.i, (elapse 0 s).now)]
      tmr := (loadTmr tClkHiMin s).tmr
      upc := 0x7#4, now := (elapse 0 s).now }
  | waitClkHi : Effect s .waitClkHi (waitFor tClkHiMin 0x8#4 s)
  | clkLo : Effect s .clkLo { s with
      out := { s.out with clock := false }
      evt := s.evt ++ [(.clockFall s.i, (elapse 0 s).now)]
      tmr := (loadTmr tClkLoMin s).tmr
      upc := 0x9#4, now := (elapse 0 s).now }
  | waitClkLo : Effect s .waitClkLo (waitFor tClkLoMin 0xA#4 s)
  | loop : Effect s .loop { s with
      i := s.i + 1#4
      upc := if s.i + 1#4 < 8#4 then 0x5#4 else 0xB#4
      now := (elapse 0 s).now }
  | decode : Effect s .decode { s with
      bs := decodeButtons s.acc, upc := 0xC#4, now := (elapse 0 s).now }
  | pack (offset : s.params.buttonOffset < s.params.reportBytes) :
      Effect s .pack { s with
        rpt := (Memory.zeroBelow s.params.reportBytes s.rpt).write s.params.buttonOffset
          (packButtons s.bs)
        upc := 0xD#4, now := (elapse 0 s).now }
  | done : Effect s .done { s with
      size := sizeValue s.params
      force := false
      evt := s.evt ++ [(.reportReady (reportImage s), (elapse 0 s).now)]
      busy := false
      rdy := true
      upc := 0x0#4, now := (elapse 0 s).now }

theorem execInit_effect {i : Instr} {s t : State} (h : execInit s = .next t)
    (hi : i = .init ∨ i = .idle ∧ s.ports.cmd = 0b01#2) : Effect s i t := by
  obtain ⟨hc, rfl⟩ := execInit_next h
  exact .init hi hc

theorem execCreateReport_effect {i : Instr} {s t : State} (h : execCreateReport s = .next t)
    (hi : i = .createReport ∨ i = .idle ∧ s.ports.cmd = 0b10#2) : Effect s i t := by
  obtain ⟨hc, hn, rfl⟩ := execCreateReport_next h
  exact .createReport hi hc hn

theorem execProcessReport_effect {i : Instr} {s t : State} (h : execProcessReport s = .next t)
    (hi : i = .processReport ∨ i = .idle ∧ s.ports.cmd = 0b11#2) : Effect s i t := by
  obtain ⟨hc, rfl⟩ := execProcessReport_next h
  exact .processReport hi hc

theorem execIdle_effect {s t : State} (h : execIdle s = .next t) : Effect s .idle t := by
  rcases execIdle_cases s with ⟨hc, he⟩ | ⟨hc, he⟩ | ⟨hc, he⟩ | ⟨hc, he⟩
  · exact next_unique he h ▸ .idle hc
  · exact execInit_effect (he ▸ h) (.inr ⟨rfl, hc⟩)
  · exact execCreateReport_effect (he ▸ h) (.inr ⟨rfl, hc⟩)
  · exact execProcessReport_effect (he ▸ h) (.inr ⟨rfl, hc⟩)

/-- Every instruction that answers a next state has had its effect. -/
theorem exec_effect {i : Instr} {s t : State} (h : exec i s = .next t) : Effect s i t := by
  cases i with
  | nop => exact next_unique (execNop_eq s) h ▸ .nop
  | init => exact execInit_effect h (.inl rfl)
  | createReport => exact execCreateReport_effect h (.inl rfl)
  | processReport => exact execProcessReport_effect h (.inl rfl)
  | idle => exact execIdle_effect h
  | clr => exact next_unique (execClr_eq s) h ▸ .clr
  | latchHi => exact next_unique (execLatchHi_eq s) h ▸ .latchHi
  | waitLatch => exact next_unique rfl h ▸ .waitLatch
  | latchLo => exact next_unique (execLatchLo_eq s) h ▸ .latchLo
  | sample => exact next_unique (execSample_eq s) h ▸ .sample _ _ rfl rfl
  | clkHi => exact next_unique (execClkHi_eq s) h ▸ .clkHi
  | waitClkHi => exact next_unique rfl h ▸ .waitClkHi
  | clkLo => exact next_unique (execClkLo_eq s) h ▸ .clkLo
  | waitClkLo => exact next_unique rfl h ▸ .waitClkLo
  | loop => exact next_unique (execLoop_eq s) h ▸ .loop
  | decode => exact next_unique (execDecode_eq s) h ▸ .decode
  | pack =>
    obtain ⟨ho, rfl⟩ := execPack_next h
    exact .pack ho
  | done => exact next_unique (execDone_eq s) h ▸ .done

/-! ## The step around an instruction -/

/-- A step that nothing pre-empts executes the micro-operation UPC selects. -/
theorem step_of_preempt_none {s : State} {i : Instr} (hp : preempt s = none)
    (hd : decodePhase s.upc = .ok i) : step s = finish s (exec i s) := by
  rw [step, hp, hd]

theorem upc_of_decodePhase {c p : PhaseCode} {i : Instr} (hd : decodePhase c = .ok i)
    (he : encode i = .uph p) : c = p :=
  CodeWord.uph.inj ((encode_of_decodePhase hd).symm.trans he)

end Sys2Proof.Machine
end

