-- ==== Sys2Proof/Proofs/BlockInvariant.lean ====
section
/-!
SUPPORT. The part of BlockInv that speaks of the phase, as one row a phase: what `I`, the two output
latches and `TMR` hold while `UPC` is `p`. A micro-operation keeps the invariant when it leads from
the row of its phase to the row of the next.
-/

namespace Sys2Proof.Machine

/-! ## The row of a phase -/

/-- What `I` may be in phase `p` (R33 (b), R91, R94, R100). -/
def countAllowed (p : PhaseCode) (i : BitVec 4) : Bool :=
  if p ≤ 0x1#4 then i ≤ 8#4 else if p ≤ 0x4#4 then i = 0#4 else if p ≤ 0xA#4 then i ≤ 7#4 else i = 8#4

/-- The output latches in phase `p` (R33 (c), (d)). -/
def pinsIn (p : PhaseCode) : OutLatch :=
  ⟨decide (p = 0x3#4 ∨ p = 0x4#4), decide (p = 0x7#4 ∨ p = 0x8#4)⟩

/-- The delay that phase `p` waits for (R93, R97, R99). -/
def waitOf (p : PhaseCode) : Option Nat :=
  if p = 0x3#4 then some tLatchMin
  else if p = 0x7#4 then some tClkHiMin
  else if p = 0x9#4 then some tClkLoMin
  else none

/-- What `TMR` may be in phase `p` with reference clock `clk` (R23, R156). -/
def TimerAllowed (p : PhaseCode) (tmr : Nat) (clk : Option Nat) : Prop :=
  match waitOf p with
  | none => tmr = 0
  | some t =>
    match clk with
    | none => tmr = 0
    | some f => 1 ≤ tmr ∧ tmr ≤ tickCount t f

/-- The row of phase `p`. -/
structure PhaseRow (p : PhaseCode) (busy : Bool) (i : BitVec 4) (out : OutLatch) (tmr : Nat)
    (clk : Option Nat) : Prop where
  legal : p ≤ 0xD#4
  busy : busy = decide (p ≠ 0x0#4)
  count : countAllowed p i = true
  pins : out = pinsIn p
  timer : TimerAllowed p tmr clk

/-- What BlockInv says beyond the row of the phase. -/
structure PhaseFree (s : State) : Prop where
  force_zero : s.force = false
  busy_inited : s.busy = true → s.inited = true
  rdy_idle : s.rdy = true → s.busy = false
  rdy_size : s.rdy = true → s.size.toNat = s.params.reportBytes
  padding_zero : ∀ addr, addr ≠ s.params.buttonOffset → s.rpt.read addr = 0x00#8
  dir_inputs : s.dir.data = false ∧ s.dir.led0 = false ∧ s.dir.led1 = false
  dir_outputs : s.dir.latch = s.inited ∧ s.dir.clock = s.inited
  memory_wf : s.rpt.wf
  params_wf : s.params.wf = true
  now_nonneg : 0 ≤ s.now

theorem countAllowed_iff {p : PhaseCode} {i : BitVec 4} : countAllowed p i = true ↔
    i.toNat ≤ 8 ∧ (0x5#4 ≤ p → p ≤ 0xA#4 → i.toNat ≤ 7) ∧ (0x2#4 ≤ p → p ≤ 0x4#4 → i = 0#4) ∧
      (0xB#4 ≤ p → i = 8#4) := by
  revert p i
  decide

theorem eq_pinsIn_iff {p : PhaseCode} {out : OutLatch} : out = pinsIn p ↔
    (out.latch = true ↔ p = 0x3#4 ∨ p = 0x4#4) ∧ (out.clock = true ↔ p = 0x7#4 ∨ p = 0x8#4) := by
  obtain ⟨l, c⟩ := out
  rw [pinsIn, OutLatch.mk.injEq]
  exact and_congr (by rw [Bool.eq_iff_iff, decide_eq_true_iff])
    (by rw [Bool.eq_iff_iff, decide_eq_true_iff])

theorem timerAllowed_iff {p : PhaseCode} {tmr : Nat} {clk : Option Nat} : TimerAllowed p tmr clk ↔
    (clk = none → tmr = 0) ∧ (p ≠ 0x3#4 → p ≠ 0x7#4 → p ≠ 0x9#4 → tmr = 0) ∧
      ∀ f, clk = some f →
        (p = 0x3#4 → 1 ≤ tmr ∧ tmr ≤ tickCount tLatchMin f) ∧
        (p = 0x7#4 → 1 ≤ tmr ∧ tmr ≤ tickCount tClkHiMin f) ∧
        (p = 0x9#4 → 1 ≤ tmr ∧ tmr ≤ tickCount tClkLoMin f) := by
  unfold TimerAllowed waitOf
  by_cases h3 : p = 0x3#4
  · subst h3; cases clk <;> simp
  by_cases h7 : p = 0x7#4
  · subst h7; cases clk <;> simp
  by_cases h9 : p = 0x9#4
  · subst h9; cases clk <;> simp
  simp +contextual [h3, h7, h9]

/-- BlockInv gives the row of the phase the block is in. -/
theorem BlockInv.row {s : State} (h : BlockInv s) :
    PhaseRow s.upc s.busy s.i s.out s.tmr s.params.fClkHz where
  legal := h.phase_legal
  busy := Bool.eq_iff_iff.2 (h.busy_iff.trans decide_eq_true_iff.symm)
  count := countAllowed_iff.2 ⟨h.i_le, h.i_in_loop, h.i_before, h.i_after⟩
  pins := eq_pinsIn_iff.2 ⟨h.latch_iff, h.clock_iff⟩
  timer := timerAllowed_iff.2 ⟨h.tmr_step_level, h.tmr_outside, h.tmr_in_wait⟩

/-- The row of the phase, where the phase is known. -/
theorem BlockInv.row_at {s : State} {p : PhaseCode} (h : BlockInv s) (hp : s.upc = p) :
    PhaseRow p s.busy s.i s.out s.tmr s.params.fClkHz :=
  hp ▸ h.row

theorem BlockInv.free {s : State} (h : BlockInv s) : PhaseFree s :=
  { h with }

/-- BlockInv is the row of the phase and what does not depend on it. -/
theorem PhaseFree.blockInv {s : State} (h : PhaseFree s)
    (row : PhaseRow s.upc s.busy s.i s.out s.tmr s.params.fClkHz) : BlockInv s := by
  obtain ⟨hle, hloop, hbefore, hafter⟩ := countAllowed_iff.1 row.count
  obtain ⟨hlatch, hclock⟩ := eq_pinsIn_iff.1 row.pins
  obtain ⟨hstep, hout, hwait⟩ := timerAllowed_iff.1 row.timer
  exact { h with
    busy_iff := row.busy ▸ decide_eq_true_iff
    i_le := hle, i_in_loop := hloop, i_before := hbefore, i_after := hafter
    latch_iff := hlatch, clock_iff := hclock
    phase_legal := row.legal
    tmr_step_level := hstep, tmr_outside := hout, tmr_in_wait := hwait }

/-- A move to the row of another phase, where nothing else that BlockInv speaks of changes. -/
theorem BlockInv.move {s : State} (h : BlockInv s) {q : PhaseCode} {i : BitVec 4} {out : OutLatch}
    {tmr : Nat} {now : Time} {acc : Byte} {bs : ButtonState} {evt : List Stamped} {draws : Nat}
    (hnow : s.now ≤ now) (row : PhaseRow q s.busy i out tmr s.params.fClkHz) :
    BlockInv { s with
      acc := acc, i := i, bs := bs, upc := q, out := out, tmr := tmr, now := now, evt := evt
      draws := draws } :=
  PhaseFree.blockInv { h.free with now_nonneg := h.now_nonneg.trans hnow } row

/-! ## The timer -/

theorem one_le_clock {p : Params} {f : Nat} (h : p.wf = true) (hf : p.fClkHz = some f) : 1 ≤ f := by
  simp only [Params.wf, hf, Bool.and_eq_true, decide_eq_true_iff] at h
  exact h.2

/-- Loading `TMR` enters a wait (R92, R96, R98). -/
theorem BlockInv.timer_loaded {s : State} (h : BlockInv s) {p : PhaseCode} {t : Nat} (ht : 1 ≤ t)
    (hp : waitOf p = some t) : TimerAllowed p (loadTmr t s).tmr s.params.fClkHz := by
  unfold TimerAllowed
  rw [hp]
  cases hf : s.params.fClkHz with
  | none => rw [loadTmr_step t hf]; exact h.tmr_step_level hf
  | some f =>
    rw [loadTmr_tick t hf]
    exact ⟨tickCount_pos ht (one_le_clock h.params_wf hf), le_rfl⟩

/-- Counting down stays within the wait (R156). -/
theorem TimerAllowed.count_down {p : PhaseCode} {tmr : Nat} {clk : Option Nat}
    (h : TimerAllowed p tmr clk) (ht : 1 < tmr) : TimerAllowed p (tmr - 1) clk := by
  unfold TimerAllowed at *
  split at h
  · omega
  · cases clk with
    | none => simp only at h; omega
    | some f => simp only at h ⊢; omega

/-- The body of the three waits keeps the invariant when the row of its successor is reached with
`TMR` 0. -/
theorem blockInv_waitFor {s : State} (h : BlockInv s) {t : Nat} {q : PhaseCode}
    (row : PhaseRow q s.busy s.i s.out 0 s.params.fClkHz) : BlockInv (waitFor t q s) := by
  have hnow := le_elapse_now t s
  cases hf : s.params.fClkHz with
  | none =>
    rw [elapse_now_step t hf] at hnow
    rw [waitFor_step t q hf]
    exact h.move hnow (h.tmr_step_level hf ▸ row)
  | some f =>
    rw [elapse_now_tick t hf] at hnow
    by_cases ht : 1 < s.tmr
    · rw [waitFor_count t q hf ht]
      exact h.move hnow { h.row with timer := h.row.timer.count_down ht }
    · rw [waitFor_last t q hf ht]
      exact h.move hnow row

/-! ## Reset, stalled periods, the end of a step -/

/-- Reset under parameters R6 allows leaves a state that meets the invariant (R32, R33). -/
theorem blockInv_resetBlock {s : State} (hp : s.params.wf = true) : BlockInv (resetBlock s) := by
  refine PhaseFree.blockInv ?_ ⟨(by decide : 0x0#4 ≤ 0xD#4), rfl, rfl, rfl, rfl⟩
  exact {
    force_zero := rfl
    busy_inited := nofun
    rdy_idle := nofun
    rdy_size := nofun
    padding_zero := fun _ _ => rfl
    dir_inputs := ⟨rfl, rfl, rfl⟩
    dir_outputs := ⟨rfl, rfl⟩
    memory_wf := Memory.wf_nil
    params_wf := hp
    now_nonneg := le_rfl }

/-- The invariant speaks neither of the environment nor of the controller. -/
theorem blockInv_endStep {s : State} (h : BlockInv s) (before : State) :
    BlockInv (endStep before s) :=
  { h with }

theorem blockInv_stallPeriod {s : State} (h : BlockInv s) : BlockInv (stallPeriod s) :=
  h.move (le_elapse_now 0 s) h.row

/-! ## The report -/

/-- PACK keeps the padding 0 (R24, R110). -/
theorem packed_padding {m : Memory} {n off : Nat} {v : Byte} (hm : m.wf)
    (h : ∀ a, a ≠ off → m.read a = 0x00#8) (a : Nat) (ha : a ≠ off) :
    ((Memory.zeroBelow n m).write off v).read a = 0x00#8 := by
  rw [read_packed hm, if_neg ha, h a ha, ite_self]

/-- DONE's size value is the size of the report (R19, R70 (c)). -/
theorem sizeValue_toNat {p : Params} (h : p.wf = true) : (sizeValue p).toNat = p.reportBytes := by
  simp only [Params.wf, Bool.and_eq_true, decide_eq_true_iff] at h
  obtain ⟨⟨⟨-, hlt⟩, -⟩, -⟩ := h
  rw [sizeValue, BitVec.toNat_ofNat, Nat.mod_eq_of_lt hlt]

/-! ## Every instruction keeps the invariant -/

/-- The count of LOOP: on with the next bit while it is below 8, out with 8 (R100). -/
theorem loop_count {i : BitVec 4} (h : countAllowed 0xA#4 i = true) :
    (i + 1#4 < 8#4 → countAllowed 0x5#4 (i + 1#4) = true) ∧
    (¬i + 1#4 < 8#4 → countAllowed 0xB#4 (i + 1#4) = true) := by
  revert i
  decide

/-- The micro-operation UPC selects keeps the invariant. -/
theorem blockInv_exec {s u : State} {i : Instr} (h : BlockInv s) (hd : decodePhase s.upc = .ok i)
    (he : exec i s = .next u) : BlockInv u := by
  have hnow := le_elapse_now 0 s
  have at_phase {p : PhaseCode} (hp : encode i = .uph p) := h.row_at (upc_of_decodePhase hd hp)
  cases exec_effect he with
  | nop => exact h.move hnow h.row
  | init _ taken =>
    have row := h.row_at (canTake_iff.1 taken).1
    exact PhaseFree.blockInv { h.free with
      now_nonneg := h.now_nonneg.trans hnow
      busy_inited := fun _ => rfl
      dir_inputs := ⟨rfl, rfl, rfl⟩
      dir_outputs := ⟨rfl, rfl⟩ } { row with pins := rfl }
  | createReport _ taken inited =>
    have row := h.row_at (canTake_iff.1 taken).1
    exact PhaseFree.blockInv { h.free with
      now_nonneg := h.now_nonneg.trans hnow
      busy_inited := fun _ => inited
      rdy_idle := nofun
      rdy_size := nofun }
      ⟨(by decide : 0x1#4 ≤ 0xD#4), rfl, row.count, row.pins, row.timer⟩
  | processReport _ taken => exact h.move hnow (h.row_at (canTake_iff.1 taken).1)
  | idle => exact h.move hnow (at_phase rfl)
  | clr =>
    have row := at_phase rfl
    exact h.move hnow ⟨by decide, row.busy, rfl, row.pins, row.timer⟩
  | latchHi =>
    have row := at_phase rfl
    exact h.move hnow
      ⟨by decide, row.busy, row.count, by rw [row.pins]; rfl, h.timer_loaded (by decide) rfl⟩
  | waitLatch =>
    have row := at_phase rfl
    exact blockInv_waitFor h ⟨by decide, row.busy, row.count, row.pins, rfl⟩
  | latchLo =>
    have row := at_phase rfl
    have hi : s.i = 0#4 := of_decide_eq_true row.count
    exact h.move hnow ⟨by decide, row.busy, by rw [hi]; rfl, by rw [row.pins]; rfl, row.timer⟩
  | sample =>
    have row := at_phase rfl
    exact h.move hnow ⟨by decide, row.busy, row.count, row.pins, row.timer⟩
  | clkHi =>
    have row := at_phase rfl
    exact h.move hnow
      ⟨by decide, row.busy, row.count, by rw [row.pins]; rfl, h.timer_loaded (by decide) rfl⟩
  | waitClkHi =>
    have row := at_phase rfl
    exact blockInv_waitFor h ⟨by decide, row.busy, row.count, row.pins, rfl⟩
  | clkLo =>
    have row := at_phase rfl
    exact h.move hnow
      ⟨by decide, row.busy, row.count, by rw [row.pins]; rfl, h.timer_loaded (by decide) rfl⟩
  | waitClkLo =>
    have row := at_phase rfl
    exact blockInv_waitFor h ⟨by decide, row.busy, row.count, row.pins, rfl⟩
  | loop =>
    have row := at_phase rfl
    obtain ⟨hon, hout⟩ := loop_count row.count
    split
    · next hlt => exact h.move hnow ⟨by decide, row.busy, hon hlt, row.pins, row.timer⟩
    · next hlt => exact h.move hnow ⟨by decide, row.busy, hout hlt, row.pins, row.timer⟩
  | decode =>
    have row := at_phase rfl
    exact h.move hnow ⟨by decide, row.busy, row.count, row.pins, row.timer⟩
  | pack =>
    have row := at_phase rfl
    exact PhaseFree.blockInv { h.free with
      now_nonneg := h.now_nonneg.trans hnow
      padding_zero := packed_padding h.memory_wf h.padding_zero
      memory_wf := Memory.write_wf (Memory.zeroBelow_wf h.memory_wf _) _ _ }
      ⟨(by decide : 0xD#4 ≤ 0xD#4), row.busy, row.count, row.pins, row.timer⟩
  | done =>
    have row := at_phase rfl
    have hi : s.i = 8#4 := of_decide_eq_true row.count
    exact PhaseFree.blockInv { h.free with
      now_nonneg := h.now_nonneg.trans hnow
      force_zero := rfl
      busy_inited := nofun
      rdy_idle := fun _ => rfl
      rdy_size := fun _ => sizeValue_toNat h.params_wf }
      ⟨(by decide : 0x0#4 ≤ 0xD#4), rfl, by rw [hi]; rfl, row.pins, row.timer⟩

/-- Settles O26: reset, a stalled period and the micro-operation UPC selects each keep the
invariant. -/
theorem stepKeepsInvariant : Obligations.StepKeepsInvariant := by
  intro s t h hs
  rcases step_next_cases hs with ⟨-, rfl⟩ | ⟨-, -, rfl⟩ | ⟨-, -, -, i, u, hd, he, rfl⟩
  · exact blockInv_endStep (blockInv_resetBlock h.params_wf) s
  · exact blockInv_endStep (blockInv_stallPeriod h) s
  · exact blockInv_endStep (blockInv_exec h hd he) s

end Sys2Proof.Machine
end

