-- ==== Sys2Proof/Proofs/State.lean ====
section
/-!
SUPPORT. The other statements about the state: which instructions write which field, where UPC goes,
the lines, reset.
-/

namespace Sys2Proof.Machine

/-- Settles O33: read off the effect of each instruction. -/
theorem onlyTheseWriteData : Obligations.OnlyTheseWriteData := by
  intro i s t h
  cases exec_effect h <;> simp

/-- Settles O34: read off the effect of each instruction; a command may have come through IDLE. -/
theorem onlyTheseWriteControl : Obligations.OnlyTheseWriteControl := by
  intro i s t h
  cases exec_effect h with
  | init presented => rcases presented with rfl | ⟨rfl, hc⟩ <;> simp [*, readForce]
  | createReport presented => rcases presented with rfl | ⟨rfl, hc⟩ <;> simp [*, readForce]
  | _ => simp +contextual [readForce]

/-- Settles O35: the effects name the successors; `waitFor_upc` says where a wait goes. -/
theorem phaseSuccessors : Obligations.PhaseSuccessors := by
  intro i s t h
  cases exec_effect h with
  | init presented => rcases presented with rfl | ⟨rfl, hc⟩ <;> simp [*]
  | createReport presented => rcases presented with rfl | ⟨rfl, hc⟩ <;> simp [*]
  | processReport presented => rcases presented with rfl | ⟨rfl, hc⟩ <;> simp [*]
  | idle quiet => simp [quiet]
  | waitLatch => exact waitFor_upc _ _ s
  | waitClkHi => exact waitFor_upc _ _ s
  | waitClkLo => exact waitFor_upc _ _ s
  | loop => exact ite_eq_or_eq _ _ _
  | _ => rfl

/-- Settles O36: INITED gives the directions, the row of the phase gives the levels. -/
theorem lineLevels : Obligations.LineLevels := by
  intro s h
  obtain ⟨hlatch, hclock⟩ := h.dir_outputs
  refine ⟨fun hi l => ?_, fun hi => ⟨?_, ?_⟩, rfl, rfl, rfl⟩
  · cases l <;> simp [lineLevel, hlatch, hclock, hi]
  · rw [lineLevel, hlatch, hi, h.row.pins]; rfl
  · rw [lineLevel, hclock, hi, h.row.pins]; rfl

/-- Settles O3: nothing pre-empts the step. -/
theorem stepExecutesPhase : Obligations.StepExecutesPhase := by
  intro s i hd hr hcmd hclk
  have hstall : stalled s = false := by
    rcases hclk with hclk | hclk <;> simp [stalled, hclk]
  rw [step_of_preempt_none (preempt_none hr (hcmd.imp_right canTake_iff.2) hstall) hd]
  cases exec i s <;> rfl

/-- Settles O5: row by row of R32's table. -/
theorem resetValues : Obligations.ResetValues :=
  ⟨rfl, rfl, rfl, rfl, rfl, rfl, rfl, rfl, rfl, rfl, by decide, rfl, fun _ => rfl, rfl, rfl⟩

/-- An empty trace in IDLE meets the timing invariant: nothing has happened that could be early. -/
theorem timingInv_of_no_event {s : State} (he : s.evt = []) (hp : s.upc = 0x0#4) : TimingInv s where
  minima := by rw [he]; rfl
  past := by simp [he]
  phase := by simp [PhaseTiming, hp]

/-- Settles O28: a state after reset is what `resetBlock` makes of a state with the same parameters,
and its trace is empty. -/
theorem resetMeetsInvariants : Obligations.ResetMeetsInvariants := by
  have hall (p : Params) (hp : p.wf = true) :
      BlockInv { State.reset with params := p } ∧ TimingInv { State.reset with params := p } :=
    ⟨blockInv_resetBlock (s := { State.reset with params := p }) hp, timingInv_of_no_event rfl rfl⟩
  exact ⟨hall {} rfl, hall⟩

end Sys2Proof.Machine
end

