-- ==== Sys2Proof/Proofs/Memory.lean ====
section
/-!
SUPPORT. The report space, its taking by the host, and the edges of the two output lines.
-/

namespace Sys2Proof.Machine

/-- Settles O24: the laws of `Memory.write` inside the report, the bound of `memRead` and `memWrite`
outside it. -/
theorem reportSpaceBounds : Obligations.ReportSpaceBounds := by
  refine ⟨fun s addr h => if_pos h, fun s addr v h hm => ?inside, fun s addr v h => ?outside,
    fun s h => execPack_fault h⟩
  case inside =>
    refine ⟨_, memWrite_ok h, rfl, Memory.write_wf hm addr v, ?same, fun b hb => ?other⟩
    case same => rw [memRead, if_pos h, Memory.read_write_same hm]
    case other => rw [memRead, memRead, Memory.read_write_other hb]
  case outside => exact ⟨if_neg h.not_gt, if_neg h.not_gt⟩

/-- Settles O38: the three cases of BUSY and RDY; the bytes given are the report's, in index order. -/
theorem takingTheReport : Obligations.TakingTheReport := by
  intro s
  refine ⟨fun hb => if_pos hb, fun hb hr => by simp [takeReport, hb, hr], fun hb hr => ?_⟩
  exact ⟨⟨reportImage s, s.size, readForce s⟩, by simp [takeReport, hb, hr], by simp [reportImage],
    fun addr h => by simp [reportImage, h], rfl, rfl⟩

/-- Settles O37: each pin micro-operation, and INIT, finds the latches as the row of its phase says,
so its write is an edge, and INIT's is none; every other instruction leaves the latches and adds no
event of a line. -/
theorem onePinEdgePerStep : Obligations.OnePinEdgePerStep := by
  intro s t h hr hs
  rcases step_next_cases hs with ⟨hr', -⟩ | ⟨-, -, rfl⟩ | ⟨-, -, -, i, u, hd, he, rfl⟩
  · exact absurd hr' (by simp [hr])
  · simp [stallPeriod]
  · have pins_at {p : PhaseCode} (hp : encode i = .uph p) : s.out = pinsIn p :=
      (h.row_at (upc_of_decodePhase hd hp)).pins
    cases exec_effect he with
    | init _ taken => simp [(h.row_at (canTake_iff.1 taken).1).pins, pinsIn]
    | latchHi => simp [pins_at rfl, pinsIn]
    | latchLo => simp [pins_at rfl, pinsIn]
    | clkHi => simp [pins_at rfl, pinsIn]
    | clkLo => simp [pins_at rfl, pinsIn]
    | _ => simp

end Sys2Proof.Machine
end

