-- ==== Sys2Proof/Proofs/Operation.lean ====
section
/-!
SUPPORT. A whole operation at step level, from every state one can start in: the run from the
acceptance of CREATE_REPORT to the first SAMPLE, from one SAMPLE to the next, and from DECODE to the
end (spec/30_encoding.md rule R73). What the eight samples read is left open; `ReadsLevels` names it.
-/

namespace Sys2Proof.Machine

/-! ## Runs with a quiet host -/

/-- At step level, with a host that keeps its duty of R89 in the 55 steps after this one, `n` steps
lead from `s` to `u`. The environment has gone on by `n` inputs; the parameters are the same. -/
structure Reaches (s : State) (n : Nat) (u : State) : Prop where
  clock : s.params.fClkHz = none
  quiet : Undisturbed s 55
  run : core.run n s = .next u
  ports : u.ports = inputAt s n
  script : u.script = s.script.drop n
  params : u.params = s.params

theorem headD_drop_script (s : State) (n : Nat) :
    (s.script.drop n).headD Input.quiet = inputAt s (n + 1) := by
  simp [inputAt, List.headD_eq_head?_getD, List.getD_eq_getElem?_getD]

/-- No instruction changes the parameters or what the environment will present. -/
theorem exec_environment {i : Instr} {s t : State} (h : exec i s = .next t) :
    t.params = s.params ∧ t.script = s.script := by
  cases exec_effect h <;> simp

theorem Reaches.start {s : State} (hclk : s.params.fClkHz = none) (hq : Undisturbed s 55) :
    Reaches s 0 s :=
  ⟨hclk, hq, rfl, rfl, rfl, rfl⟩

theorem Reaches.clock_at {s u : State} {n : Nat} (h : Reaches s n u) : u.params.fClkHz = none :=
  h.params ▸ h.clock

theorem Reaches.no_reset {s u : State} {n : Nat} (h : Reaches s n u) (h1 : 1 ≤ n := by omega)
    (h55 : n ≤ 55 := by omega) : u.ports.rst = false :=
  h.ports ▸ (h.quiet n h1 h55).2

/-- One step more: the micro-operation UPC selects is executed. -/
theorem Reaches.next {s u v : State} {n : Nat} {i : Instr} (h : Reaches s n u)
    (hr : (inputAt s n).rst = false) (hc : (inputAt s n).cmd = 0b00#2 ∨ canTake u = true)
    (hd : decodePhase u.upc = .ok i) (he : exec i u = .next v) :
    ∃ w, w = endStep u v ∧ Reaches s (n + 1) w := by
  obtain ⟨hp, hs⟩ := exec_environment he
  have hstall : stalled u = false := by simp [stalled, h.clock_at]
  have hstep : step u = .next (endStep u v) := by
    rw [step_of_preempt_none (preempt_none (h.ports ▸ hr) (h.ports ▸ hc) hstall) hd, he, finish]
  exact ⟨_, rfl, { h with
    run := by rw [run_append 1 h.run, run_next hstep]; rfl
    ports := by rw [endStep_ports, hs, h.script, headD_drop_script]
    script := by rw [endStep_script, hs, h.script, List.tail_drop]
    params := hp.trans h.params }⟩

/-- One step more, of the operation itself: the host presents nothing. -/
theorem Reaches.microOp {s u v : State} {n : Nat} (h : Reaches s n u) (i : Instr)
    (hd : decodePhase u.upc = .ok i) (he : exec i u = .next v)
    (h1 : 1 ≤ n := by omega) (h55 : n ≤ 55 := by omega) :
    ∃ w, w = endStep u v ∧ Reaches s (n + 1) w :=
  have ⟨hc, hr⟩ := h.quiet n h1 h55
  h.next hr (.inl hc) hd he

/-! ## The controller along a run -/

theorem latchHigh_eq (s : State) : latchHigh s = (s.dir.latch && s.out.latch) := by
  unfold latchHigh lineLevel
  cases s.dir.latch <;> cases s.out.latch <;> rfl

/-- The controller sees the lines as the step leaves them. -/
theorem pad_of_endStep {u v w : State} (h : w = endStep u v) : w.pad = padAfter u w := by
  rw [h]; rfl

/-- A micro-operation with LATCH low before and after it: a connected controller keeps its capture
(R154). -/
theorem Reaches.microOp_low {s u v : State} {n : Nat} (h : Reaches s n u) (i : Instr)
    (hd : decodePhase u.upc = .ok i) (he : exec i u = .next v)
    (hu : u.out.latch = false) (hv : v.out.latch = false)
    (h1 : 1 ≤ n := by omega) (h55 : n ≤ 55 := by omega) :
    ∃ w, w = endStep u v ∧ Reaches s (n + 1) w ∧ w.out.latch = false ∧
      ∀ held, (inputAt s n).data = .controller held → w.pad = u.pad := by
  obtain ⟨w, rfl, hw⟩ := h.microOp i hd he
  refine ⟨_, rfl, hw, hv, fun held hdata => ?_⟩
  exact padAfter_low h.no_reset (h.ports ▸ hdata) (by simp [latchHigh_eq, hu])
    (by simp [latchHigh_eq, hv])

/-- Buttons held in all three steps of the latch pulse are captured, in whichever of them the
controller captures (R53 (a), R54 (c)). -/
theorem pulse_captures {s u₂ u₃ u₄ u₅ : State} {p : ButtonState} (hp : ControllerAnswers s p)
    (r₂ : Reaches s 2 u₂) (r₃ : Reaches s 3 u₃) (r₄ : Reaches s 4 u₄)
    (pad₃ : u₃.pad = padAfter u₂ u₃) (pad₄ : u₄.pad = padAfter u₃ u₄) (pad₅ : u₅.pad = padAfter u₄ u₅)
    (low₂ : latchHigh u₂ = false) (high₃ : latchHigh u₃ = true) (high₄ : latchHigh u₄ = true)
    (low₅ : latchHigh u₅ = false) : u₅.pad.capture = .captured p := by
  obtain ⟨held, hc, hp⟩ := hp
  have data {n : Nat} {u : State} (r : Reaches s n u) (h2 : 2 ≤ n) (h4 : n ≤ 4) :
      u.ports.data = .controller p := by
    rw [r.ports, hc n h2 (by omega), hp n h2 h4]
  have latching₃ : u₃.pad.capture = .latching [p] := by
    rw [pad₃, padAfter_rise r₂.no_reset (data r₂ le_rfl (by omega)) low₂ high₃]
  have latching₄ : u₄.pad.capture = .latching [p, p] := by
    rw [pad₄, padAfter_high r₃.no_reset (data r₃ (by omega) (by omega)) high₃ high₄ latching₃]
    rfl
  have hcapture : captureOf u₄.pad.pulses [p, p] p = p := by
    simpa using captureOf_mem u₄.pad.pulses [p, p] p
  rw [pad₅, padAfter_fall r₄.no_reset (data r₄ (by omega) le_rfl) high₄ low₅ latching₄, hcapture]

/-! ## The trace of a read -/

/-- `l` is the trace of a read from its LATCH_RISE to SAMPLE `k`, and a sample at `now` would still
meet the minima of R145. -/
def ReadTrace (d : Nat → Level) (k : Nat) (l : List Stamped) (now : Time) : Prop :=
  l.map Prod.fst = .latchRise :: .latchFall :: (List.range k).flatMap (bitEvents d) ∧
  minimaHold (l ++ [(.sample 0#4 true, now)]) = true

/-- A trace meets the minima exactly when its two parts do that share one event. -/
theorem minimaHold_append_cons (l m : List Stamped) (x : Stamped) :
    minimaHold (l ++ x :: m) = (minimaHold (l ++ [x]) && minimaHold (x :: m)) := by
  induction l with
  | nil => simp
  | cons y l ih =>
    cases l with
    | nil => simp
    | cons z l =>
      simp only [List.cons_append, minimaHold_cons_cons] at ih ⊢
      rw [ih, Bool.and_assoc]

/-- A sample that meets the minima meets them later too, whatever it reads. -/
theorem minimaHold_sample {l : List Stamped} {t t' : Time}
    (h : minimaHold (l ++ [(.sample 0#4 true, t)]) = true) (ht : t ≤ t') (i : BitVec 4) (d : Level) :
    minimaHold (l ++ [(.sample i d, t')]) = true := by
  obtain ⟨hl, hlast⟩ := (minimaHold_append_one l _).1 h
  refine (minimaHold_append_one l _).2 ⟨hl, fun x hx => le_trans ?_ ht⟩
  obtain ⟨e, tx⟩ := x
  cases e <;> exact hlast _ hx

/-- The events of one bit keep the minima when the two waits between them last (R145). -/
theorem ReadTrace.next {d : Nat → Level} {k : Nat} {l : List Stamped} {t t₀ t₁ t₂ t₃ : Time}
    (h : ReadTrace d k l t) (h₀ : t ≤ t₀) (h₁ : t₀ ≤ t₁)
    (h₂ : t₁ + (tClkHiMin : Time) ≤ t₂) (h₃ : t₂ + (tClkLoMin : Time) ≤ t₃) :
    ReadTrace d (k + 1) (l ++ [(.sample (BitVec.ofNat 4 k) (d k), t₀),
      (.clockRise (BitVec.ofNat 4 k), t₁), (.clockFall (BitVec.ofNat 4 k), t₂)]) t₃ := by
  obtain ⟨hmap, hmin⟩ := h
  refine ⟨by simp [hmap, List.range_succ, bitEvents], ?_⟩
  rw [List.append_assoc, List.cons_append, minimaHold_append_cons, minimaHold_sample hmin h₀]
  simp [minGap, h₁, h₂, h₃]

/-! ## From SAMPLE to SAMPLE -/

/-- `u` is the state the operation that starts in `s` has reached before SAMPLE `k`, for `k = 8`
before DECODE, when the samples so far have read the levels `d`. -/
structure AtSample (s : State) (d : Nat → Level) (k : Nat) (u : State) : Prop where
  /-- R73 -/
  reaches : Reaches s (5 + 6 * k) u
  /-- R100 -/
  phase : u.upc = if k < 8 then 0x5#4 else 0xB#4
  count : u.i = BitVec.ofNat 4 k
  /-- R95 -/
  bits : ∀ j, j < k → u.acc.getLsbD (7 - j) = !d j
  rpt : u.rpt = s.rpt
  lines : u.dir = s.dir ∧ u.inited = s.inited
  /-- CLOCK is first written in the first bit (R96). -/
  out : u.out = ⟨false, decide (k = 0) && s.out.clock⟩
  /-- R86 -/
  trace : ∃ l, u.evt = s.evt ++ l ∧ ReadTrace d k l u.now
  /-- R154 -/
  capture : k < 8 → ∀ p, BlockInv s → ControllerAnswers s p → u.pad.capture = .captured p

/-- IDLE with CREATE_REPORT presented accepts it (R82, R90). -/
theorem Starts.accepted {s : State} (h : Starts s) : exec .idle s = .next { s with
    busy := true, rdy := false, upc := 0x1#4, now := (elapse 0 s).now } := by
  have hidle : execIdle s = execCreateReport s := by simp [execIdle, h.cmd]
  exact hidle.trans (execCreateReport_eq (canTake_iff.2 ⟨h.idle, h.not_busy⟩) h.inited)

/-- From the acceptance to the first SAMPLE (R73, R91 to R94). -/
theorem Starts.firstSample {s : State} (hs : Starts s) (hclk : s.params.fClkHz = none)
    (hq : Undisturbed s 55) (d : Nat → Level) : ∃ u, AtSample s d 0 u := by
  obtain ⟨u1, e1, r1⟩ := (Reaches.start hclk hq).next (i := .idle) hs.no_reset
    (.inr (canTake_iff.2 ⟨hs.idle, hs.not_busy⟩)) (by rw [hs.idle]; rfl) hs.accepted
  obtain ⟨u2, e2, r2⟩ := r1.microOp .clr (by rw [e1]; rfl) (execClr_eq u1)
  obtain ⟨u3, e3, r3⟩ := r2.microOp .latchHi (by rw [e2]; rfl) (execLatchHi_eq u2)
  obtain ⟨u4, e4, r4⟩ := r3.microOp .waitLatch (by rw [e3]; rfl)
    (congrArg Host.Outcome.next (waitFor_step tLatchMin 0x4#4 r3.clock_at))
  obtain ⟨u5, e5, r5⟩ := r4.microOp .latchLo (by rw [e4]; rfl) (execLatchLo_eq u4)
  refine ⟨u5, ⟨r5, ?phase, ?count, nofun, ?rpt, ?lines, ?out, ?trace, ?capture⟩⟩
  case phase => simp [e5]
  case count => simp [e5, e4, e3, e2]
  case rpt => simp [e5, e4, e3, e2, e1]
  case lines => simp [e5, e4, e3, e2, e1]
  case out => simp [e5, e4, e3, e2, e1]
  case trace =>
    have t4 : u3.now + (tLatchMin : Time) ≤ u4.now := by
      rw [e4]; exact le_add_of_nonneg_right (Delay_nonneg _)
    have t5 : u4.now ≤ u5.now := by rw [e5]; exact le_elapse_now 0 u4
    exact ⟨[(.latchRise, u3.now), (.latchFall, u5.now)], by simp [e5, e4, e3, e2, e1], rfl,
      by simp [minGap, t4.trans t5]⟩
  case capture =>
    intro _ p hb hp
    have hdir : s.dir.latch = true := hb.dir_outputs.1.trans hs.inited
    have hout : s.out.latch = false := by rw [(hb.row_at hs.idle).pins]; rfl
    exact pulse_captures hp r2 r3 r4 (pad_of_endStep e3) (pad_of_endStep e4) (pad_of_endStep e5)
      (by simp [latchHigh_eq, e2, e1, hout]) (by simp [latchHigh_eq, e3, e2, e1, hdir])
      (by simp [latchHigh_eq, e4, e3, e2, e1, hdir]) (by simp [latchHigh_eq, e5])

theorem AtSample.phase_lt {s u : State} {d : Nat → Level} {k : Nat} (h : AtSample s d k u)
    (hk : k < 8) : u.upc = 0x5#4 := by
  rw [h.phase, if_pos hk]

/-- SAMPLE `k` stores its bit beside the bits before it (R95). -/
theorem AtSample.stored {s u : State} {d : Nat → Level} {k : Nat} (h : AtSample s d k u)
    (hk : k < 8) {j : Nat} (hj : j < k + 1) : (storeBit (!d k) u).acc.getLsbD (7 - j) = !d j := by
  have hi : u.i.toNat = k := by rw [h.count, BitVec.toNat_ofNat]; omega
  rw [storeBit_getLsbD _ _ (by omega), hi]
  split
  · next hjk => rw [show j = k by omega]
  · next hjk => exact h.bits j (by omega)

/-- The test of LOOP, on the number of the bit (R100). -/
theorem loop_goes_on {k : Nat} (hk : k < 8) : BitVec.ofNat 4 k + 1#4 < 8#4 ↔ k + 1 < 8 := by
  interval_cases k <;> decide

/-- One bit: from SAMPLE `k`, which reads `d k`, to the next (R73, R95 to R100). -/
theorem AtSample.next {s u : State} {d : Nat → Level} {k : Nat} (h : AtSample s d k u) (hk : k < 8)
    (hd : (pinRead (elapse 0 u)).1 = d k) : ∃ w, AtSample s d (k + 1) w := by
  have l0 : u.out.latch = false := by rw [h.out]
  obtain ⟨u1, e1, r1, l1, k1⟩ := h.reaches.microOp_low .sample (by rw [h.phase_lt hk]; rfl)
    (execSample_eq u) l0 l0
  obtain ⟨u2, e2, r2, l2, k2⟩ := r1.microOp_low .clkHi (by rw [e1]; rfl) (execClkHi_eq u1) l1 l1
  obtain ⟨u3, e3, r3, l3, k3⟩ := r2.microOp_low .waitClkHi (by rw [e2]; rfl)
    (congrArg Host.Outcome.next (waitFor_step tClkHiMin 0x8#4 r2.clock_at)) l2 l2
  obtain ⟨u4, e4, r4, l4, k4⟩ := r3.microOp_low .clkLo (by rw [e3]; rfl) (execClkLo_eq u3) l3 l3
  obtain ⟨u5, e5, r5, l5, k5⟩ := r4.microOp_low .waitClkLo (by rw [e4]; rfl)
    (congrArg Host.Outcome.next (waitFor_step tClkLoMin 0xA#4 r4.clock_at)) l4 l4
  obtain ⟨u6, e6, r6, -, k6⟩ := r5.microOp_low .loop (by rw [e5]; rfl) (execLoop_eq u5) l5 l5
  obtain ⟨hupc, hi, hacc, hrpt, hdir, hinited, hout, hevt⟩ :
      u6.upc = (if u.i + 1#4 < 8#4 then 0x5#4 else 0xB#4) ∧ u6.i = u.i + 1#4 ∧
      u6.acc = (storeBit (!d k) u).acc ∧ u6.rpt = u.rpt ∧ u6.dir = u.dir ∧ u6.inited = u.inited ∧
      u6.out = ⟨u.out.latch, false⟩ ∧ u6.evt = u.evt ++
        [(Event.sample u.i (d k), u1.now), (Event.clockRise u.i, u2.now),
          (Event.clockFall u.i, u4.now)] := by
    simp [e6, e5, e4, e3, e2, e1, hd]
  refine ⟨u6, ⟨r6, ?phase, ?count, fun j hj => ?bits, hrpt.trans h.rpt, ?lines, ?out, ?trace,
    ?capture⟩⟩
  case phase => simp only [hupc, h.count, loop_goes_on hk]
  case count => rw [hi, h.count, BitVec.ofNat_add]
  case bits => rw [hacc, h.stored hk hj]
  case lines => rw [hdir, hinited]; exact h.lines
  case out => rw [hout, h.out]; rfl
  case trace =>
    obtain ⟨l, hl, htrace⟩ := h.trace
    have t1 : u.now ≤ u1.now := by rw [e1]; exact le_elapse_now 0 u
    have t2 : u1.now ≤ u2.now := by rw [e2]; exact le_elapse_now 0 u1
    have t3 : u2.now + (tClkHiMin : Time) ≤ u3.now := by
      rw [e3]; exact le_add_of_nonneg_right (Delay_nonneg _)
    have t4 : u3.now ≤ u4.now := by rw [e4]; exact le_elapse_now 0 u3
    have t5 : u4.now + (tClkLoMin : Time) ≤ u5.now := by
      rw [e5]; exact le_add_of_nonneg_right (Delay_nonneg _)
    have t6 : u5.now ≤ u6.now := by rw [e6]; exact le_elapse_now 0 u5
    exact ⟨_, by rw [hevt, hl, h.count, List.append_assoc],
      htrace.next t1 t2 (t3.trans t4) (t5.trans t6)⟩
  case capture =>
    intro hk' p hb hp
    obtain ⟨held, hc, -⟩ := id hp
    rw [k6 _ (hc _ (by omega) (by omega)), k5 _ (hc _ (by omega) (by omega)),
      k4 _ (hc _ (by omega) (by omega)), k3 _ (hc _ (by omega) (by omega)),
      k2 _ (hc _ (by omega) (by omega)), k1 _ (hc _ (by omega) (by omega))]
    exact h.capture hk p hb hp

/-! ## The end of the operation -/

/-- Each SAMPLE of the operation that starts in `s` reads the level `d` gives for its bit. -/
def ReadsLevels (s : State) (d : Nat → Level) : Prop :=
  ∀ k u, k < 8 → AtSample s d k u → (pinRead (elapse 0 u)).1 = d k

/-- The induction over the bits. -/
theorem Starts.atSample {s : State} {d : Nat → Level} (hs : Starts s) (hclk : s.params.fClkHz = none)
    (hq : Undisturbed s 55) (hd : ReadsLevels s d) {k : Nat} (hk : k ≤ 8) : ∃ u, AtSample s d k u := by
  induction k with
  | zero => exact hs.firstSample hclk hq d
  | succ k ih =>
    obtain ⟨u, hu⟩ := ih (by omega)
    exact hu.next hk (hd k u hk hu)

/-- DECODE, PACK and DONE, with all that the operation leaves unchanged from DECODE on (R73). -/
theorem AtSample.finish {s u : State} {d : Nat → Level} (h : AtSample s d 8 u)
    (ho : s.params.buttonOffset < s.params.reportBytes) :
    ∃ t, core.run 56 s = .next t ∧ t = { u with
      bs := decodeButtons u.acc
      rpt := (Memory.zeroBelow s.params.reportBytes s.rpt).write s.params.buttonOffset
        (packButtons (decodeButtons u.acc))
      size := sizeValue s.params
      force := false
      evt := u.evt ++ [(.reportReady (reportImage t), t.now)]
      busy := false
      rdy := true
      upc := 0x0#4
      now := t.now, ports := t.ports, script := t.script, pad := t.pad } := by
  obtain ⟨u1, e1, r1⟩ := h.reaches.microOp .decode (by rw [h.phase]; rfl) (execDecode_eq u)
  obtain ⟨u2, e2, r2⟩ := r1.microOp .pack (by rw [e1]; rfl) (execPack_eq (by rw [r1.params]; exact ho))
  obtain ⟨u3, e3, r3⟩ := r2.microOp .done (by rw [e2]; rfl) (execDone_eq u2)
  refine ⟨u3, r3.run, ?_⟩
  rw [← h.reaches.params, ← h.rpt, e3, e2, e1]
  rfl

theorem buttonOffset_lt {p : Params} (h : p.wf = true) : p.buttonOffset < p.reportBytes := by
  simp only [Params.wf, Bool.and_eq_true, decide_eq_true_iff] at h
  exact h.1.2

/-- What an operation computes from the levels its samples read: the accumulator, the flags and
every byte of the report (R85). -/
theorem Starts.result {s : State} {d : Nat → Level} (hs : Starts s) (hclk : s.params.fClkHz = none)
    (hq : Undisturbed s 55) (hd : ReadsLevels s d) :
    ∃ t, core.run 56 s = .next t ∧ t.rdy = true ∧
      (∀ k, k < 8 → t.acc.getLsbD (7 - k) = !d k) ∧ (∀ k, k < 8 → t.bs.get k = !d k) ∧
      ∀ addr, addr < s.params.reportBytes → t.rpt.read addr =
        if addr = s.params.buttonOffset then packButtons t.bs else 0x00#8 := by
  obtain ⟨u, hu⟩ := hs.atSample hclk hq hd le_rfl
  obtain ⟨t, hrun, ht⟩ := hu.finish (buttonOffset_lt hs.params_wf)
  refine ⟨t, hrun, by rw [ht], by rw [ht]; exact hu.bits, fun k hk => ?flags, fun addr ha => ?bytes⟩
  case flags => rw [ht, decodeButtons_get _ hk, hu.bits k hk]
  case bytes => rw [ht, read_packed hs.memory_wf, if_pos ha]

end Sys2Proof.Machine
end

