-- ==== Sys2Proof/Proofs/ControllerRead.lean ====
section
/-!
SUPPORT. What an operation reads from a well-behaved controller and from none
(spec/20_memory.md rules R53 and R55).
-/

namespace Sys2Proof.Machine

/-! ## Flags -/

theorem noButtons_get (k : Nat) : noButtons.get k = false := by
  unfold ButtonState.get
  split <;> rfl

/-- Buttons are their eight flags. -/
theorem ButtonState.ext_get {x y : ButtonState} (h : ∀ k, k < 8 → x.get k = y.get k) : x = y := by
  obtain ⟨⟩ := x
  obtain ⟨⟩ := y
  rw [ButtonState.mk.injEq]
  exact ⟨h 0 (by decide), h 1 (by decide), h 2 (by decide), h 3 (by decide), h 4 (by decide),
    h 5 (by decide), h 6 (by decide), h 7 (by decide)⟩

/-! ## No controller -/

/-- With nothing connected and a pull-up every SAMPLE reads high (R55). -/
theorem NothingConnected.readsLevels {s : State} (h : NothingConnected s)
    (hp : s.params.dataPullup = true) : ReadsLevels s fun _ => true := by
  intro k u hk hu
  rw [pinRead_floating]
  · rw [elapse_ports, hu.reaches.ports, h k hk]
  · rw [elapse_params, hu.reaches.params, hp]

/-- Settles O43: all samples are high, so no flag is set and PACK writes zeros only. -/
theorem absentControllerReadsReleased : Obligations.AbsentControllerReadsReleased := by
  intro s hs hclk hq hn hp
  obtain ⟨t, hrun, hrdy, hacc, hbs, hrpt⟩ := hs.result hclk hq (hn.readsLevels hp)
  refine ⟨t, hrun, hrdy, BitVec.eq_of_getLsbD_eq fun j hj => ?acc, hbs, fun addr ha => ?bytes⟩
  case acc =>
    rw [show j = 7 - (7 - j) by omega, hacc (7 - j) (by omega), BitVec.getLsbD_zero]
    rfl
  case bytes =>
    have hnone : t.bs = noButtons :=
      ButtonState.ext_get fun k hk => (hbs k hk).trans (noButtons_get k).symm
    rw [hrpt addr ha, hnone]
    exact ite_self _

/-! ## A well-behaved controller -/

/-- The controller has seen what follows the last LATCH_RISE. -/
theorem sinceLatch_append (e : List Stamped) (t : Time) {l : List Stamped}
    (h : ∀ x ∈ l, x.1 ≠ .latchRise) : sinceLatch (e ++ (.latchRise, t) :: l) = (.latchRise, t) :: l := by
  induction l using List.reverseRecOn with
  | nil => simp [sinceLatch_append_one]
  | append_singleton l y ih =>
    rw [← List.cons_append, ← List.append_assoc, sinceLatch_append_one,
      ih fun x hx => h x (by simp [hx]), if_neg (h y (by simp))]

/-- The trace of a read is all the controller has seen since LATCH rose. -/
theorem ReadTrace.sinceLatch_eq {d : Nat → Level} {k : Nat} {l : List Stamped} {now : Time}
    (h : ReadTrace d k l now) (e : List Stamped) : sinceLatch (e ++ l) = l := by
  obtain ⟨hmap, -⟩ := h
  cases l with
  | nil => simp at hmap
  | cons x l =>
    obtain ⟨x, t⟩ := x
    rw [List.map_cons, List.cons.injEq] at hmap
    obtain ⟨rfl, hmap⟩ := hmap
    refine sinceLatch_append e t fun y hy hrise => ?_
    have hmem : y.1 ∈ l.map Prod.fst := List.mem_map_of_mem hy
    simp [hmap, hrise, bitEvents] at hmem

theorem ReadTrace.any_event {d : Nat → Level} {k : Nat} {l : List Stamped} {now : Time}
    (h : ReadTrace d k l now) (f : Event → Bool) : (l.any fun x => f x.1) =
      (Event.latchRise :: .latchFall :: (List.range k).flatMap (bitEvents d)).any f := by
  rw [← h.1, List.any_map]
  rfl

/-- Events of a kind that each bit has once are as many as the finished bits. -/
theorem ReadTrace.count_event {d : Nat → Level} {k : Nat} {l : List Stamped} {now : Time}
    (h : ReadTrace d k l now) {f : Event → Bool} (hr : f .latchRise = false)
    (hf : f .latchFall = false) (hbit : ∀ j, (bitEvents d j).countP f = 1) :
    l.countP (fun x => f x.1) = k := by
  have hbits : ((List.range k).flatMap (bitEvents d)).countP f = k := by
    simp [List.countP_flatMap, Function.comp_def, hbit]
  have hmap : (l.map Prod.fst).countP f = k := by
    rw [h.1, List.countP_cons_of_neg (by simp [hr]), List.countP_cons_of_neg (by simp [hf]), hbits]
  rwa [List.countP_map] at hmap

/-- Before SAMPLE `k` the contract has the controller answer bit `k` of what it captured (R53). -/
theorem ReadTrace.contractLevel_eq {d : Nat → Level} {k : Nat} {l : List Stamped} {now t : Time}
    (h : ReadTrace d k l now) (hk : k < 8) (ht : now ≤ t) (p : ButtonState) (e : List Stamped) :
    contractLevel p (e ++ l) t = some (!p.get k) := by
  have rise : (l.any fun x => x.1.isLatchRise) = true := h.any_event _
  have fall : (l.any fun x => x.1.isLatchFall) = true := h.any_event _
  have rises : l.countP (fun x => x.1.isClockRise) = k := h.count_event rfl rfl fun _ => rfl
  have falls : l.countP (fun x => x.1.isClockFall) = k := h.count_event rfl rfl fun _ => rfl
  have minima := minimaHold_sample h.2 ht 0#4 true
  simp only [contractLevel, h.sinceLatch_eq, rise, fall, rises, falls, minima]
  simp [hk]

/-- A well-behaved controller answers every SAMPLE with a flag of what was held during the latch
pulse, low for pressed (R53, R154). -/
theorem ControllerAnswers.readsLevels {s : State} {p : ButtonState} (h : ControllerAnswers s p)
    (hb : BlockInv s) : ReadsLevels s fun k => !p.get k := by
  intro k u hk hu
  obtain ⟨held, hc, -⟩ := id h
  obtain ⟨l, hl, htrace⟩ := hu.trace
  rw [pinRead_controller (held := held (5 + 6 * k)) (p := p)]
  · rw [elapse_ports, hu.reaches.ports, hc _ (by omega) (by omega)]
  · rw [elapse_pad, hu.capture hk p hb h]
  · rw [elapse_evt, hl, htrace.contractLevel_eq hk (le_elapse_now 0 u)]

/-- Settles O42: the samples are the inverted flags of `p`, and SAMPLE inverts them again. -/
theorem controllerIsReadCorrectly : Obligations.ControllerIsReadCorrectly := by
  intro s p hb hs hclk hq hp
  obtain ⟨t, hrun, hrdy, -, hbs, hrpt⟩ := hs.result hclk hq (hp.readsLevels hb)
  have hread : t.bs = p := ButtonState.ext_get fun k hk => by rw [hbs k hk, Bool.not_not]
  refine ⟨t, hrun, hrdy, hread, fun k hk => ?_⟩
  rw [hrpt _ (buttonOffset_lt hs.params_wf), if_pos rfl, packButtons_getLsbD _ hk, hread]

end Sys2Proof.Machine
end

