-- ==== Sys2Proof/Proofs/Encoding.lean ====
section
/-!
SUPPORT. The two encoding tables, read in both directions (spec/30_encoding.md rules R67 to R69).
-/

namespace Sys2Proof.Machine

/-! ## The two tables -/

/-- Settles O1: word by word, as the tables of R67 and R68 list them. -/
theorem codeTablesDecode : Obligations.CodeTablesDecode :=
  ⟨rfl, rfl, rfl, rfl, rfl, rfl, rfl, rfl, rfl, rfl, rfl, rfl, rfl, rfl, rfl, rfl, rfl, rfl⟩

/-- The decoder reads every instruction back from its word (R67, R68). -/
theorem decode_encode (i : Instr) : decode (encode i) = .ok i := by
  cases i <;> rfl

/-- The command a CMD code decodes to has that code (R67). -/
theorem encode_decodeCmd (c : CmdCode) : encode (decodeCmd c) = .cmd c := by
  revert c
  decide

/-- The word of the instruction a word decodes to is that word. -/
theorem encode_of_decode {cw : CodeWord} {i : Instr} (h : decode cw = .ok i) : encode i = cw := by
  cases cw with
  | cmd c =>
    obtain rfl : decodeCmd c = i := Except.ok.inj h
    exact encode_decodeCmd c
  | uph c => exact encode_of_decodePhase h

/-- The two codes R69 reserves are the ones the decoder rejects. -/
theorem decodePhase_reserved_iff (c : PhaseCode) :
    decodePhase c = .error (.reservedPhase c) ↔ c = 0xE#4 ∨ c = 0xF#4 := by
  revert c
  decide

/-- Settles O2: both directions for both formats, the reserved codes, and that no CMD code is
reserved. -/
theorem decodeEncodeAgree : Obligations.DecodeEncodeAgree :=
  ⟨decode_encode, fun _ _ => encode_of_decode, decodePhase_reserved_iff, fun _ => ⟨_, rfl⟩⟩

end Sys2Proof.Machine
end

