-- ==== Sys2Proof/Proofs/MicroOp.lean ====
section
/-!
SUPPORT. One micro-operation from its first clock period to its last, at step level and at tick
level: the stalled periods before it, the countdown of a wait, and the step that completes it
(spec/70_reset_and_hazards.md rules R145, R148 and R156).
-/

namespace Sys2Proof.Machine

/-! ## Runs on which a condition holds -/

/-- `n` steps lead from the first state to the second, and `P` holds before each of them. -/
inductive RunWhile (P : State → Prop) : Nat → State → State → Prop
  | nil (s : State) : RunWhile P 0 s s
  | cons {n : Nat} {s t u : State} (here : P s) (first : step s = .next t)
      (rest : RunWhile P n t u) : RunWhile P (n + 1) s u

namespace RunWhile

variable {P Q : State → Prop} {m n : Nat} {s t u : State}

theorem mono (h : RunWhile P n s t) (hPQ : ∀ x, P x → Q x) : RunWhile Q n s t := by
  induction h with
  | nil s => exact .nil s
  | cons here first _ ih => exact .cons (hPQ _ here) first ih

theorem trans (h : RunWhile P m s t) (h' : RunWhile P n t u) : RunWhile P (m + n) s u := by
  induction h with
  | nil s => rwa [Nat.zero_add]
  | cons here first _ ih => rw [Nat.add_right_comm]; exact .cons here first (ih h')

theorem concat (h : RunWhile P n s t) (here : P t) (last : step t = .next u) :
    RunWhile P (n + 1) s u :=
  h.trans (.cons here last (.nil u))

theorem run (h : RunWhile P n s t) : core.run n s = .next t := by
  induction h with
  | nil s => rfl
  | cons _ first _ ih => rw [run_next first, ih]

theorem run_lt (h : RunWhile P n s t) {k : Nat} (hk : k < n) :
    ∃ v, core.run k s = .next v ∧ P v := by
  induction h generalizing k with
  | nil => omega
  | cons here first _ ih =>
    cases k with
    | zero => exact ⟨_, rfl, here⟩
    | succ k =>
      obtain ⟨v, hv, hP⟩ := ih (Nat.lt_of_succ_lt_succ hk)
      exact ⟨v, (run_next first).trans hv, hP⟩

/-- A line's run goes on until the state is final. -/
theorem untilFinal_eq (h : RunWhile P n s t) (hP : ∀ x, P x → isFinal x = false) (fuel : Nat) :
    untilFinal (n + fuel) s = untilFinal fuel t := by
  induction h with
  | nil s => rw [Nat.zero_add]
  | cons here first _ ih => rw [Nat.add_right_comm, untilFinal_step (hP _ here) first, ih]

end RunWhile

/-! ## Inputs to come -/

/-- The environment presents these inputs from here on, the first of them now, and then nothing. -/
def Pending (u : State) (inputs : List Input) : Prop := u = u.present inputs

theorem Pending.ports {u : State} {p : Input} {rest : List Input} (h : Pending u (p :: rest)) :
    u.ports = p := by
  rw [h]; rfl

theorem Pending.script {u : State} {p : Input} {rest : List Input} (h : Pending u (p :: rest)) :
    u.script = rest := by
  rw [h]; rfl

@[simp] theorem present_params (s : State) (inputs : List Input) :
    (s.present inputs).params = s.params := rfl

theorem pending_present (s : State) (inputs : List Input) : Pending (s.present inputs) inputs := rfl

/-- A step uses up one input. -/
theorem Pending.endStep {u v : State} {p : Input} {rest : List Input} (h : Pending u (p :: rest))
    (hv : v.script = u.script) : Pending (endStep u v) rest := by
  rw [← h.script, ← hv]; rfl

/-! ## Periods that leave the block where it is -/

/-- The block is as in `u`: only time has passed, for the down-counter, the environment and the
connected controller too. -/
def Alike (u x : State) : Prop :=
  x = { u with now := x.now, tmr := x.tmr, ports := x.ports, script := x.script, pad := x.pad }

theorem Alike.refl (u : State) : Alike u u := rfl

theorem Alike.trans {u v w : State} (h : Alike u v) (h' : Alike v w) : Alike u w := by
  unfold Alike at *
  rw [h', h]

theorem Alike.upc {u v : State} (h : Alike u v) : v.upc = u.upc := by rw [h]
theorem Alike.busy {u v : State} (h : Alike u v) : v.busy = u.busy := by rw [h]
theorem Alike.inited {u v : State} (h : Alike u v) : v.inited = u.inited := by rw [h]
theorem Alike.params {u v : State} (h : Alike u v) : v.params = u.params := by rw [h]

/-- `n` clock periods in which the block stays as it is lead from `u` to `v`, where these inputs are
still to come. -/
structure Passes (f n : Nat) (u v : State) (rest : List Input) : Prop where
  run : RunWhile (Alike u) n u v
  alike : Alike u v
  pending : Pending v rest
  now : v.now = u.now + (n : Time) * period f

theorem Passes.none {u : State} {rest : List Input} (f : Nat) (h : Pending u rest) :
    Passes f 0 u u rest :=
  ⟨.nil u, .refl u, h, by simp⟩

theorem Passes.first {f n : Nat} {u t v : State} {rest : List Input} (hs : step u = .next t)
    (ha : Alike u t) (hnow : t.now = u.now + period f) (h : Passes f n t v rest) :
    Passes f (n + 1) u v rest where
  run := .cons (.refl u) hs (h.run.mono fun _ => ha.trans)
  alike := ha.trans h.alike
  pending := h.pending
  now := by rw [h.now, hnow]; push_cast; ring

/-- A step that nothing pre-empts, with the instruction it executes. -/
theorem step_executes {u v : State} {i : Instr} (hr : u.ports.rst = false)
    (hc : u.ports.cmd = 0b00#2 ∨ canTake u = true)
    (hs : u.params.fClkHz = none ∨ u.ports.stall = false)
    (hd : decodePhase u.upc = .ok i) (he : exec i u = .next v) : step u = .next (endStep u v) := by
  have hstall : stalled u = false := by rcases hs with hs | hs <;> simp [stalled, hs]
  rw [step_of_preempt_none (preempt_none hr hc hstall) hd, he, finish]

/-- Stalled periods change nothing but time (R156). -/
theorem stalls_pass {f : Nat} (n : Nat) {u : State} {rest : List Input}
    (hf : u.params.fClkHz = some f)
    (hp : Pending u (List.replicate n { Input.quiet with stall := true } ++ rest)) :
    ∃ v, Passes f n u v rest ∧ v.tmr = u.tmr := by
  induction n generalizing u with
  | zero => exact ⟨u, .none f hp, rfl⟩
  | succ n ih =>
    rw [List.replicate_succ, List.cons_append] at hp
    have hstep : step u = .next (endStep u (stallPeriod u)) := by
      rw [step, preempt_stall (by rw [hp.ports]; rfl) (.inl (by rw [hp.ports]; rfl))
        (by simp [stalled, hf, hp.ports])]
    obtain ⟨v, hv, htmr⟩ := ih (u := endStep u (stallPeriod u)) hf (hp.endStep rfl)
    exact ⟨v, .first hstep rfl (elapse_now_tick 0 hf) hv, htmr⟩

/-! ## What each micro-operation does in its last step -/

/-- What `Executable` asks of TMR at tick level: the tick count, at the start of a wait (R156). -/
def TimerReady (i : Instr) (tmr f : Nat) : Prop :=
  (i = .waitLatch → tmr = tickCount tLatchMin f) ∧
  (i = .waitClkHi → tmr = tickCount tClkHiMin f) ∧
  (i = .waitClkLo → tmr = tickCount tClkLoMin f)

/-- An instruction that is no wait asks nothing of TMR. -/
theorem timerReady_instant {i : Instr} (hi : leastWait i = 0) (tmr f : Nat) :
    TimerReady i tmr f := by
  refine ⟨?_, ?_, ?_⟩ <;> rintro rfl <;> cases hi

/-- A micro-operation whose body is `Wait(t)` and then `UPC <- q` (R93, R97, R99). -/
structure IsWait (i : Instr) (t : Nat) (q : PhaseCode) : Prop where
  exec_eq (s : State) : exec i s = .next (waitFor t q s)
  least : leastWait i = t
  long : 1 ≤ t
  moves : encode i ≠ .uph q
  timer (tmr f : Nat) : TimerReady i tmr f ↔ tmr = tickCount t f

theorem isWait_waitLatch : IsWait .waitLatch tLatchMin 0x4#4 :=
  ⟨fun _ => rfl, rfl, by decide, by decide, by simp [TimerReady]⟩

theorem isWait_waitClkHi : IsWait .waitClkHi tClkHiMin 0x8#4 :=
  ⟨fun _ => rfl, rfl, by decide, by decide, by simp [TimerReady]⟩

theorem isWait_waitClkLo : IsWait .waitClkLo tClkLoMin 0xA#4 :=
  ⟨fun _ => rfl, rfl, by decide, by decide, by simp [TimerReady]⟩

/-- Every instruction is a wait or takes no time of its own (R145, R146). -/
theorem wait_or_leastWait_zero (i : Instr) : (∃ t q, IsWait i t q) ∨ leastWait i = 0 := by
  cases i with
  | waitLatch => exact .inl ⟨_, _, isWait_waitLatch⟩
  | waitClkHi => exact .inl ⟨_, _, isWait_waitClkHi⟩
  | waitClkLo => exact .inl ⟨_, _, isWait_waitClkLo⟩
  | _ => exact .inr rfl

/-- An instruction that is no wait takes one step, at tick level too (R156). -/
theorem stepCount_instant (p : Params) {i : Instr} (hi : leastWait i = 0) : stepCount p i = 1 := by
  cases hf : p.fClkHz with
  | none => exact stepCount_step hf i
  | some f => rw [stepCount_tick hf, hi, tickCount]; omega

/-- An instruction that is no wait has the instant of its one step. -/
theorem exec_now {i : Instr} {s t : State} (hi : leastWait i = 0) (h : exec i s = .next t) :
    t.now = (elapse 0 s).now := by
  cases exec_effect h with
  | waitLatch | waitClkHi | waitClkLo => cases hi
  | _ => rfl

/-- A micro-operation that is no wait leaves its phase, IDLE apart. -/
theorem exec_leaves_phase {i : Instr} {s t : State} (hd : decodePhase s.upc = .ok i)
    (hi : leastWait i = 0) (hidle : i ≠ .idle) (h : exec i s = .next t) : t.upc ≠ s.upc := by
  have hphase {p : PhaseCode} (hp : encode i = .uph p) : s.upc = p := upc_of_decodePhase hd hp
  have hcode : encode i = .uph s.upc := encode_of_decodePhase hd
  cases exec_effect h with
  | nop => cases hcode
  | init presented | createReport presented | processReport presented =>
    rcases presented with rfl | ⟨rfl, -⟩ <;> contradiction
  | idle => contradiction
  | waitLatch | waitClkHi | waitClkLo => cases hi
  | loop => rw [hphase rfl]; dsimp only; split <;> decide
  | _ => rw [hphase rfl]; simp only [ne_eq]; decide

/-! Which meaning IDLE executes for the command on the port (R90). -/

theorem execIdle_nop {s : State} (h : s.ports.cmd = 0b00#2) :
    exec .idle s = .next { s with upc := 0x0#4, now := (elapse 0 s).now } := by
  simp [exec, execIdle, h, jump_elapse]

theorem execIdle_init {s : State} (h : s.ports.cmd = 0b01#2) : exec .idle s = execInit s := by
  simp [exec, execIdle, h]

theorem execIdle_createReport {s : State} (h : s.ports.cmd = 0b10#2) :
    exec .idle s = execCreateReport s := by
  simp [exec, execIdle, h]

theorem execIdle_processReport {s : State} (h : s.ports.cmd = 0b11#2) :
    exec .idle s = execProcessReport s := by
  simp [exec, execIdle, h]

/-- A micro-operation UPC selects completes under parameters R6 allows, IDLE where it can take the
command presented (R84, R120). -/
theorem phase_exec_next {i : Instr} {s : State} (hd : decodePhase s.upc = .ok i)
    (hp : s.params.wf = true) (hc : i = .idle → s.ports.cmd = 0b00#2 ∨
      canTake s = true ∧ (s.ports.cmd = 0b10#2 → s.inited = true)) :
    ∃ t, exec i s = .next t := by
  have hcode : encode i = .uph s.upc := encode_of_decodePhase hd
  cases i with
  | nop | init | createReport | processReport => cases hcode
  | idle =>
    rcases hc rfl with hc | ⟨ht, hi⟩
    · exact ⟨_, execIdle_nop hc⟩
    · rcases execIdle_cases s with ⟨-, he⟩ | ⟨-, he⟩ | ⟨hcmd, he⟩ | ⟨-, he⟩
      · exact ⟨_, he⟩
      · exact ⟨_, he.trans (execInit_eq ht)⟩
      · exact ⟨_, he.trans (execCreateReport_eq ht (hi hcmd))⟩
      · exact ⟨_, he.trans (execProcessReport_eq ht)⟩
  | pack => exact ⟨_, execPack_eq (buttonOffset_lt hp)⟩
  | _ => exact ⟨_, rfl⟩

/-! ## From the first period to the last -/

theorem leastDuration_step {p : Params} (hf : p.fClkHz = none) (i : Instr) :
    leastDuration p i = leastWait i := by
  simp [leastDuration, hf]

theorem leastDuration_tick {p : Params} {f : Nat} (hf : p.fClkHz = some f) (i : Instr) :
    leastDuration p i = (stepCount p i : Time) * period f := by
  simp [leastDuration, hf]

namespace Executable

variable {u v : State} {i : Instr} {p : Input}

theorem of_alike (h : Executable u i p) (ha : Alike u v) (ht : v.tmr = u.tmr) :
    Executable v i p where
  selected := ha.upc ▸ h.selected
  params_wf := ha.params ▸ h.params_wf
  no_reset := h.no_reset
  not_stalled := ha.params ▸ h.not_stalled
  command := by rw [ha.upc, ha.busy, ha.inited]; exact h.command
  timer := by rw [ha.params, ht]; exact h.timer

/-- The step in which the micro-operation is executed. -/
theorem step_eq (h : Executable u i p) (ha : Alike u v) (hp : v.ports = p) {w : State}
    (he : exec i v = .next w) : step v = .next (endStep v w) := by
  refine step_executes (hp ▸ h.no_reset) ?_ (by rw [ha.params, hp]; exact h.not_stalled)
    (ha.upc ▸ h.selected) he
  rw [hp, canTake_iff, ha.upc, ha.busy]
  exact h.command.imp_right fun ⟨hu, hb, _⟩ => ⟨hu, hb⟩

/-- A micro-operation that is no wait takes one step, and no more than that. -/
theorem runs_once (h : Executable u i p) (hi : leastWait i = 0) {rest : List Input}
    (hp : Pending u (List.replicate (stepCount u.params i) p ++ rest)) {w : State}
    (he : exec i u = .next w) :
    RunWhile (Alike u) (stepCount u.params i) u (endStep u w) ∧ Pending (endStep u w) rest := by
  rw [stepCount_instant _ hi] at hp ⊢
  exact ⟨.cons (.refl u) (h.step_eq (.refl u) hp.ports he) (.nil _),
    hp.endStep (exec_environment he).2⟩

/-- The countdown of a wait: the periods before its last (R156). -/
theorem countdown_passes {t f : Nat} {q : PhaseCode} (hi : IsWait i t q) (n : Nat)
    (h : Executable u i p) (hf : u.params.fClkHz = some f) {rest : List Input} {x : State}
    (ha : Alike u x) (hx : x.tmr = n + 1) (hp : Pending x (List.replicate n p ++ rest)) :
    ∃ v, Passes f n x v rest ∧ v.tmr = 1 := by
  induction n generalizing x with
  | zero => exact ⟨x, .none f hp, hx⟩
  | succ n ih =>
    have hfx : x.params.fClkHz = some f := by rw [ha.params, hf]
    have he := (hi.exec_eq x).trans (congrArg _ (waitFor_count t q hfx (by omega)))
    have hax : Alike x (endStep x { x with tmr := x.tmr - 1, now := x.now + period f }) := rfl
    obtain ⟨v, hv, htmr⟩ := ih (ha.trans hax) (by simp [hx]) (hp.endStep rfl)
    exact ⟨v, .first (h.step_eq ha hp.ports he) hax rfl hv, htmr⟩

/-- A wait takes its tick count of periods, one step at step level, and goes on to its successor
(R93, R97, R99, R156). -/
theorem runs_wait {t : Nat} {q : PhaseCode} (h : Executable u i p) (hi : IsWait i t q)
    {rest : List Input} (hp : Pending u (List.replicate (stepCount u.params i) p ++ rest)) :
    ∃ v, RunWhile (Alike u) (stepCount u.params i) u v ∧ Pending v rest ∧
      v = { u with
        upc := q, now := v.now, tmr := v.tmr, ports := v.ports, script := v.script, pad := v.pad } ∧
      (u.params.fClkHz = none → v.now = u.now + (t : Time) + p.extra.toTime) ∧
      (∀ f, u.params.fClkHz = some f →
        v.now = u.now + (stepCount u.params i : Time) * period f) := by
  cases hf : u.params.fClkHz with
  | none =>
    rw [stepCount_step hf] at hp ⊢
    have he := (hi.exec_eq u).trans (congrArg _ (waitFor_step t q hf))
    exact ⟨_, .cons (.refl u) (h.step_eq (.refl u) hp.ports he) (.nil _), hp.endStep rfl, rfl,
      fun _ => by rw [← hp.ports]; rfl, nofun⟩
  | some f =>
    have hpos : 1 ≤ tickCount t f := tickCount_pos hi.long (one_le_clock h.params_wf hf)
    obtain ⟨n, hn⟩ : ∃ n, tickCount t f = n + 1 := ⟨_, (Nat.sub_add_cancel hpos).symm⟩
    have hcount : stepCount u.params i = n + 1 := by rw [stepCount_tick hf, hi.least, hn]; omega
    rw [hcount] at hp ⊢
    rw [List.replicate_succ', List.append_assoc] at hp
    have hloaded : u.tmr = tickCount t f := (hi.timer _ f).1 (h.timer f hf)
    obtain ⟨x, hx, htmr⟩ := h.countdown_passes hi n hf (.refl u) (hloaded.trans hn) hp
    have hfx : x.params.fClkHz = some f := by rw [hx.alike.params, hf]
    have he := (hi.exec_eq x).trans (congrArg _ (waitFor_last t q hfx (by omega)))
    refine ⟨_, hx.run.concat hx.alike (h.step_eq hx.alike hx.pending.ports he),
      hx.pending.endStep rfl, ?frame, nofun, fun g hg => ?now⟩
    case frame => rw [hx.alike]; rfl
    case now =>
      cases hg
      rw [endStep_now, hx.now, Nat.cast_succ, add_one_mul, add_assoc]

/-- A micro-operation run from its first period to its last, whatever comes after: UPC selects it
before each of its steps and not after them, IDLE apart; and how long it takes (R145, R148,
R156). -/
theorem runs (h : Executable u i p) {rest : List Input}
    (hp : Pending u (List.replicate (stepCount u.params i) p ++ rest)) :
    ∃ v, RunWhile (Alike u) (stepCount u.params i) u v ∧ (i ≠ .idle → v.upc ≠ u.upc) ∧
      (u.params.fClkHz = none → v.now = u.now + (leastWait i : Time) + p.extra.toTime) ∧
      (∀ f, u.params.fClkHz = some f →
        v.now = u.now + (stepCount u.params i : Time) * period f) := by
  rcases wait_or_leastWait_zero i with ⟨t, q, hi⟩ | hi
  · obtain ⟨v, hrun, -, hv, hnow⟩ := h.runs_wait hi hp
    refine ⟨v, hrun, fun _ hupc => hi.moves ?_, hi.least ▸ hnow⟩
    rw [encode_of_decodePhase h.selected, ← hupc, hv]
  · have hports : u.ports = p := (stepCount_instant _ hi ▸ hp).ports
    obtain ⟨w, he⟩ := phase_exec_next h.selected h.params_wf fun _ => by
      rw [hports, canTake_iff]
      exact h.command.imp_right fun ⟨hu, hb, hc⟩ => ⟨⟨hu, hb⟩, hc⟩
    refine ⟨endStep u w, (h.runs_once hi hp he).1,
      fun hidle => exec_leaves_phase (t := w) h.selected hi hidle he, fun hf => ?_, fun f hf => ?_⟩
    · rw [endStep_now, exec_now hi he, elapse_now_step 0 hf, hi, hports]
    · rw [endStep_now, exec_now hi he, elapse_now_tick 0 hf, stepCount_instant _ hi, Nat.cast_one,
        one_mul]

/-- The same at tick level after stalled periods. -/
theorem runs_after_stalls (h : Executable u i p) {f : Nat} (hf : u.params.fClkHz = some f) (n : Nat)
    {rest : List Input} (hp : Pending u (List.replicate n { Input.quiet with stall := true } ++
      (List.replicate (stepCount u.params i) p ++ rest))) :
    ∃ v, RunWhile (Alike u) (n + stepCount u.params i) u v ∧ (i ≠ .idle → v.upc ≠ u.upc) ∧
      v.now = u.now + leastDuration u.params i + (n : Time) * period f := by
  obtain ⟨x, hx, htmr⟩ := stalls_pass n hf hp
  obtain ⟨v, hrun, hmoved, -, hnow⟩ :=
    (h.of_alike hx.alike htmr).runs (by rw [hx.alike.params]; exact hx.pending)
  rw [hx.alike.upc] at hmoved
  rw [hx.alike.params] at hrun hnow
  refine ⟨v, hx.run.trans (hrun.mono fun _ => hx.alike.trans), hmoved, ?_⟩
  rw [hnow f hf, hx.now, leastDuration_tick hf, add_right_comm]

end Executable

/-! ## The timed form -/

/-- The least wait as R145 lists it. -/
theorem leastWait_eq (i : Instr) : leastWait i =
    if i = .waitLatch then 12 else if i = .waitClkHi ∨ i = .waitClkLo then 6 else 0 := by
  cases i <;> rfl

theorem period_pos {f : Nat} (hf : 1 ≤ f) : 0 < period f := by
  have : (0 : Time) < f := by exact_mod_cast hf
  unfold period
  positivity

/-- A whole number of periods is had by as many stalled ones (R156). -/
theorem lengthenBy_periods {p : Params} {f : Nat} (hf : p.fClkHz = some f) (hpos : 1 ≤ f)
    (n : Nat) : lengthenBy p ((n : Time) * period f) =
      some (List.replicate n { Input.quiet with stall := true }, ⟨0, 1⟩) := by
  have hn : (n : Time) * period f / period f = n := mul_div_cancel_right₀ _ (period_pos hpos).ne'
  simp [lengthenBy, hf, hn]

/-- At tick level nothing but a whole number of periods can be had. -/
theorem lengthenBy_tick_some {p : Params} {f : Nat} (hf : p.fClkHz = some f) (hpos : 1 ≤ f)
    {x : Time} {l : List Input × Delay} (h : lengthenBy p x = some l) :
    ∃ n : Nat, x = (n : Time) * period f ∧
      l = (List.replicate n { Input.quiet with stall := true }, ⟨0, 1⟩) := by
  obtain ⟨hx, hl⟩ : (0 ≤ x / period f ∧ (x / period f).den = 1) ∧ _ :=
    (Option.ite_none_right_eq_some).1 (by simpa only [lengthenBy, hf] using h)
  have hnum : 0 ≤ (x / period f).num := Rat.num_nonneg.2 hx.1
  refine ⟨_, ?_, (Option.some.inj hl).symm⟩
  rw [← Int.cast_natCast, Int.toNat_of_nonneg hnum, Rat.coe_int_num_of_den_eq_one hx.2,
    div_mul_cancel₀ _ (period_pos hpos).ne']

theorem timedInputs_eq_some {p : Params} {now t : Time} {i : Instr} {presented : Input}
    {r : List Input × Time} : timedInputs p now i presented (some t) = some r ↔
      ∃ l, lengthenBy p (t - (now + leastDuration p i)) = some l ∧
        r = (l.1 ++ List.replicate (stepCount p i) { presented with extra := l.2 }, t) := by
  simp [timedInputs, eq_comm]

/-- Another input that differs in its lengthening only, and inputs to come. -/
theorem Executable.present {s : State} {i : Instr} {p : Input} (h : Executable s i p) (d : Delay)
    (inputs : List Input) : Executable (s.present inputs) i { p with extra := d } :=
  ⟨h.selected, h.params_wf, h.no_reset, h.not_stalled, h.command, h.timer⟩

/-- The inputs of the timed form run the micro-operation and end at its instant: at step level in
one lengthened step, at tick level in the stalled periods and then its own. -/
theorem Executable.timed_runs {s : State} {i : Instr} {p : Input} {t : Time} {inputs : List Input}
    (h : Executable s i p) (hin : timedInputs s.params s.now i p (some t) = some (inputs, t)) :
    ∃ v, RunWhile (Alike (s.present inputs)) inputs.length (s.present inputs) v ∧ v.now = t ∧
      (i ≠ .idle → v.upc ≠ s.upc) := by
  obtain ⟨l, hl, hr⟩ := timedInputs_eq_some.1 hin
  obtain ⟨rfl, -⟩ := Prod.mk.inj hr
  have hp := pending_present s
    (l.1 ++ (List.replicate (stepCount s.params i) { p with extra := l.2 } ++ []))
  cases hf : s.params.fClkHz with
  | none =>
    have hx : 0 ≤ t - (s.now + leastDuration s.params i) :=
      not_lt.1 fun hneg => by cases (lengthenBy_neg hf hneg).symm.trans hl
    obtain ⟨d, hd, hdx⟩ := lengthenBy_step hf hx
    obtain rfl := Option.some.inj (hd.symm.trans hl)
    obtain ⟨v, hrun, hmoved, hnow, -⟩ := (h.present d _).runs hp
    refine ⟨v, by simpa using hrun, ?_, hmoved⟩
    rw [hnow hf, hdx, leastDuration_step hf]
    exact add_sub_cancel _ _
  | some f =>
    obtain ⟨n, hx, rfl⟩ := lengthenBy_tick_some hf (one_le_clock h.params_wf hf) hl
    obtain ⟨v, hrun, hmoved, hnow⟩ := (h.present ⟨0, 1⟩ _).runs_after_stalls hf n hp
    refine ⟨v, by simpa using hrun, ?_, hmoved⟩
    rw [hnow, ← hx]
    exact add_sub_cancel _ _

/-- Settles O54: the inputs exist as `lengthenBy` says; running them is first the stalled periods,
then the micro-operation. -/
theorem timedStepHasItsInstant : Obligations.TimedStepHasItsInstant := by
  intro s i presented least hleast
  rw [← leastWait_eq] at hleast
  subst hleast
  refine ⟨fun hf t => ⟨fun ht => ?late, fun ht => ?early⟩,
    fun f n periods hf hpos hperiods => ?tick, fun t inputs h hin => ?run⟩
  case late =>
    obtain ⟨d, hd, -⟩ := lengthenBy_step (x := t - (s.now + leastWait i)) hf (sub_nonneg.2 ht)
    refine ⟨d, timedInputs_eq_some.2 ⟨_, by rw [leastDuration_step hf, hd], ?_⟩⟩
    rw [stepCount_step hf]; rfl
  case early =>
    simp [timedInputs, leastDuration_step hf, lengthenBy_neg hf (sub_neg.2 ht)]
  case tick =>
    rw [← tickCount_eq_ceil, ← stepCount_tick hf] at hperiods
    subst hperiods
    have hexcess : s.now + (n + stepCount s.params i : Nat) * (1000000 / (f : Rat)) -
        (s.now + leastDuration s.params i) = (n : Time) * period f := by
      rw [leastDuration_tick hf, period]; push_cast; ring
    exact timedInputs_eq_some.2 ⟨_, by rw [hexcess, lengthenBy_periods hf hpos], rfl⟩
  case run =>
    obtain ⟨v, hrun, hnow, hupc⟩ := h.timed_runs hin
    exact ⟨fun k hk => (hrun.run_lt hk).imp fun _ hx => ⟨hx.1, hx.2.upc⟩, v, hrun.run, hnow, hupc⟩

end Sys2Proof.Machine
end

