-- ==== Sys2Proof/Proofs/Sequence.lean ====
section
/-!
SUPPORT. The fixed sequence of R73 position by position: which micro-operation follows which, and
what `I` counts meanwhile, at step level with a quiet host.
-/

namespace Sys2Proof.Machine

/-! ## From one micro-operation to the next -/

/-- The micro-operation after one of an operation's, and `I` after it, from `I` before it (R73, R91,
R100, R103). -/
def progress : Instr × BitVec 4 → Instr × BitVec 4
  | (.clr, _) => (.latchHi, 0#4)
  | (.latchHi, k) => (.waitLatch, k)
  | (.waitLatch, k) => (.latchLo, k)
  | (.latchLo, k) => (.sample, k)
  | (.sample, k) => (.clkHi, k)
  | (.clkHi, k) => (.waitClkHi, k)
  | (.waitClkHi, k) => (.clkLo, k)
  | (.clkLo, k) => (.waitClkLo, k)
  | (.waitClkLo, k) => (.loop, k)
  | (.loop, k) => (if k + 1#4 < 8#4 then .sample else .decode, k + 1#4)
  | (.decode, k) => (.pack, k)
  | (.pack, k) => (.done, k)
  | (_, k) => (.idle, k)

/-- At step level a micro-operation of an operation leads where `progress` says, and only DONE ends
the operation (R103). -/
theorem exec_progress {i : Instr} {s t : State} (hd : decodePhase s.upc = .ok i) (hidle : i ≠ .idle)
    (hclk : s.params.fClkHz = none) (h : exec i s = .next t) :
    decodePhase t.upc = .ok (progress (i, s.i)).1 ∧ t.i = (progress (i, s.i)).2 ∧
      (i ≠ .done → t.busy = s.busy) := by
  have hcode : encode i = .uph s.upc := encode_of_decodePhase hd
  cases exec_effect h with
  | nop => cases hcode
  | init presented | createReport presented | processReport presented =>
    rcases presented with rfl | ⟨rfl, -⟩ <;> contradiction
  | idle => contradiction
  | waitLatch | waitClkHi | waitClkLo => rw [waitFor_step _ _ hclk]; exact ⟨rfl, rfl, fun _ => rfl⟩
  | loop => refine ⟨?_, rfl, fun _ => rfl⟩; dsimp only [progress]; split <;> rfl
  | done => exact ⟨rfl, rfl, fun hne => absurd rfl hne⟩
  | _ => exact ⟨rfl, rfl, fun _ => rfl⟩

/-! ## Positions in the fixed sequence -/

/-- `I` before position `n` of the fixed sequence, CLR's apart: the number of iterations done. -/
def countAt (n : Nat) : BitVec 4 := BitVec.ofNat 4 ((n - 4) / 6)

/-- In `u` the micro-operation at position `n` of the fixed sequence is the next to execute. -/
structure AtPosition (n : Nat) (u : State) (i : Instr) : Prop where
  here : fixedSequence[n]? = some i
  phase : decodePhase u.upc = .ok i
  busy : u.busy = true
  count : n = 0 ∨ u.i = countAt n

/-- The fixed sequence is the one `progress` follows. -/
theorem fixedSequence_progress {n : Nat} (hn : n < 54) :
    (fixedSequence[n + 1]?).map (·, countAt (n + 1)) =
      (fixedSequence[n]?).map fun i => progress (i, countAt n) := by
  have h : ∀ n < 54, (fixedSequence[n + 1]?).map (·, countAt (n + 1)) =
      (fixedSequence[n]?).map fun i => progress (i, countAt n) := by decide
  exact h n hn

/-- DONE stands at the end of the sequence only, and IDLE nowhere in it. -/
theorem fixedSequence_ends {n : Nat} {i : Instr} (h : fixedSequence[n]? = some i) :
    i ≠ .idle ∧ (n < 54 → i ≠ .done) := by
  have hall : ∀ n < 55, fixedSequence[n]? ≠ some .idle ∧
      (n < 54 → fixedSequence[n]? ≠ some .done) := by decide
  obtain ⟨hidle, hdone⟩ := hall n (List.getElem?_eq_some_iff.1 h).1
  exact ⟨fun hi => hidle (hi ▸ h), fun hn hi => hdone hn (hi ▸ h)⟩

theorem AtPosition.next {n : Nat} {u v : State} {i : Instr} (h : AtPosition n u i) (hn : n < 54)
    (hclk : u.params.fClkHz = none) (he : exec i u = .next v) (before : State) :
    ∃ j, AtPosition (n + 1) (endStep before v) j := by
  obtain ⟨hidle, hdone⟩ := fixedSequence_ends h.here
  obtain ⟨hphase, hcount, hbusy⟩ := exec_progress h.phase hidle hclk he
  have hfrom : progress (i, u.i) = progress (i, countAt n) := by
    rcases h.count with rfl | hc
    · obtain rfl : Instr.clr = i := Option.some.inj h.here
      rfl
    · rw [hc]
  have hseq := fixedSequence_progress hn
  rw [h.here, Option.map_some, ← hfrom, Option.map_eq_some_iff] at hseq
  obtain ⟨j, hj, hp⟩ := hseq
  rw [← hp] at hphase hcount
  exact ⟨j, hj, hphase, (hbusy (hdone hn)).trans h.busy, .inr hcount⟩

/-! ## The run along the sequence -/

/-- After `n + 1` steps an operation is at position `n`: the induction along the sequence. -/
theorem Starts.atPosition {s : State} (hs : Starts s) (hclk : s.params.fClkHz = none)
    (hq : Undisturbed s 55) {n : Nat} (hn : n < 55) :
    ∃ u i, Reaches s (n + 1) u ∧ AtPosition n u i := by
  induction n with
  | zero =>
    obtain ⟨u, rfl, r⟩ := (Reaches.start hclk hq).next (i := .idle) hs.no_reset
      (.inr (canTake_iff.2 ⟨hs.idle, hs.not_busy⟩)) (by rw [hs.idle]; rfl) hs.accepted
    exact ⟨_, .clr, r, rfl, rfl, rfl, .inl rfl⟩
  | succ n ih =>
    obtain ⟨u, i, r, hu⟩ := ih (by omega)
    obtain ⟨v, he⟩ := phase_exec_next hu.phase (r.params ▸ hs.params_wf)
      fun hi => absurd hi (fixedSequence_ends hu.here).1
    obtain ⟨w, rfl, r'⟩ := r.microOp i hu.phase he
    obtain ⟨j, hj⟩ := hu.next (by omega) r.clock_at he u
    exact ⟨_, j, r', hj⟩

/-- SAMPLE for `I = k` stands at position `4 + 6k`. -/
theorem fixedSequence_sample {k : Nat} (hk : k < 8) : fixedSequence[4 + 6 * k]? = some .sample := by
  have h : ∀ k < 8, fixedSequence[4 + 6 * k]? = some .sample := by decide
  exact h k hk

/-- Settles O40: the positions give the micro-operations and the samples, DONE at position 54 the
end. -/
theorem operationFollowsFixedSequence : Obligations.OperationFollowsFixedSequence := by
  intro s hs hclk hq
  refine ⟨rfl, fun n hn => ?_, fun k hk => ?sample, ?finish⟩
  · obtain ⟨u, i, r, hu⟩ := hs.atPosition hclk hq hn
    exact ⟨u, i, r.run, hu.here, hu.phase, hu.busy⟩
  case sample =>
    obtain ⟨u, i, r, hu⟩ := hs.atPosition hclk hq (n := 4 + 6 * k) (by omega)
    obtain rfl := Option.some.inj ((fixedSequence_sample hk).symm.trans hu.here)
    refine ⟨u, by rw [← r.run]; congr 1; omega, upc_of_decodePhase hu.phase rfl, ?_⟩
    rw [hu.count.resolve_left (by omega), countAt, BitVec.toNat_ofNat]
    omega
  case finish =>
    obtain ⟨u, i, r, hu⟩ := hs.atPosition hclk hq (n := 54) (by decide)
    obtain rfl : Instr.done = i := Option.some.inj hu.here
    obtain ⟨t, rfl, r'⟩ := r.microOp .done hu.phase (execDone_eq u)
    exact ⟨_, r'.run, rfl, rfl⟩

end Sys2Proof.Machine
end

