-- ==== Sys2Proof/Proofs/ScriptLines.lean ====
section
/-!
SUPPORT. The issue of a script line, and the lines that end at once (spec/30_encoding.md rule R71).
-/

namespace Sys2Proof.Machine

/-! ## The issue of a command line -/

/-- The inputs of a line's micro-operations where none has a mark. -/
def lineInputs (p : Params) (steps : List (Instr × Input)) : List Input :=
  (steps.map fun x => List.replicate (stepCount p x.1) { x.2 with extra := ⟨0, 1⟩ }).flatten

@[simp] theorem lineInputs_nil (p : Params) : lineInputs p [] = [] := rfl

theorem lineInputs_cons (p : Params) (i : Instr) (x : Input) (steps : List (Instr × Input)) :
    lineInputs p ((i, x) :: steps) =
      List.replicate (stepCount p i) { x with extra := ⟨0, 1⟩ } ++ lineInputs p steps := rfl

/-- A command line is not issued where the block cannot take a command (R71, R84). -/
theorem runLine_notIdle {a : Action} {i : Instr × Input} {steps : List (Instr × Input)}
    (ha : a.steps = i :: steps) {s : State} (hf : isFinal s = false) :
    runLine { action := a } s = .notIdle := by
  cases a with
  | reset | expect => cases ha
  | _ => simp [runLine, hf]

/-- A command line without marks: one step takes the command, then the operation's inputs follow. -/
theorem runLine_command {a : Action} {x : Input} {steps : List (Instr × Input)}
    (ha : a.steps = (.idle, x) :: steps) {s t : State} (hf : isFinal s = true)
    (hs : step (s.present ({ x with extra := ⟨0, 1⟩ } :: lineInputs s.params steps)) = .next t) :
    runLine { action := a } s = untilFinal (lineInputs s.params steps).length t := by
  have hone : stepCount s.params .idle = 1 := stepCount_instant _ rfl
  have hin : ScriptLine.inputs s.params s.now { action := a } =
      some ([{ x with extra := ⟨0, 1⟩ }] :: steps.map fun x =>
        List.replicate (stepCount s.params x.1) { x.2 with extra := ⟨0, 1⟩ }) := by
    rw [inputs_unmarked, ha, List.map_cons, hone]; rfl
  cases a with
  | reset | expect => cases ha
  | _ =>
    simp only [runLine, hf, hin, if_true, List.length_singleton, List.singleton_append, issue]
    rw [← lineInputs, hs]

/-- The step that takes the command of a line. -/
theorem step_command {s v : State} {x : Input} {rest : List Input} (hf : isFinal s = true)
    (hr : x.rst = false) (hs : x.stall = false)
    (he : exec .idle (s.present (x :: rest)) = .next v) :
    step (s.present (x :: rest)) = .next (endStep (s.present (x :: rest)) v) := by
  have hd : decodePhase s.upc = .ok .idle := by rw [(isFinal_iff.1 hf).1]; rfl
  exact step_executes hr (.inr hf) (.inr hs) hd he

/-! ## Lines that end at once -/

/-- A RESET line ends in the reset state, from any state (R140). -/
theorem runLine_reset (s : State) : runLine { action := .reset } s = .ended { State.reset with
    params := s.params, draws := s.draws, pad := { s.pad with capture := .nothing } } := by
  have hs : step (s.present [{ Input.quiet with rst := true }]) = .next { State.reset with
      params := s.params, draws := s.draws, pad := { s.pad with capture := .nothing } } := by
    rw [step, preempt_reset rfl]; rfl
  simp only [runLine, issue, hs, if_true]
  rfl

/-- A command that starts no operation ends its line with the step that takes it. -/
theorem runLine_one_step {a : Action} {x : Input} (ha : a.steps = [(.idle, x)]) {s v : State}
    (hf : isFinal s = true) (hr : x.rst = false) (hs : x.stall = false)
    (he : exec .idle (s.present [{ x with extra := ⟨0, 1⟩ }]) = .next v) (hv : isFinal v = true) :
    runLine { action := a } s = .ended (endStep (s.present [{ x with extra := ⟨0, 1⟩ }]) v) :=
  (runLine_command ha hf (step_command hf hr hs he)).trans
    (untilFinal_final (s := endStep _ v) hv 0)

/-- Settles O52: RESET by `runLine_reset`; the commands by the step that takes them, which leaves a
final state. -/
theorem otherScriptLinesEndAtOnce : Obligations.OtherScriptLinesEndAtOnce := by
  refine ⟨runLine_reset, fun s hupc hb => ?taken, fun s a ha hbusy => ?notIssued⟩
  case taken =>
    have hf : isFinal s = true := isFinal_iff.2 ⟨hupc, hb⟩
    refine ⟨⟨_, runLine_one_step rfl hf rfl rfl (execIdle_nop rfl) ?_, ?nop⟩, fun payload =>
      ⟨_, runLine_one_step rfl hf rfl rfl ((execIdle_processReport rfl).trans
        (execProcessReport_eq hf)) ?_, ?processReport⟩,
      ⟨_, runLine_one_step rfl hf rfl rfl ((execIdle_init rfl).trans (execInit_eq hf)) ?_, ?init⟩⟩
    case nop | processReport | init => rw [← hupc]; rfl
    all_goals exact isFinal_iff.2 ⟨rfl, hb⟩
  case notIssued =>
    have hf : isFinal s = false := canTake_eq_false.2 hbusy
    rcases ha with rfl | rfl | ⟨w, rfl⟩ | ⟨payload, rfl⟩ <;> exact runLine_notIdle rfl hf

end Sys2Proof.Machine
end

