-- ==== Sys2Proof/Proofs/ScriptOperation.lean ====
section
/-!
SUPPORT. The line `CREATE_REPORT data=W` at step level and at tick level: micro-operation by
micro-operation through the fixed sequence, with the inputs the line has for each
(spec/30_encoding.md rules R71 and R73).
-/

namespace Sys2Proof.Machine

/-! ## A line under way -/

/-- In `u` an operation is under way of a line that will end as `result`: `todo` is what is left of
the line, and the environment presents its inputs. -/
structure UnderWay (p : Params) (result : LineEnd) (todo : List (Instr × Input)) (u : State) :
    Prop where
  params : u.params = p
  params_wf : p.wf = true
  busy : todo ≠ [] → u.busy = true
  pending : Pending u (lineInputs p todo)
  ends : untilFinal (lineInputs p todo).length u = result

/-- Only DONE ends an operation (R103). -/
theorem exec_busy {i : Instr} {s t : State} (h : exec i s = .next t) (hi : i ≠ .done)
    (hb : s.busy = true) : t.busy = true := by
  cases exec_effect h with
  | createReport => rfl
  | done => contradiction
  | _ => simpa using hb

namespace UnderWay

variable {p : Params} {result : LineEnd} {i : Instr} {x : Input} {todo : List (Instr × Input)}
  {u v : State}

/-- Nothing but a level on DATA is presented to a micro-operation, and TMR is as its wait needs it:
the micro-operation is executable. -/
theorem executable (h : UnderWay p result ((i, x) :: todo) u) (hd : decodePhase u.upc = .ok i)
    (hx : { x with data := .floating } = Input.quiet)
    (ht : ∀ f, p.fClkHz = some f → TimerReady i u.tmr f) :
    Executable u i { x with extra := ⟨0, 1⟩ } where
  selected := hd
  params_wf := h.params ▸ h.params_wf
  no_reset := congrArg Input.rst hx
  not_stalled := .inr (congrArg Input.stall hx)
  command := .inl (congrArg Input.cmd hx)
  timer := h.params ▸ ht

/-- A run of the micro-operation leaves the rest of the line to do. -/
theorem after (h : UnderWay p result ((i, x) :: todo) u)
    (hrun : RunWhile (Alike u) (stepCount p i) u v) (hp : Pending v (lineInputs p todo))
    (hparams : v.params = u.params) (hb : todo ≠ [] → v.busy = true) :
    UnderWay p result todo v where
  params := hparams.trans h.params
  params_wf := h.params_wf
  busy := hb
  pending := hp
  ends := by
    have hbusy : u.busy = true := h.busy (List.cons_ne_nil _ _)
    rw [← hrun.untilFinal_eq fun y hy => canTake_eq_false.2 (.inr (hy.busy.trans hbusy)), ← h.ends,
      lineInputs_cons, List.length_append, List.length_replicate]

/-- The next micro-operation, where it is no wait. -/
theorem microOp (h : UnderWay p result ((i, x) :: todo) u) (hd : decodePhase u.upc = .ok i)
    (he : exec i u = .next v) (hi : leastWait i = 0 := by rfl)
    (hdone : i = .done → todo = [] := by nofun)
    (hx : { x with data := .floating } = Input.quiet := by rfl) :
    ∃ w, w = endStep u v ∧ UnderWay p result todo w := by
  have hexec := h.executable hd hx fun f _ => timerReady_instant hi u.tmr f
  obtain rfl := h.params
  obtain ⟨hrun, hp⟩ := hexec.runs_once hi h.pending he
  exact ⟨_, rfl, h.after hrun hp (exec_environment he).1 fun htodo =>
    exec_busy (t := v) he (fun hi => htodo (hdone hi)) (h.busy (List.cons_ne_nil _ _))⟩

/-- The next micro-operation, where it is a wait whose tick count TMR holds. -/
theorem wait {t : Nat} {q : PhaseCode} (h : UnderWay p result ((i, x) :: todo) u)
    (hd : decodePhase u.upc = .ok i) (hw : IsWait i t q)
    (ht : ∀ f, u.params.fClkHz = some f → u.tmr = tickCount t f)
    (hx : { x with data := .floating } = Input.quiet := by rfl) :
    ∃ w x : State, w = { u with
        upc := q, now := x.now, tmr := x.tmr, ports := x.ports, script := x.script, pad := x.pad } ∧
      UnderWay p result todo w := by
  obtain rfl := h.params
  have hexec := h.executable hd hx fun f hf => (hw.timer _ f).2 (ht f hf)
  obtain ⟨w, hrun, hp, hframe, -⟩ := hexec.runs_wait hw h.pending
  refine ⟨w, w, hframe, h.after hrun hp (by rw [hframe]) fun _ => ?_⟩
  rw [hframe]
  exact h.busy (List.cons_ne_nil _ _)

/-- What is presented to the next micro-operation, where it is no wait. -/
theorem ports (h : UnderWay p result ((i, x) :: todo) u) (hi : leastWait i = 0 := by rfl) :
    u.ports = { x with extra := ⟨0, 1⟩ } := by
  have hp := h.pending
  rw [lineInputs_cons, stepCount_instant p hi] at hp
  exact hp.ports

/-- The line has ended when nothing is left to do and the state is final. -/
theorem ended (h : UnderWay p result [] u) (hf : isFinal u = true) : result = .ended u :=
  h.ends.symm.trans (untilFinal_final hf 0)

end UnderWay

/-- At tick level TMR holds the tick count after a load (R92, R96, R98). -/
theorem loadTmr_loaded (t : Nat) (s : State) (f : Nat) (hf : s.params.fClkHz = some f) :
    (loadTmr t s).tmr = tickCount t f := by
  rw [loadTmr_tick t hf]

/-! ## The parts of an operation -/

/-- One iteration of the line `data=W`, with level `k` of `W` at its SAMPLE. -/
def bitSteps (w : Byte) (k : Nat) : List (Instr × Input) :=
  (.sample, { Input.quiet with data := .driven (wireLevel w k) }) ::
    (pulseClock ++ [Instr.loop]).map unattended

/-- The end of the operation. -/
def reportSteps : List (Instr × Input) := (Instr.decode :: buildReport).map unattended

/-- What is left of an operation before iteration `k`, `n` of them to go. -/
def stepsFrom (w : Byte) (k n : Nat) : List (Instr × Input) :=
  (List.range' k n).flatMap (bitSteps w) ++ reportSteps

theorem stepsFrom_succ (w : Byte) (k n : Nat) :
    stepsFrom w k (n + 1) = bitSteps w k ++ stepsFrom w (k + 1) n := by
  rw [stepsFrom, List.range'_succ, List.flatMap_cons, List.append_assoc]
  rfl

theorem operationSteps_eq (w : Byte) :
    operationSteps w = (Instr.clr :: pulseLatch).map unattended ++ stepsFrom w 0 8 := by
  rw [operationSteps, List.append_assoc, List.range_eq_range']
  rfl

/-- What an operation that began in `s` has computed before iteration `k`, from levels `d`, or
before DECODE for `k = 8` (R86, R91 to R100). -/
structure BitsRead (s : State) (d : Nat → Level) (k : Nat) (u : State) : Prop where
  phase : u.upc = if k < 8 then 0x5#4 else 0xB#4
  count : u.i = BitVec.ofNat 4 k
  bits : ∀ j, j < k → u.acc.getLsbD (7 - j) = !d j
  rpt : u.rpt = s.rpt
  events : u.evt.map Prod.fst =
    s.evt.map Prod.fst ++ .latchRise :: .latchFall :: (List.range k).flatMap (bitEvents d)

/-- SAMPLE `k` stores its bit beside the bits before it (R95). -/
theorem BitsRead.stored {s u : State} {d : Nat → Level} {k : Nat} (h : BitsRead s d k u)
    (hk : k < 8) {j : Nat} (hj : j < k + 1) : (storeBit (!d k) u).acc.getLsbD (7 - j) = !d j := by
  have hi : u.i.toNat = k := by rw [h.count, BitVec.toNat_ofNat]; omega
  rw [storeBit_getLsbD _ _ (by omega), hi]
  split
  · next hjk => rw [show j = k by omega]
  · next hjk => exact h.bits j (by omega)

/-- From CLR to the first SAMPLE (R91 to R94). -/
theorem firstSample_underWay {p : Params} {e : LineEnd} {w : Byte} {u : State} (d : Nat → Level)
    (h : UnderWay p e (operationSteps w) u) (hu : u.upc = 0x1#4) :
    ∃ v, UnderWay p e (stepsFrom w 0 8) v ∧ BitsRead u d 0 v := by
  rw [operationSteps_eq] at h
  obtain ⟨u1, e1, h1⟩ := h.microOp (by rw [hu]; rfl) (execClr_eq u)
  obtain ⟨u2, e2, h2⟩ := h1.microOp (by rw [e1]; rfl) (execLatchHi_eq u1)
  obtain ⟨u3, x3, e3, h3⟩ := h2.wait (by rw [e2]; rfl) isWait_waitLatch
    (by rw [e2]; exact loadTmr_loaded tLatchMin u1)
  obtain ⟨u4, e4, h4⟩ := h3.microOp (by rw [e3]; rfl) (execLatchLo_eq u3)
  refine ⟨u4, h4, ?_, ?_, nofun, ?_, ?_⟩
  all_goals simp [e4, e3, e2, e1]

/-- One iteration (R95 to R100). -/
theorem BitsRead.next {p : Params} {e : LineEnd} {w : Byte} {s u : State} {k n : Nat}
    (h : UnderWay p e (stepsFrom w k (n + 1)) u) (hk : k < 8) (hu : BitsRead s (wireLevel w) k u) :
    ∃ v, UnderWay p e (stepsFrom w (k + 1) n) v ∧ BitsRead s (wireLevel w) (k + 1) v := by
  rw [stepsFrom_succ] at h
  have hd : (pinRead (elapse 0 u)).1 = wireLevel w k := by
    rw [pinRead_driven]; rw [elapse_ports, h.ports]
  obtain ⟨u1, e1, h1⟩ := h.microOp (by rw [hu.phase, if_pos hk]; rfl) (execSample_eq u)
  obtain ⟨u2, e2, h2⟩ := h1.microOp (by rw [e1]; rfl) (execClkHi_eq u1)
  obtain ⟨u3, x3, e3, h3⟩ := h2.wait (by rw [e2]; rfl) isWait_waitClkHi
    (by rw [e2]; exact loadTmr_loaded tClkHiMin u1)
  obtain ⟨u4, e4, h4⟩ := h3.microOp (by rw [e3]; rfl) (execClkLo_eq u3)
  obtain ⟨u5, x5, e5, h5⟩ := h4.wait (by rw [e4]; rfl) isWait_waitClkLo
    (by rw [e4]; exact loadTmr_loaded tClkLoMin u3)
  obtain ⟨u6, e6, h6⟩ := h5.microOp (by rw [e5]; rfl) (execLoop_eq u5)
  obtain ⟨hupc, hi, hacc, hrpt, hevt⟩ :
      u6.upc = (if u.i + 1#4 < 8#4 then 0x5#4 else 0xB#4) ∧ u6.i = u.i + 1#4 ∧
      u6.acc = (storeBit (!wireLevel w k) u).acc ∧ u6.rpt = u.rpt ∧
      u6.evt.map Prod.fst = u.evt.map Prod.fst ++ [Event.sample u.i (wireLevel w k),
        Event.clockRise u.i, Event.clockFall u.i] := by
    simp [e6, e5, e4, e3, e2, e1, hd]
  refine ⟨u6, h6, ?phase, ?count, fun j hj => ?bits, hrpt.trans hu.rpt, ?events⟩
  case phase => simp only [hupc, hu.count, loop_goes_on hk]
  case count => rw [hi, hu.count, BitVec.ofNat_add]
  case bits => rw [hacc, hu.stored hk hj]
  case events => rw [hevt, hu.events, hu.count, List.range_succ]; simp [bitEvents]

/-- The induction over the iterations left. -/
theorem BitsRead.all {p : Params} {e : LineEnd} {w : Byte} {s u : State} {k n : Nat}
    (hkn : k + n = 8)
    (h : UnderWay p e (stepsFrom w k n) u) (hu : BitsRead s (wireLevel w) k u) :
    ∃ v, UnderWay p e reportSteps v ∧ BitsRead s (wireLevel w) 8 v := by
  induction n generalizing k u with
  | zero => exact ⟨u, h, (show k = 8 from hkn) ▸ hu⟩
  | succ n ih =>
    obtain ⟨v, h', hv⟩ := BitsRead.next h (by omega) hu
    exact ih (by omega) h' hv

/-- DECODE, PACK and DONE end the line (R101, R110, R111). -/
theorem BitsRead.finish {p : Params} {e : LineEnd} {s u : State} {d : Nat → Level}
    (h : UnderWay p e reportSteps u) (hu : BitsRead s d 8 u) :
    ∃ t, e = .ended t ∧ t = { u with
      bs := decodeButtons u.acc
      rpt := (Memory.zeroBelow p.reportBytes s.rpt).write p.buttonOffset
        (packButtons (decodeButtons u.acc))
      size := sizeValue p
      force := false
      evt := u.evt ++ [(.reportReady (reportImage t), t.now)]
      busy := false
      rdy := true
      upc := 0x0#4
      now := t.now, ports := t.ports, script := t.script, pad := t.pad } := by
  obtain ⟨u1, e1, h1⟩ := h.microOp (by rw [hu.phase]; rfl) (execDecode_eq u)
  obtain ⟨u2, e2, h2⟩ := h1.microOp (by rw [e1]; rfl)
    (execPack_eq (buttonOffset_lt (h1.params ▸ h1.params_wf)))
  obtain ⟨u3, e3, h3⟩ := h2.microOp (by rw [e2]; rfl) (execDone_eq u2) (hdone := fun _ => rfl)
  refine ⟨u3, h3.ended (by rw [e3]; rfl), ?_⟩
  rw [← h.params, ← hu.rpt, e3, e2, e1]
  rfl

/-- The step that takes the command starts the operation (R82). -/
theorem createReport_underWay {s : State} (w : Byte) (hf : isFinal s = true)
    (hi : s.inited = true) (hp : s.params.wf = true) :
    ∃ u, UnderWay s.params (runLine { action := .createReport w } s) (operationSteps w) u ∧
      u.upc = 0x1#4 ∧ u.rpt = s.rpt ∧ u.evt = s.evt := by
  have he := (execIdle_createReport (s := s.present ({ Input.quiet with cmd := Cmd.createReport } ::
    lineInputs s.params (operationSteps w))) rfl).trans (execCreateReport_eq hf hi)
  have hs := step_command hf rfl rfl he
  refine ⟨endStep _ _, ⟨?_, hp, fun _ => ?_, (pending_present s _).endStep ?_,
    (runLine_command (a := .createReport w) rfl hf hs).symm⟩, ?_, ?_, ?_⟩
  all_goals rfl

/-- Settles O51: the step that takes the command, the parts of the operation, and what its masks
make of the eight bits of `W`. -/
theorem scriptLineRunsOneOperation : Obligations.ScriptLineRunsOneOperation := by
  intro s w hupc hb hinited hparams hmem
  obtain ⟨u, hu, hclr, hrpt, hevt⟩ :=
    createReport_underWay w (isFinal_iff.2 ⟨hupc, hb⟩) hinited hparams
  obtain ⟨v, hv, hread⟩ := firstSample_underWay (wireLevel w) hu hclr
  obtain ⟨v, hv, hread⟩ := BitsRead.all rfl hv hread
  obtain ⟨t, hended, ht⟩ := BitsRead.finish hv hread
  rw [hrpt] at ht
  have hbits (k : Nat) (hk : k < 8) : v.acc.getLsbD (7 - k) = !w.getLsbD (7 - k) := hread.bits k hk
  refine ⟨t, hended, by rw [ht], by rw [ht], by rw [ht], BitVec.eq_of_getLsbD_eq fun j hj => ?acc,
    fun k hk => ?button, fun addr ha hne => ?padding, by rw [ht, sizeValue_toNat hparams], ?events⟩
  case acc =>
    have hbit := hbits (7 - j) (by omega)
    rw [show 7 - (7 - j) = j by omega] at hbit
    rw [ht, hbit, BitVec.getLsbD_not, decide_eq_true hj, Bool.true_and]
  case button =>
    rw [ht, read_packed hmem, if_pos rfl, packButtons_getLsbD _ hk, decodeButtons_get _ hk,
      hbits k hk]
  case padding => rw [ht, read_packed hmem, if_neg hne, if_pos ha]
  case events =>
    have hmap := hread.events
    rw [hevt] at hmap
    have hlast : t.evt = v.evt ++ [(.reportReady (reportImage t), t.now)] := congrArg State.evt ht
    rw [hlast, List.map_append, hmap]
    rfl

end Sys2Proof.Machine
end

