-- ==== Sys2Proof/Proofs/HostCommands.lean ====
section
/-!
SUPPORT. The four host commands and the checks before them (spec/40_host_commands.md rules R80 to
R84).
-/

namespace Sys2Proof.Machine

/-! ## The commands by their own meaning -/

/-- Settles O7: the meaning of NOP is the passing of time. -/
theorem nopDoesNothing : Obligations.NopDoesNothing :=
  ⟨rfl, fun s => ⟨_, execNop_eq s, rfl, le_elapse_now 0 s, fun _ => rfl⟩⟩

/-- Settles O8: INIT leaves a state that takes commands, so the same equation says what it does when
it is done again. -/
theorem initConfiguresLines : Obligations.InitConfiguresLines := by
  refine ⟨rfl, fun s hupc hb => ?taken, fun s hb => execInit_busy (canTake_eq_false.2 (.inr hb))⟩
  have again : canTake { s with
      dir := ⟨true, true, false, false, false⟩, out := ⟨false, false⟩, inited := true
      upc := 0x0#4, now := (elapse 0 s).now } = true := canTake_iff.2 ⟨rfl, hb⟩
  exact ⟨_, execInit_eq (canTake_iff.2 ⟨hupc, hb⟩), rfl, le_elapse_now 0 s, fun _ => rfl,
    _, execInit_eq again, rfl⟩

/-- Settles O9: the acceptance alone; the operation comes after it. -/
theorem createReportAccepted : Obligations.CreateReportAccepted :=
  ⟨rfl, fun s hupc hb hi => ⟨_, execCreateReport_eq (canTake_iff.2 ⟨hupc, hb⟩) hi, rfl,
    le_elapse_now 0 s, fun _ => rfl⟩⟩

/-- Settles O10: the meaning of PROCESS_REPORT reads neither the payload nor INITED. -/
theorem processReportIsNoOp : Obligations.ProcessReportIsNoOp := by
  refine ⟨rfl, fun s payload hupc hb => ?taken,
    fun s hb => execProcessReport_busy (canTake_eq_false.2 (.inr hb))⟩
  exact ⟨_, execProcessReport_eq (canTake_iff.2 ⟨hupc, hb⟩), rfl, le_elapse_now 0 _, fun _ => rfl⟩

/-! ## The step a command is presented in -/

/-- IDLE executes the command on the port by that command's meaning, NOP's included (R90). -/
theorem execIdle_eq_exec {s : State} {i : Instr} (hupc : s.upc = 0x0#4)
    (hd : decode (.cmd s.ports.cmd) = .ok i) : exec .idle s = exec i s := by
  have hcode : encode i = .cmd s.ports.cmd := encode_of_decode hd
  rcases execIdle_cases s with ⟨hc, he⟩ | ⟨hc, he⟩ | ⟨hc, he⟩ | ⟨hc, he⟩ <;>
    obtain rfl := Except.ok.inj (hd.symm.trans (congrArg (decode ∘ .cmd) hc))
  · refine he.trans ((execNop_eq s).trans ?_).symm
    rw [← hupc]
  all_goals exact he

/-- Settles O4: the step executes IDLE, and IDLE the command. -/
theorem stepExecutesCommand : Obligations.StepExecutesCommand := by
  intro s i hd hr hupc hb hclk
  rw [← execIdle_eq_exec hupc hd]
  exact stepExecutesPhase s .idle (by rw [hupc]; rfl) hr (.inr ⟨hupc, hb⟩) hclk

/-- Settles O11: BUSY is looked at first, by each command and by the step; then INITED, by
CREATE_REPORT. -/
theorem commandChecks : Obligations.CommandChecks := by
  refine ⟨fun s hb => ?busy, fun s hupc hb hi => ?uninit, fun s hupc hb => ?taken⟩
  case busy =>
    have ht : canTake s = false := canTake_eq_false.2 (.inr hb)
    refine ⟨execInit_busy ht, execCreateReport_busy ht, execProcessReport_busy ht,
      ⟨_, execNop_eq s⟩, fun hr hc => ?_⟩
    rw [step, preempt_busy hr hc ht]
  case uninit =>
    have he : exec .createReport s = .refused .notInitialised :=
      execCreateReport_uninit (canTake_iff.2 ⟨hupc, hb⟩) hi
    refine ⟨he, fun hr hc hclk => ?_⟩
    rw [stepExecutesCommand s .createReport (by rw [hc]; rfl) hr hupc hb hclk, he]
  case taken =>
    have ht : canTake s = true := canTake_iff.2 ⟨hupc, hb⟩
    exact ⟨⟨_, execInit_eq ht⟩, ⟨_, execProcessReport_eq ht⟩,
      fun hi => ⟨_, execCreateReport_eq ht hi⟩⟩

/-! ## The end of an operation -/

/-- Settles O50: while BUSY is 1 no command is taken, and of the micro-operations DONE alone writes
the flags or emits REPORT_READY. -/
theorem onlyDoneOrResetEndsAnOperation : Obligations.OnlyDoneOrResetEndsAnOperation := by
  intro s t h hb hr hs
  have hbusy : canTake s = false := canTake_eq_false.2 (.inr hb)
  rcases step_next_cases hs with ⟨hr', -⟩ | ⟨-, -, rfl⟩ | ⟨-, -, -, i, u, hd, he, rfl⟩
  · exact absurd hr' (by simp [hr])
  · simp [hb]
  · cases exec_effect he with
    | init _ taken | createReport _ taken | processReport _ taken => simp [hbusy] at taken
    | done => simp [upc_of_decodePhase hd rfl]
    | _ => simp [hb]

end Sys2Proof.Machine
end

