-- ==== Sys2Proof/Proofs/OperationResult.lean ====
section
/-!
SUPPORT. The outcome of a whole operation as a function of its eight sampled levels
(spec/40_host_commands.md rules R85 to R87).
-/

namespace Sys2Proof.Machine

/-- A line that is driven at the eight sampling instants is what the samples read (R44). -/
theorem ShowsLevels.readsLevels {s : State} {d : Nat → Level} (h : ShowsLevels s d) :
    ReadsLevels s d := by
  intro k u hk hu
  rw [pinRead_driven (d := d k)]
  rw [elapse_ports, hu.reaches.ports, h k hk]

/-- The state an operation ends in, from the state before its DECODE. -/
theorem Starts.finished {s : State} {d : Nat → Level} (hs : Starts s)
    (hclk : s.params.fClkHz = none) (hq : Undisturbed s 55) (hd : ShowsLevels s d) :
    ∃ u t, AtSample s d 8 u ∧ core.run 56 s = .next t ∧ t = { u with
      bs := decodeButtons u.acc
      rpt := (Memory.zeroBelow s.params.reportBytes s.rpt).write s.params.buttonOffset
        (packButtons (decodeButtons u.acc))
      size := sizeValue s.params
      force := false
      evt := u.evt ++ [(.reportReady (reportImage t), t.now)]
      busy := false
      rdy := true
      upc := 0x0#4
      now := t.now, ports := t.ports, script := t.script, pad := t.pad } := by
  obtain ⟨u, hu⟩ := hs.atSample hclk hq hd.readsLevels le_rfl
  obtain ⟨t, hrun, ht⟩ := hu.finish (buttonOffset_lt hs.params_wf)
  exact ⟨u, t, hu, hrun, ht⟩

/-- Settles O41: the samples are in ACC before DECODE; DECODE, PACK and DONE make the rest of
them. -/
theorem operationResult : Obligations.OperationResult := by
  intro s d hs hclk hq hd
  obtain ⟨u, t, hu, hrun, ht⟩ := hs.finished hclk hq hd
  have hbs (k : Nat) (hk : k < 8) : t.bs.get k = !d k := by
    rw [ht, decodeButtons_get _ hk, hu.bits k hk]
  have hrpt (addr : Nat) : t.rpt.read addr = if addr = s.params.buttonOffset then packButtons t.bs
      else if addr < s.params.reportBytes then 0x00#8 else s.rpt.read addr := by
    rw [ht, read_packed hs.memory_wf]
  have hevt : t.evt = u.evt ++ [(.reportReady (reportImage t), t.now)] := congrArg State.evt ht
  refine ⟨t, hrun, fun k hk => ?button, fun addr ha hne => ?padding, ?size, by rw [ht], by rw [ht],
    by rw [ht], by rw [ht], ?out, by rw [ht, hu.lines.1], by rw [ht, hu.lines.2],
    fun k hk => ⟨hbs k hk, by rw [ht]; exact hu.bits k hk⟩, by rw [ht]; exact hu.count, ?events⟩
  case button => rw [hrpt, if_pos rfl, packButtons_getLsbD _ hk, hbs k hk]
  case padding => rw [hrpt, if_neg hne, if_pos ha]
  case size => rw [ht, sizeValue_toNat hs.params_wf]
  case out => rw [ht]; exact hu.out
  case events =>
    obtain ⟨l, hl, hmap, -⟩ := hu.trace
    rw [hevt, hl, List.map_append, List.map_append, hmap]
    rfl

/-! ## The report, as a function of the samples -/

/-- The flags an operation reads from levels `d`: low is pressed (R45). -/
def levelButtons (d : Nat → Level) : ButtonState :=
  ⟨!d 0, !d 1, !d 2, !d 3, !d 4, !d 5, !d 6, !d 7⟩

theorem levelButtons_get (d : Nat → Level) {k : Nat} (hk : k < 8) :
    (levelButtons d).get k = !d k := by
  interval_cases k <;> rfl

/-- The report of an operation that has sampled levels `d` (R46, R85). -/
def reportOf (p : Params) (d : Nat → Level) : Report where
  bytes := (List.range p.reportBytes).map fun addr =>
    if addr = p.buttonOffset then packButtons (levelButtons d) else 0x00#8
  size := sizeValue p
  force := false

/-- The host takes a report that is a function of the parameters and the sampled levels (R87). -/
theorem Starts.takes_reportOf {s : State} {d : Nat → Level} (hs : Starts s)
    (hclk : s.params.fClkHz = none) (hq : Undisturbed s 55) (hd : ShowsLevels s d) :
    ∃ t, core.run 56 s = .next t ∧ takeReport t = .ok (reportOf s.params d) := by
  obtain ⟨u, t, hu, hrun, ht⟩ := hs.finished hclk hq hd
  have hflags : decodeButtons u.acc = levelButtons d := ButtonState.ext_get fun k hk => by
    rw [decodeButtons_get _ hk, hu.bits k hk, levelButtons_get d hk]
  have hrpt : t.rpt = (Memory.zeroBelow s.params.reportBytes s.rpt).write s.params.buttonOffset
      (packButtons (levelButtons d)) := by rw [ht, hflags]
  have hparams : t.params = s.params := by rw [ht]; exact hu.reaches.params
  have hbytes : reportImage t = (reportOf s.params d).bytes := by
    simp only [reportImage, hparams, hrpt, reportOf]
    refine List.map_congr_left fun addr ha => ?_
    rw [read_packed hs.memory_wf, if_pos (List.mem_range.1 ha)]
  have htake : takeReport t = .ok ⟨reportImage t, sizeValue s.params, false⟩ := by rw [ht]; rfl
  exact ⟨t, hrun, by rw [htake, hbytes]; rfl⟩

/-- Settles O44: both operations give `reportOf` of the same parameters and levels. -/
theorem resultDependsOnSamplesAlone : Obligations.ResultDependsOnSamplesAlone := by
  intro s s' d hs hs' hparams hclk hq hq' hd hd'
  obtain ⟨t, hrun, ht⟩ := hs.takes_reportOf hclk hq hd
  obtain ⟨t', hrun', ht'⟩ := hs'.takes_reportOf (hparams ▸ hclk) hq' hd'
  exact ⟨t, t', hrun, hrun', by rw [ht, ht', hparams], _, ht⟩

end Sys2Proof.Machine
end

