-- ==== Sys2Proof/Proofs/ScriptIssue.lean ====
section
/-!
SUPPORT. The issue of a command line, timed or not: what its inputs are, the stalled periods before
the step that takes the command, and the refusal (spec/30_encoding.md rule R71,
spec/40_host_commands.md rule R84).
-/

namespace Sys2Proof.Machine

/-! ## The inputs of a line -/

/-- The inputs of a line for one of its micro-operations, timed or not: stalled periods, at tick
level only, and then its own steps. -/
def InputsOf (p : Params) (x : Instr × Input) (inputs : List Input) : Prop :=
  ∃ n d, (p.fClkHz = none → n = 0) ∧
    inputs = List.replicate n { Input.quiet with stall := true } ++
      List.replicate (stepCount p x.1) { x.2 with extra := d }

theorem lengthenBy_eq_some {p : Params} {e : Time} {l : List Input × Delay}
    (h : lengthenBy p e = some l) : ∃ n d, (p.fClkHz = none → n = 0) ∧
      l = (List.replicate n { Input.quiet with stall := true }, d) := by
  unfold lengthenBy at h
  cases hf : p.fClkHz with
  | none =>
    simp only [hf, Option.ite_none_right_eq_some] at h
    exact ⟨0, _, fun _ => rfl, (Option.some.inj h.2).symm⟩
  | some f =>
    simp only [hf, Option.ite_none_right_eq_some] at h
    exact ⟨_, _, nofun, (Option.some.inj h.2).symm⟩

theorem timedInputs_inputsOf {p : Params} {now t : Time} {i : Instr} {x : Input}
    {mark : Option Time} {inputs : List Input} (h : timedInputs p now i x mark = some (inputs, t)) :
    InputsOf p (i, x) inputs := by
  obtain ⟨l, hl, hr⟩ := Option.map_eq_some_iff.1 h
  obtain ⟨n, d, hn, rfl⟩ := lengthenBy_eq_some hl
  exact ⟨n, d, hn, (Prod.mk.inj hr).1.symm⟩

/-- Marks change no micro-operation of a line and nothing that is presented to one. -/
theorem attachMarks_steps {steps : List (Instr × Input)} {marks : List (Instr × Option Time)}
    {out : List (Instr × Input × Option Time)} (h : attachMarks steps marks = some out) :
    out.map (fun y => (y.1, y.2.1)) = steps := by
  induction steps generalizing marks out with
  | nil =>
    cases marks with
    | nil => cases h; rfl
    | cons m marks => cases h
  | cons x steps ih =>
    cases marks with
    | nil => cases h; simp [Function.comp_def]
    | cons m marks =>
      obtain ⟨-, h⟩ := Option.ite_none_right_eq_some.1 h
      obtain ⟨out', h', rfl⟩ := Option.map_eq_some_iff.1 h
      rw [List.map_cons, ih h']

theorem inputsOf_forall {p : Params} {now : Time} {steps : List (Instr × Input × Option Time)}
    {ls : List (List Input)} (h : inputsOf p now steps = some ls) :
    List.Forall₂ (InputsOf p) (steps.map fun y => (y.1, y.2.1)) ls := by
  induction steps generalizing now ls with
  | nil => cases h; exact .nil
  | cons y steps ih =>
    unfold inputsOf at h
    split at h
    · cases h
    · next inputs t ht =>
      obtain ⟨rest, hrest, rfl⟩ := Option.map_eq_some_iff.1 h
      exact .cons (timedInputs_inputsOf ht) (ih hrest)

/-- What a line presents to its micro-operations, one after the other. -/
theorem ScriptLine.inputs_forall {p : Params} {now : Time} {l : ScriptLine} {ls : List (List Input)}
    (h : l.inputs p now = some ls) : List.Forall₂ (InputsOf p) l.action.steps ls := by
  obtain ⟨out, hout, h⟩ := Option.bind_eq_some_iff.1 h
  rw [← attachMarks_steps hout]
  exact inputsOf_forall h

/-! ## The issue -/

/-- A command line is issued with the inputs of its IDLE; those of the operation follow. -/
theorem runLine_issue {l : ScriptLine} {x : Instr × Input} {steps : List (Instr × Input)}
    (ha : l.action.steps = x :: steps) {s : State} (hf : isFinal s = true)
    {first : List Input} {rest : List (List Input)}
    (hin : l.inputs s.params s.now = some (first :: rest)) :
    runLine l s = issue first.length rest.flatten.length (s.present (first ++ rest.flatten)) := by
  obtain ⟨a, marks⟩ := l
  cases a with
  | reset | expect => cases ha
  | _ => simp [runLine, hf, hin]

/-- A command line whose inputs cannot be had. -/
theorem runLine_illTimed {l : ScriptLine} {x : Instr × Input} {steps : List (Instr × Input)}
    (ha : l.action.steps = x :: steps) {s : State} (hf : isFinal s = true)
    (hin : l.inputs s.params s.now = none) : runLine l s = .illTimed := by
  obtain ⟨a, marks⟩ := l
  cases a with
  | reset | expect => cases ha
  | _ => simp [runLine, hf, hin]

/-- A run of steps is part of the issue. -/
theorem RunWhile.issue_eq {P : State → Prop} {n : Nat} {s t : State} (h : RunWhile P n s t)
    (m fuel : Nat) : issue (n + m) fuel s = issue m fuel t := by
  induction h with
  | nil s => rw [Nat.zero_add]
  | cons _ first _ ih =>
    simp only [Nat.add_right_comm, issue, first, ih]

/-- The last step of the issue, which takes the command. -/
theorem issue_one_next {fuel : Nat} {s t : State} (h : step s = .next t) :
    issue 1 fuel s = untilFinal fuel t := by
  simp only [issue, h]

theorem issue_one_refused {fuel : Nat} {s : State} {r : Refusal} (h : step s = .refused r) :
    issue 1 fuel s = .refused r := by
  simp only [issue, h]

/-! ## The refused line -/

/-- Before INIT the step that is presented CREATE_REPORT refuses it (R84). -/
theorem step_createReport_uninit {s : State} (hf : isFinal s = true) (hi : s.inited = false)
    (hc : s.ports.cmd = 0b10#2) (hr : s.ports.rst = false) (hs : s.ports.stall = false) :
    step s = .refused .notInitialised := by
  obtain ⟨hupc, hb⟩ := isFinal_iff.1 hf
  exact (commandChecks.2.1 s hupc hb hi).2 hr hc (.inr hs)

/-- Settles O53: the line has no marks, so its first input presents the command, which is
refused. -/
theorem refusedLineChangesNothing : Obligations.RefusedLineChangesNothing := by
  intro s w lines refusals hupc hb hi
  have hf : isFinal s = true := isFinal_iff.2 ⟨hupc, hb⟩
  have hline : runLine { action := .createReport w } s = .refused .notInitialised := by
    have hone : stepCount s.params .idle = 1 := stepCount_instant _ rfl
    rw [runLine_issue rfl hf (inputs_unmarked _ _ _)]
    simp only [hone, List.replicate_one, List.length_singleton]
    exact issue_one_refused (step_createReport_uninit hf hi rfl rfl rfl)
  rw [runScript, hline]

end Sys2Proof.Machine
end

