-- ==== Sys2Proof/Proofs/ScriptEnd.lean ====
section
/-!
SUPPORT. That every script ends (spec/40_host_commands.md rule R88): `stepsLeft` counts the steps an
operation still needs, every step that is not stalled takes one off, and a command line presents at
least so many inputs, however it is timed.
-/

namespace Sys2Proof.Machine

/-! ## How many steps an operation still needs -/

/-- The steps of one iteration, SAMPLE to LOOP. -/
def bitLength (p : Params) : Nat := 4 + stepCount p .waitClkHi + stepCount p .waitClkLo

/-- The steps of an operation, CLR to DONE (R73, R156). -/
def operationLength (p : Params) : Nat := 6 + stepCount p .waitLatch + 8 * bitLength p

/-- The steps from micro-operation `i` to DONE when `I` is `k` and TMR is `tmr` (R73, R156). -/
def stepsFromInstr (p : Params) (k tmr : Nat) (i : Instr) : Nat :=
  let afterLoop := (7 - k) * bitLength p + 3
  match i with
  | .clr => operationLength p
  | .latchHi => 5 + stepCount p .waitLatch + 8 * bitLength p
  | .waitLatch => max 1 tmr + 4 + 8 * bitLength p
  | .latchLo => 4 + 8 * bitLength p
  | .sample => bitLength p + afterLoop
  | .clkHi => 3 + stepCount p .waitClkHi + stepCount p .waitClkLo + afterLoop
  | .waitClkHi => max 1 tmr + 2 + stepCount p .waitClkLo + afterLoop
  | .clkLo => 2 + stepCount p .waitClkLo + afterLoop
  | .waitClkLo => max 1 tmr + 1 + afterLoop
  | .loop => 1 + afterLoop
  | .decode => 3
  | .pack => 2
  | .done => 1
  | _ => 0

/-- The steps of an operation from the phase a state is in. -/
def stepsLeft (s : State) : Nat :=
  match decodePhase s.upc with
  | .ok i => stepsFromInstr s.params s.i.toNat s.tmr i
  | .error _ => 0

theorem stepsLeft_eq {s : State} {i : Instr} (hd : decodePhase s.upc = .ok i) :
    stepsLeft s = stepsFromInstr s.params s.i.toNat s.tmr i := by
  rw [stepsLeft, hd]

/-- A phase that BlockInv allows has a micro-operation (R33 (i), R69). -/
theorem BlockInv.selects {s : State} (h : BlockInv s) : ∃ i, decodePhase s.upc = .ok i := by
  have hall : ∀ p : PhaseCode, p ≤ 0xD#4 → (decodePhase p).toOption.isSome = true := by decide
  have hs := hall s.upc h.phase_legal
  cases hd : decodePhase s.upc with
  | ok i => exact ⟨i, rfl⟩
  | error e => rw [hd] at hs; cases hs

/-- Only IDLE has no steps left. -/
theorem BlockInv.final_of_stepsLeft {s : State} (h : BlockInv s) (hn : stepsLeft s = 0) :
    s.upc = 0x0#4 := by
  obtain ⟨i, hd⟩ := h.selects
  have hcode : encode i = .uph s.upc := encode_of_decodePhase hd
  rw [stepsLeft_eq hd] at hn
  cases i with
  | nop | init | createReport | processReport => cases hcode
  | idle => exact (CodeWord.uph.inj hcode).symm
  | _ => simp [stepsFromInstr, operationLength, bitLength] at hn

theorem BlockInv.isFinal_iff_idle {s : State} (h : BlockInv s) :
    isFinal s = true ↔ s.upc = 0x0#4 := by
  rw [isFinal_iff, and_iff_left_iff_imp]
  intro hupc
  exact Bool.eq_false_iff.2 fun hb => h.busy_iff.1 hb hupc

/-! ## Every step takes one off -/

/-- A load of TMR leaves a wait as many steps as it takes (R92, R96, R98, R156). -/
theorem BlockInv.wait_loaded {s : State} (h : BlockInv s) {i : Instr} {t : Nat}
    (hi : leastWait i = t) : max 1 (loadTmr t s).tmr = stepCount s.params i := by
  cases hf : s.params.fClkHz with
  | none => rw [loadTmr_step t hf, h.tmr_step_level hf, stepCount_step hf]; rfl
  | some f => rw [loadTmr_tick t hf, stepCount_tick hf, hi]

/-- What a step of a wait leaves to do: one step less of the wait, or the successor. -/
theorem BlockInv.waitFor_left {s : State} (h : BlockInv s) (t : Nat) (q : PhaseCode) :
    (waitFor t q s).upc = s.upc ∧ max 1 (waitFor t q s).tmr + 1 = max 1 s.tmr ∨
      (waitFor t q s).upc = q ∧ max 1 s.tmr = 1 := by
  cases hf : s.params.fClkHz with
  | none =>
    rw [waitFor_step t q hf, h.tmr_step_level hf]
    exact .inr ⟨rfl, rfl⟩
  | some f =>
    by_cases ht : 1 < s.tmr
    · rw [waitFor_count t q hf ht]
      exact .inl ⟨rfl, by dsimp only; omega⟩
    · rw [waitFor_last t q hf ht]
      exact .inr ⟨rfl, by omega⟩

/-- A step of a wait is one step less to do, when after the wait its successor `j` is left. -/
theorem BlockInv.wait_stepsLeft {s : State} (h : BlockInv s) {i : Instr} (t : Nat) (q : PhaseCode)
    (j : Instr) (hi : decodePhase s.upc = .ok i) (hj : decodePhase q = .ok j)
    (hleft : ∀ tmr tmr', stepsFromInstr s.params s.i.toNat tmr i =
      max 1 tmr + stepsFromInstr s.params s.i.toNat tmr' j) :
    stepsLeft (waitFor t q s) + 1 = stepsFromInstr s.params s.i.toNat s.tmr i := by
  rcases h.waitFor_left t q with ⟨hupc, htmr⟩ | ⟨hupc, htmr⟩
  · rw [stepsLeft_eq (hupc ▸ hi), waitFor_params, waitFor_i, hleft _ 0, hleft _ 0]
    omega
  · rw [stepsLeft_eq (hupc ▸ hj), waitFor_params, waitFor_i, hleft _ (waitFor t q s).tmr]
    omega

/-- LOOP with more bits to come leaves the next iteration, else DECODE (R100). -/
theorem loop_stepsLeft {s : State} (hi : s.i.toNat ≤ 7) (now : Time) : stepsLeft { s with
    i := s.i + 1#4, upc := if s.i + 1#4 < 8#4 then 0x5#4 else 0xB#4, now := now } + 1 =
      stepsFromInstr s.params s.i.toNat s.tmr .loop := by
  have hnext : (s.i + 1#4).toNat = s.i.toNat + 1 := by bv_omega
  split
  · next hlt =>
    have hmore : s.i.toNat + 1 < 8 := hnext ▸ BitVec.lt_def.1 hlt
    have hk : 7 - s.i.toNat = 7 - (s.i.toNat + 1) + 1 := by omega
    rw [stepsLeft_eq (i := .sample) rfl]
    simp only [stepsFromInstr, hnext, hk, Nat.succ_mul]
    omega
  · next hlt =>
    have hlast : ¬s.i.toNat + 1 < 8 := fun hk => hlt (BitVec.lt_def.2 (hnext.symm ▸ hk))
    have hk : s.i.toNat = 7 := by omega
    rw [stepsLeft_eq (i := .decode) rfl]
    simp only [stepsFromInstr, hk, Nat.sub_self, Nat.zero_mul]

/-- A micro-operation of an operation, or one period of it, is one step less to do. -/
theorem BlockInv.exec_stepsLeft {s t : State} {i : Instr} (h : BlockInv s)
    (hd : decodePhase s.upc = .ok i) (hb : s.busy = true) (he : exec i s = .next t) :
    stepsLeft t + 1 = stepsLeft s := by
  have hbusy : canTake s = false := canTake_eq_false.2 (.inr hb)
  have hcode : encode i = .uph s.upc := encode_of_decodePhase hd
  have hcount {p : PhaseCode} (hp : encode i = .uph p) : countAllowed p s.i = true :=
    (h.row_at (upc_of_decodePhase hd hp)).count
  rw [stepsLeft_eq hd]
  cases exec_effect he with
  | nop => cases hcode
  | init _ taken | createReport _ taken | processReport _ taken => simp [hbusy] at taken
  | idle => exact absurd (CodeWord.uph.inj hcode).symm (h.busy_iff.1 hb)
  | latchHi =>
    rw [stepsLeft_eq (i := .waitLatch) rfl]
    simp only [stepsFromInstr, h.wait_loaded (i := .waitLatch) (t := tLatchMin) rfl]
    omega
  | waitLatch =>
    exact h.wait_stepsLeft tLatchMin 0x4#4 .latchLo hd rfl fun _ _ => Nat.add_assoc _ _ _
  | clkHi =>
    rw [stepsLeft_eq (i := .waitClkHi) rfl]
    simp only [stepsFromInstr, h.wait_loaded (i := .waitClkHi) (t := tClkHiMin) rfl]
    omega
  | waitClkHi =>
    refine h.wait_stepsLeft tClkHiMin 0x8#4 .clkLo hd rfl fun _ _ => ?_
    simp only [stepsFromInstr]
    omega
  | clkLo =>
    rw [stepsLeft_eq (i := .waitClkLo) rfl]
    simp only [stepsFromInstr, h.wait_loaded (i := .waitClkLo) (t := tClkLoMin) rfl]
    omega
  | waitClkLo => exact h.wait_stepsLeft tClkLoMin 0xA#4 .loop hd rfl fun _ _ => Nat.add_assoc _ _ _
  | latchLo =>
    have hi : s.i = 0#4 := of_decide_eq_true (hcount rfl)
    rw [stepsLeft_eq (i := .sample) rfl]
    simp only [stepsFromInstr, hi, BitVec.toNat_ofNat, Nat.zero_mod]
    omega
  | loop => exact loop_stepsLeft (BitVec.le_def.1 (of_decide_eq_true (hcount rfl))) _
  | clr => rw [stepsLeft_eq (i := .latchHi) rfl]; simp only [stepsFromInstr, operationLength]; omega
  | sample => rw [stepsLeft_eq (i := .clkHi) rfl]; simp only [stepsFromInstr, bitLength]; omega
  | decode => rfl
  | pack => rfl
  | done => rfl

/-! ## From the acceptance to the end -/

/-- Nothing but RESET clears INITED (R17). -/
theorem exec_inited {i : Instr} {s t : State} (h : exec i s = .next t) (hi : s.inited = true) :
    t.inited = true := by
  cases exec_effect h <;> simp [hi]

/-- The environment leaves an operation undisturbed (R89). -/
def Input.Undisturbing (x : Input) : Prop := x.cmd = 0b00#2 ∧ x.rst = false

/-- While the host keeps its duty a busy block steps on, and is nearer to the end unless the period
is stalled (R104). -/
theorem BlockInv.busy_step {s : State} (h : BlockInv s) (hb : s.busy = true)
    (hq : s.ports.Undisturbing) : ∃ t, step s = .next (endStep s t) ∧ t.script = s.script ∧
      (s.inited = true → t.inited = true) ∧
      stepsLeft t + [s.ports].countP (!·.stall) ≤ stepsLeft s := by
  obtain ⟨hcmd, hrst⟩ := hq
  cases hs : stalled s with
  | true =>
    have hstall : s.ports.stall = true := (Bool.and_eq_true_iff.1 hs).2
    refine ⟨stallPeriod s, by rw [step, preempt_stall hrst (.inl hcmd) hs], rfl, id, ?_⟩
    simp only [List.countP_singleton, hstall]
    exact le_rfl
  | false =>
    obtain ⟨i, hd⟩ := h.selects
    have hidle : i ≠ .idle := by
      rintro rfl
      exact h.busy_iff.1 hb (upc_of_decodePhase hd rfl)
    obtain ⟨t, he⟩ := phase_exec_next hd h.params_wf fun hi => absurd hi hidle
    refine ⟨t, ?_, (exec_environment he).2, exec_inited he, ?_⟩
    · rw [step_of_preempt_none (preempt_none hrst (.inl hcmd) hs) hd, he, finish]
    · rw [← h.exec_stepsLeft hd hb he]
      exact Nat.add_le_add_left List.countP_le_length _

/-- An operation under way ends when enough unstalled inputs are to come: the induction over
them. -/
theorem BlockInv.untilFinal_ends {inputs : List Input} {s : State} (h : BlockInv s)
    (hp : Pending s inputs) (hq : ∀ x ∈ inputs, x.Undisturbing)
    (hn : stepsLeft s ≤ inputs.countP (!·.stall)) :
    ∃ t, untilFinal inputs.length s = .ended t ∧ BlockInv t ∧
      (s.inited = true → t.inited = true) := by
  induction inputs generalizing s with
  | nil =>
    have hf : isFinal s = true := h.isFinal_iff_idle.2 (h.final_of_stepsLeft (Nat.le_zero.1 hn))
    exact ⟨s, untilFinal_final hf 0, h, id⟩
  | cons x inputs ih =>
    cases hf : isFinal s with
    | true => exact ⟨s, untilFinal_final hf _, h, id⟩
    | false =>
      have hb : s.busy = true := h.busy_iff.2 fun hupc =>
        Bool.eq_false_iff.1 hf (h.isFinal_iff_idle.2 hupc)
      obtain ⟨t, hs, hscript, hinited, hless⟩ :=
        h.busy_step hb (hp.ports ▸ hq x List.mem_cons_self)
      have hn' : stepsLeft (Machine.endStep s t) ≤ inputs.countP (!·.stall) := by
        rw [← List.singleton_append, List.countP_append, ← hp.ports] at hn
        change stepsLeft t ≤ _
        omega
      obtain ⟨u, hu, hinv, hinited'⟩ := ih (stepKeepsInvariant _ _ h hs) (hp.endStep hscript)
        (fun y hy => hq y (List.mem_cons_of_mem x hy)) hn'
      exact ⟨u, (untilFinal_step hf hs _).trans hu, hinv, hinited' ∘ hinited⟩

/-! ## The inputs of a line are enough -/

/-- How many steps a line's micro-operations take unstalled. -/
def lineLength (p : Params) (steps : List (Instr × Input)) : Nat :=
  (steps.map fun x => stepCount p x.1).sum

/-- The micro-operations of an operation take the steps from CLR to DONE (R73). -/
theorem lineLength_operationSteps (p : Params) (w : Byte) :
    lineLength p (operationSteps w) = operationLength p := by
  have hseq : lineLength p (operationSteps w) = (fixedSequence.map (stepCount p)).sum := rfl
  have hbit : (shiftBit.map (stepCount p)).sum = bitLength p := by
    simp [shiftBit, pulseClock, stepCount_instant p, leastWait, bitLength]
    omega
  simp [hseq, fixedSequence, readController, pulseLatch, buildReport, nBits, hbit,
    stepCount_instant p, leastWait, operationLength]
  omega

/-- A line presents no command, no reset and no stall to these micro-operations. -/
def Unattended (steps : List (Instr × Input)) : Prop :=
  ∀ x ∈ steps, { x.2 with data := .floating } = Input.quiet

theorem unattended_operationSteps (w : Byte) : Unattended (operationSteps w) := by
  intro x hx
  simp only [operationSteps, List.mem_append, List.mem_flatMap, List.mem_cons, List.mem_map] at hx
  rcases hx with (⟨i, -, rfl⟩ | ⟨k, -, rfl | ⟨i, -, rfl⟩⟩) | ⟨i, -, rfl⟩ <;> rfl

theorem InputsOf.undisturbing {p : Params} {x : Instr × Input} {inputs : List Input}
    (h : InputsOf p x inputs) (hx : { x.2 with data := .floating } = Input.quiet) :
    ∀ y ∈ inputs, y.Undisturbing := by
  obtain ⟨n, d, -, rfl⟩ := h
  intro y hy
  rcases List.mem_append.1 hy with hy | hy
  · rw [List.eq_of_mem_replicate hy]; exact ⟨rfl, rfl⟩
  · rw [List.eq_of_mem_replicate hy]; exact ⟨congrArg Input.cmd hx, congrArg Input.rst hx⟩

theorem InputsOf.countP_stall {p : Params} {x : Instr × Input} {inputs : List Input}
    (h : InputsOf p x inputs) (hx : x.2.stall = false) :
    inputs.countP (!·.stall) = stepCount p x.1 := by
  obtain ⟨n, d, -, rfl⟩ := h
  simp [hx, List.countP_replicate]

theorem Unattended.undisturbing {p : Params} {steps : List (Instr × Input)} {ls : List (List Input)}
    (h : Unattended steps) (hin : List.Forall₂ (InputsOf p) steps ls) :
    ∀ y ∈ ls.flatten, y.Undisturbing := by
  induction hin with
  | nil => exact fun _ hy => absurd hy List.not_mem_nil
  | cons hx _ ih =>
    intro y hy
    rw [List.flatten_cons, List.mem_append] at hy
    rcases hy with hy | hy
    · exact hx.undisturbing (h _ List.mem_cons_self) y hy
    · exact ih (fun x hx => h x (List.mem_cons_of_mem _ hx)) y hy

theorem Unattended.countP_stall {p : Params} {steps : List (Instr × Input)} {ls : List (List Input)}
    (h : Unattended steps) (hin : List.Forall₂ (InputsOf p) steps ls) :
    ls.flatten.countP (!·.stall) = lineLength p steps := by
  induction hin with
  | nil => rfl
  | cons hx _ ih =>
    rw [List.flatten_cons, List.countP_append,
      hx.countP_stall (congrArg Input.stall (h _ List.mem_cons_self)),
      ih fun x hx => h x (List.mem_cons_of_mem _ hx)]
    rfl

/-! ## A line, however it is timed -/

/-- How a line can end that is run in IDLE from a state that meets the invariant. -/
inductive LineOutcome (l : ScriptLine) (s : State) : LineEnd → Prop
  | illTimed (marked : l.marks ≠ []) : LineOutcome l s .illTimed
  | unmet (what : List Expectation) (expects : l.action = .expect what) : LineOutcome l s .unmet
  | refused (uninit : s.inited = false) : LineOutcome l s (.refused .notInitialised)
  | ended (t : State) (inv : BlockInv t) (final : isFinal t = true)
      (inited : s.inited = true → l.action ≠ .reset → t.inited = true) : LineOutcome l s (.ended t)

/-- The step that takes the command of a line, and the operation it starts. -/
theorem command_outcome {l : ScriptLine} {s v : State} {x : Input} {inputs : List Input}
    (h : BlockInv v) (hf : isFinal v = true) (hv : v.inited = s.inited)
    (hp : Pending v (x :: inputs)) (hr : x.rst = false) (hs : x.stall = false)
    (hq : ∀ y ∈ inputs, y.Undisturbing)
    (hn : x.cmd = 0b10#2 → operationLength v.params ≤ inputs.countP (!·.stall)) :
    LineOutcome l s (issue 1 inputs.length v) := by
  have hports := hp.ports
  by_cases hc : v.ports.cmd = 0b10#2 ∧ v.inited = false
  · obtain ⟨hc, hi⟩ := hc
    rw [issue_one_refused
      (step_createReport_uninit hf hi hc (by rw [hports, hr]) (by rw [hports, hs]))]
    exact .refused (hv ▸ hi)
  · have hd : decodePhase v.upc = .ok .idle := by rw [(isFinal_iff.1 hf).1]; rfl
    obtain ⟨w, he⟩ := phase_exec_next hd h.params_wf fun _ => .inr ⟨hf, by simpa using hc⟩
    have hstep := step_executes (hports ▸ hr) (.inr hf) (.inr (hports ▸ hs)) hd he
    have hleft : stepsLeft w ≤ inputs.countP (!·.stall) := by
      have hupc : w.upc = if v.ports.cmd = 0b10#2 then 0x1#4 else 0x0#4 :=
        phaseSuccessors .idle v w he
      split at hupc
      · next hcmd =>
        rw [stepsLeft_eq (i := .clr) (by rw [hupc]; rfl), stepsFromInstr, (exec_environment he).1]
        exact hn (hports ▸ hcmd)
      · rw [stepsLeft_eq (i := .idle) (by rw [hupc]; rfl)]
        exact Nat.zero_le _
    obtain ⟨t, ht, hinv, hinited⟩ := (stepKeepsInvariant _ _ h hstep).untilFinal_ends
      (hp.endStep (exec_environment he).2) hq hleft
    rw [issue_one_next hstep, ht]
    exact .ended t hinv (untilFinal_ended ht) fun hi _ =>
      hinited (exec_inited (t := w) he (hv.trans hi))

/-- The stalled periods a line begins with leave the block as it is (R156). -/
theorem stalls_alike {n : Nat} {u : State} {rest : List Input} (hn : u.params.fClkHz = none → n = 0)
    (hp : Pending u (List.replicate n { Input.quiet with stall := true } ++ rest)) :
    ∃ v, RunWhile (Alike u) n u v ∧ Alike u v ∧ Pending v rest := by
  cases hf : u.params.fClkHz with
  | none =>
    obtain rfl := hn hf
    exact ⟨u, .nil u, .refl u, hp⟩
  | some f =>
    obtain ⟨v, hv, -⟩ := stalls_pass n hf hp
    exact ⟨v, hv.run, hv.alike, hv.pending⟩

theorem RunWhile.blockInv {P : State → Prop} {n : Nat} {s t : State} (h : RunWhile P n s t)
    (hs : BlockInv s) : BlockInv t := by
  induction h with
  | nil s => exact hs
  | cons _ first _ ih => exact ih (stepKeepsInvariant _ _ hs first)

/-- The invariant does not speak of what is presented. -/
theorem BlockInv.present {s : State} (h : BlockInv s) (inputs : List Input) :
    BlockInv (s.present inputs) :=
  { h with }

/-- The issue of a line: the stalled periods, if any, before the step that takes the command. -/
theorem issue_outcome {l : ScriptLine} {s : State} {n : Nat} {x : Input} {inputs : List Input}
    (h : BlockInv s) (hf : isFinal s = true) (hclk : s.params.fClkHz = none → n = 0)
    (hr : x.rst = false) (hs : x.stall = false) (hq : ∀ y ∈ inputs, y.Undisturbing)
    (hn : x.cmd = 0b10#2 → operationLength s.params ≤ inputs.countP (!·.stall)) :
    LineOutcome l s (issue (n + 1) inputs.length
      (s.present (List.replicate n { Input.quiet with stall := true } ++ x :: inputs))) := by
  obtain ⟨v, hrun, halike, hpending⟩ := stalls_alike (u := s.present _) hclk (pending_present s _)
  have hfinal : isFinal v = true := by
    rw [isFinal_iff, halike.upc, halike.busy]
    exact isFinal_iff.1 hf
  rw [hrun.issue_eq]
  exact command_outcome (hrun.blockInv (h.present _)) hfinal halike.inited hpending hr hs hq
    (halike.params ▸ hn)

/-- A line of a command, with the steps the operation it starts, if any, needs at least. -/
theorem commandLine_outcome {l : ScriptLine} {s : State} {x : Input} {steps : List (Instr × Input)}
    (ha : l.action.steps = (.idle, x) :: steps) (h : BlockInv s) (hf : isFinal s = true)
    (hr : x.rst = false) (hs : x.stall = false) (hq : Unattended steps)
    (hn : x.cmd = 0b10#2 → operationLength s.params ≤ lineLength s.params steps) :
    LineOutcome l s (runLine l s) := by
  cases hin : l.inputs s.params s.now with
  | none =>
    rw [runLine_illTimed ha hf hin]
    refine .illTimed fun hmarks => ?_
    obtain ⟨a, marks⟩ := l
    subst hmarks
    cases (inputs_unmarked s.params s.now a).symm.trans hin
  | some ls =>
    have hall := ScriptLine.inputs_forall hin
    rw [ha] at hall
    obtain ⟨first, rest, ⟨n, d, hclk, hfirst⟩, hrest, rfl⟩ := List.forall₂_cons_left_iff.1 hall
    have hone : stepCount s.params .idle = 1 := stepCount_instant _ rfl
    rw [runLine_issue ha hf hin, hfirst, hone, List.length_append, List.length_replicate,
      List.append_assoc]
    exact issue_outcome h hf hclk hr hs (hq.undisturbing hrest) fun hc =>
      (hn hc).trans (hq.countP_stall hrest).ge

/-- A line of a command that starts no operation. -/
theorem singleStep_outcome {l : ScriptLine} {s : State} {x : Input}
    (ha : l.action.steps = [(.idle, x)]) (hc : x.cmd ≠ 0b10#2) (h : BlockInv s)
    (hf : isFinal s = true) (hr : x.rst = false) (hs : x.stall = false) :
    LineOutcome l s (runLine l s) :=
  commandLine_outcome ha h hf hr hs (fun _ hx => absurd hx List.not_mem_nil) fun hx => absurd hx hc

/-- A line run in IDLE from a state that meets the invariant. -/
theorem line_outcome (l : ScriptLine) {s : State} (h : BlockInv s) (hf : isFinal s = true) :
    LineOutcome l s (runLine l s) := by
  obtain ⟨a, marks⟩ := l
  cases a with
  | reset =>
    cases marks with
    | cons m marks => exact .illTimed (List.cons_ne_nil m marks)
    | nil =>
      rw [runLine_reset]
      have hinv : BlockInv (resetBlock s) := blockInv_resetBlock h.params_wf
      exact .ended _ { hinv with } rfl fun _ hne => absurd rfl hne
  | expect what =>
    cases marks with
    | cons m marks => exact .illTimed (List.cons_ne_nil m marks)
    | nil =>
      cases hw : what.all (Expectation.holds s) with
      | true =>
        have hline : runLine ⟨.expect what, []⟩ s = .ended s := by simp [runLine, hw]
        exact hline ▸ .ended s h hf fun hi _ => hi
      | false =>
        have hline : runLine ⟨.expect what, []⟩ s = .unmet := by simp [runLine, hw]
        exact hline ▸ .unmet what rfl
  | init => exact singleStep_outcome rfl (by simp) h hf rfl rfl
  | nop => exact singleStep_outcome rfl (by simp [Input.quiet]) h hf rfl rfl
  | processReport payload => exact singleStep_outcome rfl (by simp) h hf rfl rfl
  | createReport w =>
    have ha : (Action.createReport w).steps =
        (.idle, { Input.quiet with cmd := Cmd.createReport }) :: operationSteps w := rfl
    exact commandLine_outcome ha h hf rfl rfl (unattended_operationSteps w) fun _ =>
      (lineLength_operationSteps s.params w).ge

/-! ## A script -/

/-- How the run of a script can end from such a state, after refusals already recorded. -/
inductive ScriptOutcome (lines : List ScriptLine) (s : State) (refusals : List Refusal) :
    ScriptEnd → Prop
  | illTimed (l : ScriptLine) (mem : l ∈ lines) (marked : l.marks ≠ []) :
      ScriptOutcome lines s refusals (.stopped .illTimed)
  | unmet (l : ScriptLine) (mem : l ∈ lines) (what : List Expectation)
      (expects : l.action = .expect what) : ScriptOutcome lines s refusals (.stopped .unmet)
  | ended (t : State) (more : List Refusal) (inv : BlockInv t) (final : isFinal t = true)
      (uninit : ∀ r ∈ more, r = .notInitialised)
      (inited : s.inited = true → (∀ l ∈ lines, l.action ≠ .reset) → more = []) :
      ScriptOutcome lines s refusals (.ended t (refusals ++ more))

/-- A line with these refusals before a script that goes on in `t`. -/
theorem ScriptOutcome.cons {l : ScriptLine} {lines : List ScriptLine} {s t : State}
    {refusals first : List Refusal} {e : ScriptEnd}
    (h : ScriptOutcome lines t (refusals ++ first) e) (hfirst : ∀ r ∈ first, r = .notInitialised)
    (hinited : s.inited = true → l.action ≠ .reset → first = [] ∧ t.inited = true) :
    ScriptOutcome (l :: lines) s refusals e := by
  cases h with
  | illTimed l' mem marked => exact .illTimed l' (List.mem_cons_of_mem l mem) marked
  | unmet l' mem what expects => exact .unmet l' (List.mem_cons_of_mem l mem) what expects
  | ended u more inv final uninit inited =>
    rw [List.append_assoc]
    refine .ended u (first ++ more) inv final (fun r hr => ?_) fun hi hne => ?_
    · exact (List.mem_append.1 hr).elim (hfirst r) (uninit r)
    · obtain ⟨rfl, ht⟩ := hinited hi (hne l List.mem_cons_self)
      exact inited ht fun l' hl => hne l' (List.mem_cons_of_mem l hl)

/-- The induction over the lines. -/
theorem script_outcome (lines : List ScriptLine) {s : State} (h : BlockInv s)
    (hf : isFinal s = true) (refusals : List Refusal) :
    ScriptOutcome lines s refusals (runScript lines s refusals) := by
  induction lines generalizing s refusals with
  | nil =>
    have hend : runScript [] s refusals = .ended s (refusals ++ []) := by simp [runScript, hf]
    exact hend ▸ .ended s [] h hf nofun fun _ _ => rfl
  | cons l lines ih =>
    have hline := line_outcome l h hf
    unfold runScript
    generalize runLine l s = e at hline ⊢
    cases hline with
    | illTimed marked => exact .illTimed l List.mem_cons_self marked
    | unmet what expects => exact .unmet l List.mem_cons_self what expects
    | refused uninit =>
      exact (ih h hf _).cons (first := [.notInitialised]) (fun _ => List.eq_of_mem_singleton)
        fun hi _ => absurd hi (by simp [uninit])
    | ended t inv final inited =>
      exact .cons (first := []) (by simpa using ih inv final refusals) nofun
        fun hi hne => ⟨rfl, inited hi hne⟩

/-- Settles O55: the outcomes of a script are the ends the statement allows, and without marks and
EXPECT lines only the last of them is left. -/
theorem everyScriptEndsInIdle : Obligations.EveryScriptEndsInIdle := by
  intro lines s h hupc
  have hout := script_outcome lines h (h.isFinal_iff_idle.2 hupc) []
  generalize runScript lines s [] = e at hout ⊢
  cases hout with
  | illTimed l mem marked => exact ⟨.inl rfl, fun hall => absurd (hall l mem).1 marked⟩
  | unmet l mem what expects =>
    exact ⟨.inr (.inl rfl), fun hall => absurd expects ((hall l mem).2 what)⟩
  | ended t more inv final uninit inited =>
    obtain ⟨hidle, hbusy⟩ := isFinal_iff.1 final
    exact ⟨.inr (.inr ⟨t, more, rfl, hidle, hbusy, inv, uninit, inited⟩), fun _ => ⟨t, more, rfl⟩⟩

end Sys2Proof.Machine
end

