-- ==== Sys2Proof/Proofs/Reader.lean ====
section
/-!
SUPPORT. The micro-operations of the sequencer and the Controller Reader, one by one
(spec/41_reader_microops.md rules R90 to R101), and that a host that does its duties is never left
without a step (spec/60_exceptions.md rule R121, spec/40_host_commands.md rule R89).
-/

namespace Sys2Proof.Machine

/-! ## IDLE and CLR -/

/-- Settles O12: IDLE's four cases, each by its own equation. -/
theorem idleExecutesPresentedCommand : Obligations.IdleExecutesPresentedCommand :=
  ⟨rfl, fun s => ⟨fun hc => ⟨_, execIdle_nop hc, rfl, le_elapse_now 0 s, fun _ => rfl⟩,
    execIdle_init, execIdle_createReport, execIdle_processReport⟩⟩

/-- Settles O13: what CLR writes into the three registers is 0 in every bit. -/
theorem clrClearsScratch : Obligations.ClrClearsScratch :=
  ⟨rfl, fun s => ⟨_, execClr_eq s, rfl, fun k _ => ⟨BitVec.getLsbD_zero, noButtons_get k⟩, rfl,
    le_elapse_now 0 s, fun _ => rfl⟩⟩

/-! ## The pin edges and the waits -/

/-- At tick level `TMR` is loaded with the ceiling R156 writes. -/
theorem loadTmr_tmr_ceil {s : State} {f : Nat} (t : Nat) (h : s.params.fClkHz = some f) :
    (loadTmr t s).tmr = ⌈((t * f : Nat) : Rat) / 1000000⌉₊ := by
  rw [loadTmr_tick t h, tickCount_eq_ceil]

/-- At step level nothing is loaded. -/
theorem loadTmr_tmr_step {s : State} (t : Nat) (h : s.params.fClkHz = none) :
    (loadTmr t s).tmr = s.tmr := by
  rw [loadTmr_step t h]

/-- Settles O14: the edges are the equations of LATCH_HI and LATCH_LO; what LATCH_HI loads into
`TMR` depends on whether there is a clock. -/
theorem latchEdges : Obligations.LatchEdges := fun s =>
  ⟨⟨_, execLatchHi_eq s, rfl, loadTmr_tmr_step tLatchMin, fun _ => loadTmr_tmr_ceil tLatchMin,
      le_elapse_now 0 s, fun _ => rfl⟩,
    ⟨_, execLatchLo_eq s, rfl, le_elapse_now 0 s, fun _ => rfl⟩⟩

/-- Settles O15: the edges are the equations of CLK_HI and CLK_LO; both load `TMR`. -/
theorem clockEdges : Obligations.ClockEdges := fun s =>
  ⟨⟨_, execClkHi_eq s, rfl, loadTmr_tmr_step tClkHiMin, fun _ => loadTmr_tmr_ceil tClkHiMin,
      le_elapse_now 0 s, fun _ => rfl⟩,
    ⟨_, execClkLo_eq s, rfl, loadTmr_tmr_step tClkLoMin, fun _ => loadTmr_tmr_ceil tClkLoMin,
      le_elapse_now 0 s, fun _ => rfl⟩⟩

/-- At step level a wait is one step: it goes on to its successor, no earlier than its minimum, and
changes nothing else (R145). -/
theorem IsWait.exec_step {i : Instr} {t : Nat} {q : PhaseCode} (hi : IsWait i t q) {s : State}
    (h : s.params.fClkHz = none) :
    ∃ u, exec i s = .next u ∧ u = { s with upc := q, now := u.now } ∧ s.now + (t : Time) ≤ u.now ∧
      ∀ addr, u.rpt.read addr = s.rpt.read addr := by
  refine ⟨_, (hi.exec_eq s).trans (congrArg _ (waitFor_step t q h)), rfl, ?_, fun _ => rfl⟩
  exact le_add_of_nonneg_right (Delay_nonneg s.ports.extra)

/-- Settles O16: the three waits have one body. -/
theorem waitsLastTheirMinimum : Obligations.WaitsLastTheirMinimum := fun _ h =>
  ⟨isWait_waitLatch.exec_step h, isWait_waitClkHi.exec_step h, isWait_waitClkLo.exec_step h⟩

/-! ## SAMPLE, LOOP, DECODE -/

/-- Reading DATA draws a free level at most once. -/
theorem pinRead_draws (s : State) :
    (pinRead s).2.draws = s.draws ∨ (pinRead s).2.draws = s.draws + 1 :=
  (pinRead_snd s).imp (congrArg State.draws) (congrArg State.draws)

/-- Settles O19: the level is the one `pinRead` answers at the instant of the step; `storeBit` puts
its inverse into bit `7 - I`. -/
theorem sampleStoresInvertedLevel : Obligations.SampleStoresInvertedLevel := by
  refine ⟨rfl, fun s => ⟨_, (pinRead (elapse 0 s)).1, execSample_eq s, fun level hd => ?driven,
    fun hd hp => ?floating, fun k hk => storeBit_getLsbD _ s hk, rfl, ?draws, le_elapse_now 0 s,
    fun _ => rfl⟩⟩
  case driven => rw [pinRead_driven (d := level) (by rw [elapse_ports, hd])]
  case floating => rw [pinRead_floating (by rw [elapse_ports, hd]) (by rw [elapse_params, hp])]
  case draws => simpa using pinRead_draws (elapse 0 s)

/-- LOOP's addition does not wrap while `I` is at most 7, and its test then tells 7 from the values
below (R100). -/
theorem loop_counts (i : BitVec 4) :
    (i.toNat ≤ 7 → (i + 1#4).toNat = i.toNat + 1) ∧ (i.toNat < 7 → i + 1#4 < 8#4) ∧
      (i.toNat = 7 → ¬i + 1#4 < 8#4) := by
  revert i
  decide

/-- Settles O20: the successor is the branch of LOOP's test. -/
theorem loopCountsToEight : Obligations.LoopCountsToEight := by
  refine ⟨rfl, fun s => ?_⟩
  obtain ⟨hcount, hon, hout⟩ := loop_counts s.i
  exact ⟨_, execLoop_eq s, rfl, hcount, fun hi => if_pos (hon hi), fun hi => if_neg (hout hi),
    le_elapse_now 0 s, fun _ => rfl⟩

/-- Settles O21: flag by flag, the mask of R62 picks its bit. -/
theorem decodeWritesEveryFlag : Obligations.DecodeWritesEveryFlag :=
  ⟨rfl, fun s => ⟨_, execDecode_eq s, fun _ => decodeButtons_get s.acc, rfl, le_elapse_now 0 s,
    fun _ => rfl⟩⟩

/-! ## The dutiful host -/

/-- Under the invariant an idle block can take a command (R84, R33 (a)). -/
theorem BlockInv.canTake_of_not_busy {s : State} (h : BlockInv s) (hb : s.busy = false) :
    canTake s = true :=
  canTake_iff.2 ⟨by_contra fun hupc => Bool.eq_false_iff.1 hb (h.busy_iff.2 hupc), hb⟩

/-- Settles O31: a reset and a stalled period are steps; else UPC selects a micro-operation, which
completes because the command on the port is NOP or one the block takes. -/
theorem dutifulHostAlwaysGetsAStep : Obligations.DutifulHostAlwaysGetsAStep := by
  intro s h hquiet hinited
  have hcmd : s.ports.cmd = 0b00#2 ∨ canTake s = true := by
    cases hb : s.busy with
    | true => exact .inl (hquiet hb)
    | false => exact .inr (h.canTake_of_not_busy hb)
  cases hr : s.ports.rst with
  | true => exact ⟨_, by rw [step, preempt_reset hr]⟩
  | false =>
    cases hs : stalled s with
    | true => exact ⟨_, by rw [step, preempt_stall hr hcmd hs]⟩
    | false =>
      obtain ⟨i, hd⟩ := h.selects
      obtain ⟨t, ht⟩ := phase_exec_next hd h.params_wf fun _ => hcmd.imp_right (⟨·, hinited⟩)
      exact ⟨_, by rw [step_of_preempt_none (preempt_none hr hcmd hs) hd, ht, finish]⟩

end Sys2Proof.Machine
end

