-- ==== Sys2Proof/Proofs/Packer.lean ====
section
/-!
SUPPORT. The micro-operations of the Packer and the law of DECODE followed by PACK
(spec/42_packer_microops.md rules R110 to R112).
-/

namespace Sys2Proof.Machine

/-! ## PACK -/

/-- Settles O22: byte by byte, what the zeroed buffer with the button byte in it reads. -/
theorem packRebuildsReport : Obligations.PackRebuildsReport := by
  refine ⟨rfl, fun s hp hm => ⟨_, execPack_eq (buttonOffset_lt hp), fun k hk => ?button,
    fun addr ha hne => ?padding, fun addr ha => ?outside,
    Memory.write_wf (Memory.zeroBelow_wf hm _) _ _, rfl, le_elapse_now 0 s⟩⟩
  case button => rw [read_packed hm, if_pos rfl, packButtons_getLsbD s.bs hk]
  case padding => rw [read_packed hm, if_neg hne, if_pos ha]
  case outside =>
    have hne : addr ≠ s.params.buttonOffset := ((buttonOffset_lt hp).trans_le ha).ne'
    rw [read_packed hm, if_neg hne, if_neg (Nat.not_lt.2 ha)]

/-- Settles O25: PACK puts flag `k` into bit `k`, and DECODE has read that flag from bit `7 - k` of
ACC, leaving the report and its parameters to PACK as they were. -/
theorem buttonByteIsReversedAccumulator : Obligations.ButtonByteIsReversedAccumulator := by
  intro s hp hm
  obtain ⟨t, hdecode, hflags, ht, -, -⟩ := decodeWritesEveryFlag.2 s
  have hparams : t.params = s.params := by rw [ht]
  have hrpt : t.rpt = s.rpt := by rw [ht]
  obtain ⟨u, hpack, hbutton, -⟩ := packRebuildsReport.2 t (hparams ▸ hp) (hrpt ▸ hm)
  exact ⟨t, u, hdecode, hpack, fun k hk => by rw [← hparams, hbutton k hk, hflags k hk]⟩

/-! ## DONE -/

theorem reportImage_length (s : State) : (reportImage s).length = s.params.reportBytes := by
  rw [reportImage, List.length_map, List.length_range]

/-- The bytes handed over stand in the order of their indexes (R46). -/
theorem reportImage_getElem? {s : State} {addr : Nat} (h : addr < s.params.reportBytes) :
    (reportImage s)[addr]? = some (s.rpt.read addr) := by
  rw [reportImage, List.getElem?_map, List.getElem?_range h, Option.map_some]

/-- Settles O23: DONE's equation; the size fits its slot under R6. -/
theorem doneDeliversReport : Obligations.DoneDeliversReport :=
  ⟨rfl, fun s hp => ⟨_, reportImage s, execDone_eq s, sizeValue_toNat hp, reportImage_length s,
    fun _ => reportImage_getElem?, rfl, le_elapse_now 0 s, fun _ => rfl⟩⟩

end Sys2Proof.Machine
end

