-- ==== Sys2Proof/Proofs/Exceptions.lean ====
section
/-!
SUPPORT. What stops a step, said once for every step: the three refusals of R121, and the fault that
R6's bounds shut out. Then the callbacks of the USB stack (spec/60_exceptions.md rules R120, R121
and R129).
-/

namespace Sys2Proof.Machine

/-! ## What stops a step -/

/-- `Stops s r`: where no reset is presented, a step in `s` answers `r` and no next state. The first
three are the refusals of R121; the fault needs an offset that R6 forbids. -/
inductive Stops (s : State) : Result → Prop
  | cmdWhileBusy (presented : s.ports.cmd ≠ 0b00#2) (busy : canTake s = false) :
      Stops s (.refused .cmdWhileBusy)
  | notInitialised (presented : s.ports.cmd = 0b10#2) (taken : canTake s = true)
      (uninit : s.inited = false) (unstalled : stalled s = false) :
      Stops s (.refused .notInitialised)
  | reservedPhase (quiet : s.ports.cmd = 0b00#2) (reserved : s.upc = 0xE#4 ∨ s.upc = 0xF#4)
      (unstalled : stalled s = false) :
      Stops s (.refused .reservedPhase)
  | noSuchReportByte (outside : s.params.reportBytes ≤ s.params.buttonOffset) :
      Stops s (.fault (.noSuchReportByte s.params.buttonOffset))

/-- What stops an instruction stops the step. -/
theorem Stops.finish_eq {s : State} {r : Result} (h : Stops s r) : finish s r = r := by
  cases h <;> rfl

/-- IDLE stops only at a CREATE_REPORT before INIT, once the step has let the command through
(R84, R90). -/
theorem execIdle_next_or_stops {s : State} (hc : s.ports.cmd = 0b00#2 ∨ canTake s = true)
    (hs : stalled s = false) : (∃ t, execIdle s = .next t) ∨ Stops s (execIdle s) := by
  rcases execIdle_cases s with ⟨-, he⟩ | ⟨hcmd, he⟩ | ⟨hcmd, he⟩ | ⟨hcmd, he⟩ <;> rw [he]
  · exact .inl ⟨_, rfl⟩
  all_goals have ht : canTake s = true := hc.resolve_left (by simp [hcmd])
  · exact .inl ⟨_, execInit_eq ht⟩
  · cases hi : s.inited with
    | true => exact .inl ⟨_, execCreateReport_eq ht hi⟩
    | false => exact .inr (execCreateReport_uninit ht hi ▸ .notInitialised hcmd ht hi hs)
  · exact .inl ⟨_, execProcessReport_eq ht⟩

/-- The micro-operation UPC selects completes, or IDLE or PACK stops. -/
theorem phase_next_or_stops {s : State} {i : Instr} (hd : decodePhase s.upc = .ok i)
    (hc : s.ports.cmd = 0b00#2 ∨ canTake s = true) (hs : stalled s = false) :
    (∃ t, exec i s = .next t) ∨ Stops s (exec i s) := by
  have hcode : encode i = .uph s.upc := encode_of_decodePhase hd
  cases i with
  | nop | init | createReport | processReport => cases hcode
  | idle => exact execIdle_next_or_stops hc hs
  | pack =>
    rcases Nat.lt_or_ge s.params.buttonOffset s.params.reportBytes with ho | ho
    · exact .inl ⟨_, execPack_eq ho⟩
    · exact .inr (show Stops s (execPack s) from execPack_fault ho ▸ .noSuchReportByte ho)
  | _ => exact .inl ⟨_, rfl⟩

/-- The decoder rejects a reserved phase code and no other (R69). -/
theorem reserved_of_decodePhase_error {c : PhaseCode} {e : Reject} (h : decodePhase c = .error e) :
    c = 0xE#4 ∨ c = 0xF#4 := by
  have hall : ∀ c : PhaseCode,
      (match decodePhase c with
        | .ok _ => true
        | .error _ => decide (c = 0xE#4 ∨ c = 0xF#4)) = true := by decide
  have hc := hall c
  rw [h] at hc
  exact of_decide_eq_true hc

/-- Every step answers a next state or stops, and a reset never stops. -/
theorem step_next_or_stops (s : State) :
    (∃ t, step s = .next t) ∨ (s.ports.rst = false ∧ Stops s (step s)) := by
  cases hr : s.ports.rst with
  | true => exact .inl ⟨_, by rw [step, preempt_reset hr]⟩
  | false =>
    by_cases hc : s.ports.cmd = 0b00#2 ∨ canTake s = true
    · cases hs : stalled s with
      | true => exact .inl ⟨_, by rw [step, preempt_stall hr hc hs]⟩
      | false =>
        have hp : preempt s = none := preempt_none hr hc hs
        cases hd : decodePhase s.upc with
        | error e =>
          have hres := reserved_of_decodePhase_error hd
          have hidle : ¬canTake s = true := fun ht => by simp [(canTake_iff.1 ht).1] at hres
          rw [step, hp, hd]
          exact .inr ⟨rfl, .reservedPhase (hc.resolve_right hidle) hres hs⟩
        | ok i =>
          rw [step_of_preempt_none hp hd]
          rcases phase_next_or_stops hd hc hs with ⟨t, ht⟩ | hstop
          · exact .inl ⟨_, finish_next.2 ⟨t, ht, rfl⟩⟩
          · exact .inr ⟨rfl, hstop.finish_eq.symm ▸ hstop⟩
    · obtain ⟨hcmd, ht⟩ := not_or.1 hc
      have hbusy : canTake s = false := Bool.eq_false_iff.2 ht
      rw [step, preempt_busy hr hcmd hbusy]
      exact .inr ⟨rfl, .cmdWhileBusy hcmd hbusy⟩

/-- Settles O29: of what stops a step only PACK's offset is a fault, and R6 bounds the offset. -/
theorem noStepFaults : Obligations.NoStepFaults := by
  intro s f hp h
  rcases step_next_or_stops s with ⟨t, ht⟩ | ⟨-, hstop⟩
  · cases ht.symm.trans h
  · rw [h] at hstop
    cases hstop with
    | noSuchReportByte outside => exact absurd (buttonOffset_lt hp) outside.not_gt

theorem stalled_eq_false {s : State} :
    stalled s = false ↔ s.params.fClkHz = none ∨ s.ports.stall = false := by
  cases hf : s.params.fClkHz <;> simp [stalled, hf]

/-- Settles O30: what stops a step is one of the three; and each of the three stops it, by its own
check. -/
theorem exactlyThreeRefusals : Obligations.ExactlyThreeRefusals := by
  intro s r
  constructor
  · intro h
    rcases step_next_or_stops s with ⟨t, ht⟩ | ⟨hr, hstop⟩
    · cases ht.symm.trans h
    · rw [h] at hstop
      refine ⟨hr, ?_⟩
      cases hstop with
      | cmdWhileBusy presented busy => exact .inl ⟨rfl, presented, canTake_eq_false.1 busy⟩
      | notInitialised presented taken uninit unstalled =>
        obtain ⟨hupc, hb⟩ := canTake_iff.1 taken
        exact .inr (.inl ⟨rfl, presented, hupc, hb, uninit, stalled_eq_false.1 unstalled⟩)
      | reservedPhase quiet reserved unstalled =>
        exact .inr (.inr ⟨rfl, quiet, reserved, stalled_eq_false.1 unstalled⟩)
  · rintro ⟨hr, ⟨rfl, hc, hbusy⟩ | ⟨rfl, hc, hupc, hb, hi, hclk⟩ | ⟨rfl, hc, hres, hclk⟩⟩
    · rw [step, preempt_busy hr hc (canTake_eq_false.2 hbusy)]
    · obtain ⟨-, huninit, -⟩ := commandChecks
      exact (huninit s hupc hb hi).2 hr hc hclk
    · rw [step, preempt_none hr (.inl hc) (stalled_eq_false.2 hclk),
        (decodePhase_reserved_iff s.upc).2 hres]

/-! ## The callbacks of the USB stack -/

/-- Settles O39: the five callbacks present NOP, so the step is a stalled period or IDLE's own; both
move NOW alone. -/
theorem callbacksOfTheStack : Obligations.CallbacksOfTheStack := by
  refine ⟨fun s c hcreate hprocess hr hcmd hupc => ?nothing, rfl, rfl⟩
  have hnop : s.ports.cmd = 0b00#2 := by
    cases c with
    | createReport | processReport => contradiction
    | _ => exact hcmd
  cases hs : stalled s with
  | true => exact ⟨_, by rw [step, preempt_stall hr (.inl hnop) hs], rfl⟩
  | false =>
    refine ⟨_, step_executes hr (.inl hnop) (stalled_eq_false.1 hs) (by rw [hupc]; rfl)
      (execIdle_nop hnop), ?_⟩
    rw [← hupc]
    rfl

end Sys2Proof.Machine
end

