-- ==== Sys2Proof/Proofs/TimeErasure.lean ====
section
/-!
SUPPORT. Erasing time (spec/60_exceptions.md rule R123): it goes through the end of a step, through
every meaning but SAMPLE's, and through SAMPLE's while the controller is within its contract.
-/

namespace Sys2Proof.Machine

/-! ## What erasing time leaves -/

/-- States that differ in time only agree on everything that erasing time leaves. -/
theorem eq_of_eraseTime_eq {α : Type} {s s' : State} (he : eraseTime s = eraseTime s')
    (f : State → α) (hf : ∀ x, f (eraseTime x) = f x := by intro; rfl) : f s = f s' := by
  rw [← hf s, he, hf s']

@[simp] theorem noExtra_noExtra (p : Input) : p.noExtra.noExtra = p.noExtra := rfl

/-- Neither the controller's capture nor the list of later inputs looks at the time. -/
theorem eraseTime_endStep (before s : State) :
    eraseTime (endStep before s) = endStep (eraseTime before) (eraseTime s) := by
  have hports : (s.script.headD Input.quiet).noExtra =
      (s.script.map Input.noExtra).headD Input.quiet := by
    cases s.script <;> rfl
  have hscript : s.script.tail.map Input.noExtra = (s.script.map Input.noExtra).tail :=
    List.map_tail
  unfold endStep nextInput
  simp only [eraseTime, hports, hscript]
  rfl

theorem eraseOutcome_finish (before : State) (r : Result) :
    eraseOutcome (finish before r) = finish (eraseTime before) (eraseOutcome r) := by
  cases r with
  | next s => exact congrArg Host.Outcome.next (eraseTime_endStep before s)
  | fault f => rfl
  | refused r => rfl

/-! ## Meanings that read no instant -/

/-- A meaning that reads no instant and no lengthening: with these erased beforehand its answer
differs in time only. -/
def TimeBlind (m : State → Result) : Prop :=
  ∀ s, eraseOutcome (m s) = eraseOutcome (m (eraseTime s))

theorem TimeBlind.congr {m : State → Result} (h : TimeBlind m) {s s' : State}
    (he : eraseTime s = eraseTime s') : eraseOutcome (m s) = eraseOutcome (m s') := by
  rw [h s, he, ← h s']

/-- A wait looks at `TMR` and at whether there is a clock, not at `NOW`. -/
theorem timeBlind_waitFor (t : Nat) (p : PhaseCode) : TimeBlind fun s => .next (waitFor t p s) := by
  intro s
  dsimp only
  cases hf : s.params.fClkHz with
  | none =>
    rw [waitFor_step t p hf, waitFor_step (s := eraseTime s) t p hf]
    simp [eraseOutcome, eraseTime]
  | some f =>
    by_cases ht : 1 < s.tmr
    · rw [waitFor_count t p hf ht, waitFor_count (s := eraseTime s) t p hf ht]
      simp [eraseOutcome, eraseTime]
    · rw [waitFor_last t p hf ht, waitFor_last (s := eraseTime s) t p hf ht]
      simp [eraseOutcome, eraseTime]

theorem timeBlind_execInit : TimeBlind execInit := by
  intro s
  cases ht : canTake s with
  | true =>
    rw [execInit_eq ht, execInit_eq (s := eraseTime s) ht]
    simp [eraseOutcome, eraseTime]
  | false => rw [execInit_busy ht, execInit_busy (s := eraseTime s) ht]

theorem timeBlind_execCreateReport : TimeBlind execCreateReport := by
  intro s
  cases ht : canTake s with
  | true =>
    cases hi : s.inited with
    | true =>
      rw [execCreateReport_eq ht hi, execCreateReport_eq (s := eraseTime s) ht hi]
      simp [eraseOutcome, eraseTime]
    | false => rw [execCreateReport_uninit ht hi, execCreateReport_uninit (s := eraseTime s) ht hi]
  | false => rw [execCreateReport_busy ht, execCreateReport_busy (s := eraseTime s) ht]

theorem timeBlind_execProcessReport : TimeBlind execProcessReport := by
  intro s
  cases ht : canTake s with
  | true =>
    rw [execProcessReport_eq ht, execProcessReport_eq (s := eraseTime s) ht]
    simp [eraseOutcome, eraseTime]
  | false => rw [execProcessReport_busy ht, execProcessReport_busy (s := eraseTime s) ht]

theorem timeBlind_execIdle : TimeBlind (exec .idle) := by
  intro s
  rcases execIdle_cases s with ⟨hc, -⟩ | ⟨hc, -⟩ | ⟨hc, -⟩ | ⟨hc, -⟩
  · rw [execIdle_nop hc, execIdle_nop (s := eraseTime s) hc]
    simp [eraseOutcome, eraseTime]
  · rw [execIdle_init hc, execIdle_init (s := eraseTime s) hc]
    exact timeBlind_execInit s
  · rw [execIdle_createReport hc, execIdle_createReport (s := eraseTime s) hc]
    exact timeBlind_execCreateReport s
  · rw [execIdle_processReport hc, execIdle_processReport (s := eraseTime s) hc]
    exact timeBlind_execProcessReport s

theorem timeBlind_execPack : TimeBlind execPack := by
  intro s
  rcases Nat.lt_or_ge s.params.buttonOffset s.params.reportBytes with ho | ho
  · rw [execPack_eq ho, execPack_eq (s := eraseTime s) ho]
    simp [eraseOutcome, eraseTime]
  · rw [execPack_fault ho, execPack_fault (s := eraseTime s) ho]
    rfl

/-- SAMPLE alone asks for the instant, on the controller's behalf; whatever the others write, they
take from fields that erasing time leaves. -/
theorem timeBlind_exec {i : Instr} (hi : i ≠ .sample) : TimeBlind (exec i) := by
  cases i with
  | sample => contradiction
  | init => exact timeBlind_execInit
  | createReport => exact timeBlind_execCreateReport
  | processReport => exact timeBlind_execProcessReport
  | idle => exact timeBlind_execIdle
  | waitLatch | waitClkHi | waitClkLo => exact timeBlind_waitFor _ _
  | pack => exact timeBlind_execPack
  | _ =>
    intro s
    simp [exec, execNop_eq, execClr_eq, execLatchHi_eq, execLatchLo_eq, execClkHi_eq, execClkLo_eq,
      execLoop_eq, execDecode_eq, execDone_eq, loadTmr_tmr, reportImage, eraseOutcome, eraseTime]

/-! ## What a controller answers within its contract -/

/-- What `eraseTime` makes of each event of the trace. -/
def eraseStamp (x : Stamped) : Stamped := (x.1, 0)

/-- Which events the controller has seen depends on no instant. -/
theorem sinceLatch_map_eraseStamp (l : List Stamped) :
    sinceLatch (l.map eraseStamp) = (sinceLatch l).map eraseStamp := by
  induction l using List.reverseRecOn with
  | nil => rfl
  | append_singleton l y ih =>
    rw [List.map_append, List.map_singleton, sinceLatch_append_one, sinceLatch_append_one, ih]
    by_cases hy : y.1 = .latchRise <;> simp [hy, eraseStamp]

theorem sinceLatch_suffix (l : List Stamped) : sinceLatch l <:+ l := by
  induction l using List.reverseRecOn with
  | nil => exact List.suffix_rfl
  | append_singleton l y ih =>
    rw [sinceLatch_append_one]
    split
    · exact List.suffix_append l [y]
    · obtain ⟨m, hm⟩ := ih
      exact ⟨m, by rw [← List.append_assoc, hm]⟩

theorem minimaHold_of_append {l m : List Stamped} (h : minimaHold (l ++ m) = true) :
    minimaHold m = true := by
  cases m with
  | nil => rfl
  | cons x m =>
    rw [minimaHold_append_cons, Bool.and_eq_true] at h
    exact h.2

/-- Under the timing invariant a SAMPLE does not come early for the controller (R145, R159). -/
theorem TimingInv.sample_timely {s : State} (h : TimingInv s) (hp : s.upc = 0x5#4) {t : Time}
    (ht : s.now ≤ t) : minimaHold (sinceLatch s.evt ++ [(.sample 0#4 true, t)]) = true := by
  have hall : minimaHold (s.evt ++ [(.sample 0#4 true, t)]) = true := by
    refine (minimaHold_append_one _ _).2 ⟨h.minima, fun x hx => ?_⟩
    obtain ⟨-, -, hsample, -⟩ := h.phase
    rcases hsample hp with ⟨t', hl⟩ | ⟨k, t', hl, hgap⟩
    · have hpast := (h.past x (List.mem_of_getLast? hx)).trans ht
      obtain rfl := Option.some.inj (hx.symm.trans hl)
      simpa [minGap] using hpast
    · obtain rfl := Option.some.inj (hx.symm.trans hl)
      exact hgap.trans ht
  obtain ⟨m, hm⟩ := sinceLatch_suffix s.evt
  rw [← hm, List.append_assoc] at hall
  exact minimaHold_of_append hall

/-- Within its contract a controller's answer depends on the order of the events alone (R53). -/
theorem contractLevel_congr (p : ButtonState) {e e' : List Stamped} {t t' : Time}
    (he : e.map eraseStamp = e'.map eraseStamp)
    (h : minimaHold (sinceLatch e ++ [(.sample 0#4 true, t)]) = true)
    (h' : minimaHold (sinceLatch e' ++ [(.sample 0#4 true, t')]) = true) :
    contractLevel p e t = contractLevel p e' t' := by
  have hseen : (sinceLatch e).map eraseStamp = (sinceLatch e').map eraseStamp := by
    rw [← sinceLatch_map_eraseStamp, he, sinceLatch_map_eraseStamp]
  have hany (f : Event → Bool) :
      ((sinceLatch e).any fun x => f x.1) = (sinceLatch e').any fun x => f x.1 := by
    simpa [Function.comp_def, eraseStamp] using congrArg (List.any · fun x => f x.1) hseen
  have hcount (f : Event → Bool) :
      ((sinceLatch e).countP fun x => f x.1) = (sinceLatch e').countP fun x => f x.1 := by
    simpa [List.countP_map, Function.comp_def, eraseStamp] using
      congrArg (List.countP fun x => f x.1) hseen
  simp only [contractLevel, h, h', hany, hcount]

/-- At SAMPLE a connected controller answers the same, however differently the time has gone. -/
theorem padLevel_elapse_congr {s s' : State} (h : TimingInv s) (h' : TimingInv s')
    (he : eraseTime s = eraseTime s') (hp : s.upc = 0x5#4) :
    padLevel (elapse 0 s) = padLevel (elapse 0 s') := by
  have hp' : s'.upc = 0x5#4 := (eq_of_eraseTime_eq he State.upc).symm.trans hp
  have hcontract (p : ButtonState) :
      contractLevel p s.evt (elapse 0 s).now = contractLevel p s'.evt (elapse 0 s').now :=
    contractLevel_congr p (congrArg State.evt he) (h.sample_timely hp (le_elapse_now 0 s))
      (h'.sample_timely hp' (le_elapse_now 0 s'))
  unfold padLevel
  simp only [elapse_pad, elapse_evt, hcontract, eq_of_eraseTime_eq he State.pad]

/-! ## SAMPLE -/

/-- The line, the pull-up, the draws so far and the controller's level settle DATA's answer. -/
theorem pinRead_congr {s s' : State} (hdata : s.ports.data = s'.ports.data)
    (hpull : s.params.dataPullup = s'.params.dataPullup) (hdraws : s.draws = s'.draws)
    (hpad : padLevel s = padLevel s') :
    (pinRead s).1 = (pinRead s').1 ∧ (pinRead s).2.draws = (pinRead s').2.draws := by
  unfold pinRead freeDraw
  rw [hdata, hpad, hpull, hdraws]
  cases s'.ports.data with
  | driven level => exact ⟨rfl, hdraws⟩
  | controller held => cases padLevel s' <;> simp [hdraws]
  | floating => cases s'.params.dataPullup <;> simp [hdraws]
  | changing => exact ⟨rfl, rfl⟩

/-- What SAMPLE leaves once DATA has answered `level`. -/
def sampled (level : Level) (draws : Nat) (s : State) : State :=
  { s with
    acc := (storeBit (!level) s).acc
    evt := s.evt ++ [(.sample s.i level, (elapse 0 s).now)]
    upc := 0x6#4, now := (elapse 0 s).now, draws := draws }

theorem exec_sample_eq_sampled (s : State) : exec .sample s =
    .next (sampled (pinRead (elapse 0 s)).1 (pinRead (elapse 0 s)).2.draws s) :=
  execSample_eq s

theorem timeBlind_sampled (level : Level) (draws : Nat) :
    TimeBlind fun s => .next (sampled level draws s) := by
  intro s
  simp [sampled, eraseOutcome, eraseTime]

theorem eraseOutcome_exec_sample {s s' : State} (h : TimingInv s) (h' : TimingInv s')
    (he : eraseTime s = eraseTime s') (hp : s.upc = 0x5#4) :
    eraseOutcome (exec .sample s) = eraseOutcome (exec .sample s') := by
  obtain ⟨hlevel, hdraws⟩ := pinRead_congr (s := elapse 0 s) (s' := elapse 0 s')
    (by simpa using eq_of_eraseTime_eq he (·.ports.data))
    (by simpa using eq_of_eraseTime_eq he (·.params.dataPullup))
    (by simpa using eq_of_eraseTime_eq he State.draws) (padLevel_elapse_congr h h' he hp)
  rw [exec_sample_eq_sampled, exec_sample_eq_sampled, hlevel, hdraws]
  exact (timeBlind_sampled _ _).congr he

/-! ## The step -/

theorem eraseOutcome_exec {s s' : State} {i : Instr} (h : TimingInv s) (h' : TimingInv s')
    (he : eraseTime s = eraseTime s') (hd : decodePhase s.upc = .ok i) :
    eraseOutcome (exec i s) = eraseOutcome (exec i s') := by
  by_cases hi : i = .sample
  · subst hi
    exact eraseOutcome_exec_sample h h' he (upc_of_decodePhase hd rfl)
  · exact (timeBlind_exec hi).congr he

/-- Settles O49: what pre-empts the instruction and which one UPC selects are looked up in what
erasing time leaves; the end of the step and the instruction let the erasing through. -/
theorem timeChangesNoValue : Obligations.TimeChangesNoValue := by
  intro s s' h h' he
  have hend {t t' : State} (ht : eraseTime t = eraseTime t') :
      eraseOutcome (.next (endStep s t)) = eraseOutcome (.next (endStep s' t')) :=
    congrArg Host.Outcome.next (by rw [eraseTime_endStep, eraseTime_endStep, he, ht])
  unfold step preempt
  rw [← eq_of_eraseTime_eq he (·.ports.rst), ← eq_of_eraseTime_eq he (·.ports.cmd),
    ← eq_of_eraseTime_eq he canTake, ← eq_of_eraseTime_eq he stalled,
    ← eq_of_eraseTime_eq he State.upc]
  split_ifs
  · exact hend (congrArg resetBlock he)
  · rfl
  · exact hend he
  · cases hd : decodePhase s.upc with
    | error e => rfl
    | ok i =>
      dsimp only
      rw [eraseOutcome_finish, eraseOutcome_finish, he, eraseOutcome_exec h h' he hd]

end Sys2Proof.Machine
end

