-- ==== Sys2Proof/Proofs/TimingInvariant.lean ====
section
/-!
SUPPORT. The invariant behind the three minimum delays, along a step at step level and at tick level
(spec/70_reset_and_hazards.md rules R145, R148 and R156).
-/

namespace Sys2Proof.Machine

/-! ## The timing invariant along a step -/

/-- `PhaseTiming` asks nothing before LATCH rises. -/
theorem phaseTiming_before_pulse {s : State} (h : s.upc = 0x0#4 ∨ s.upc = 0x1#4 ∨ s.upc = 0x2#4) :
    PhaseTiming s := by
  rcases h with h | h | h <;> simp [PhaseTiming, h]

theorem phaseTiming_waitLatch {s : State} {t : Time} (hupc : s.upc = 0x3#4)
    (hlast : s.evt.getLast? = some (.latchRise, t)) (hdue : Due s t tLatchMin) : PhaseTiming s := by
  simpa [PhaseTiming, hupc] using ⟨t, hlast, hdue⟩

theorem phaseTiming_latchLo {s : State} {t : Time} (hupc : s.upc = 0x4#4)
    (hlast : s.evt.getLast? = some (.latchRise, t)) (hgap : t + (tLatchMin : Time) ≤ s.now) :
    PhaseTiming s := by
  simpa [PhaseTiming, hupc] using ⟨t, hlast, hgap⟩

theorem phaseTiming_waitClkHi {s : State} {k : BitVec 4} {t : Time} (hupc : s.upc = 0x7#4)
    (hlast : s.evt.getLast? = some (.clockRise k, t)) (hdue : Due s t tClkHiMin) :
    PhaseTiming s := by
  simpa [PhaseTiming, hupc] using ⟨k, t, hlast, hdue⟩

theorem phaseTiming_clkLo {s : State} {k : BitVec 4} {t : Time} (hupc : s.upc = 0x8#4)
    (hlast : s.evt.getLast? = some (.clockRise k, t)) (hgap : t + (tClkHiMin : Time) ≤ s.now) :
    PhaseTiming s := by
  simpa [PhaseTiming, hupc] using ⟨k, t, hlast, hgap⟩

theorem phaseTiming_waitClkLo {s : State} {k : BitVec 4} {t : Time} (hupc : s.upc = 0x9#4)
    (hlast : s.evt.getLast? = some (.clockFall k, t)) (hdue : Due s t tClkLoMin) :
    PhaseTiming s := by
  simpa [PhaseTiming, hupc] using ⟨k, t, hlast, hdue⟩

/-- What the phases from LOOP to DONE ask for is what the next SAMPLE asks for too (R98, R99). -/
theorem phaseTiming_after_fall {s : State} {p : PhaseCode} {k : BitVec 4} {t : Time}
    (hupc : s.upc = p) (hp : p = 0x5#4 ∨ 0xA#4 ≤ p)
    (hlast : s.evt.getLast? = some (.clockFall k, t)) (hgap : t + (tClkLoMin : Time) ≤ s.now) :
    PhaseTiming s := by
  have htail : ∃ k t, s.evt.getLast? = some (Event.clockFall k, t) ∧ t + 6 ≤ s.now :=
    ⟨k, t, hlast, hgap⟩
  unfold PhaseTiming
  rcases hp with rfl | hp
  · simpa [hupc] using Or.inr htail
  · rw [← hupc] at hp
    refine ⟨?_, ?_, ?_, ?_, ?_, ?_, ?_, fun _ _ => htail⟩ <;> intro hu <;> rw [hu] at hp <;>
      exact absurd hp (by decide)

/-- A step that emits nothing keeps the invariant when the phase it leads to does. -/
theorem TimingInv.quiet {s t : State} (h : TimingInv s) (hevt : t.evt = s.evt)
    (hnow : s.now ≤ t.now) (phase : PhaseTiming t) : TimingInv t where
  minima := hevt ▸ h.minima
  past x hx := (h.past x (hevt ▸ hx)).trans hnow
  phase := phase

/-- A step that emits an event keeps the invariant when the event is due. -/
theorem TimingInv.emits {s t : State} {e : Event} (h : TimingInv s)
    (hevt : t.evt = s.evt ++ [(e, t.now)]) (hnow : s.now ≤ t.now)
    (hdue : ∀ x, s.evt.getLast? = some x → x.2 + (minGap x.1 e : Time) ≤ t.now)
    (phase : PhaseTiming t) : TimingInv t where
  minima := by rw [hevt]; exact (minimaHold_append_one _ _).2 ⟨h.minima, hdue⟩
  past x hx := by
    rw [hevt, List.mem_append, List.mem_singleton] at hx
    rcases hx with hx | rfl
    · exact (h.past x hx).trans hnow
    · exact le_rfl
  phase := phase

/-- An event that R145 asks no delay before may come at any time (R146). -/
theorem TimingInv.due_at_once {s : State} {e : Event} (h : TimingInv s)
    (hgap : ∀ e', minGap e' e = 0) {now : Time} (hnow : s.now ≤ now) (x : Stamped)
    (hx : s.evt.getLast? = some x) : x.2 + (minGap x.1 e : Time) ≤ now := by
  rw [hgap, Nat.cast_zero, add_zero]
  exact (h.past x (List.mem_of_getLast? hx)).trans hnow

/-- The event the trace ends with decides when the next one is due. -/
theorem due_after {l : List Stamped} {e e' : Event} {t now : Time}
    (hlast : l.getLast? = some (e', t)) (hgap : t + (minGap e' e : Time) ≤ now) (x : Stamped)
    (hx : l.getLast? = some x) : x.2 + (minGap x.1 e : Time) ≤ now := by
  obtain rfl := Option.some.inj (hlast.symm.trans hx)
  exact hgap

/-- A wait that begins now is due in full (R156). -/
theorem due_loaded {s u : State} {t : Nat} {began : Time} (hp : u.params = s.params)
    (htmr : u.tmr = (loadTmr t s).tmr) (hnow : u.now = began) : Due u began t := by
  intro f hf
  rw [htmr, loadTmr_loaded t s f (hp ▸ hf), hnow]

theorem le_waitFor_now (t : Nat) (q : PhaseCode) (s : State) : s.now ≤ (waitFor t q s).now := by
  have h : (waitFor t q s).now = (elapse t s).now := by
    unfold waitFor
    split
    · rfl
    · split <;> rfl
  exact h ▸ le_elapse_now t s

/-- A period of a wait either stays in it, with the rest still due, or ends it after its minimum
(R145, R156). -/
theorem waitFor_due {s : State} {t : Nat} {began : Time} (q : PhaseCode)
    (hp : s.params.wf = true) (hbegan : began ≤ s.now) (hdue : Due s began t) :
    ((waitFor t q s).upc = s.upc ∧ Due (waitFor t q s) began t) ∨
    ((waitFor t q s).upc = q ∧ began + (t : Time) ≤ (waitFor t q s).now) := by
  cases hf : s.params.fClkHz with
  | none =>
    rw [waitFor_step t q hf]
    have hextra := Delay_nonneg s.ports.extra
    exact .inr ⟨rfl, by dsimp only; linarith⟩
  | some f =>
    have hwhole := hdue f hf
    by_cases ht : 1 < s.tmr
    · rw [waitFor_count t q hf ht]
      refine .inl ⟨rfl, fun g hg => ?_⟩
      obtain rfl : f = g := Option.some.inj (hf.symm.trans hg)
      dsimp only
      rw [Nat.cast_sub ht.le]
      push_cast
      linarith
    · rw [waitFor_last t q hf ht]
      have hlong := le_tickCount_period t (one_le_clock hp hf)
      have htmr : (s.tmr : Time) ≤ 1 := by exact_mod_cast Nat.not_lt.1 ht
      have hleft := mul_le_of_le_one_left (period_nonneg f) htmr
      exact .inr ⟨rfl, by dsimp only; linarith⟩


/-- A wait keeps the invariant: it stays with the rest still due, or goes on with the minimum
kept. -/
theorem TimingInv.waits {s : State} {e : Event} {t : Nat} {began : Time} {q : PhaseCode}
    (h : TimingInv s) (hp : s.params.wf = true) (hlast : s.evt.getLast? = some (e, began))
    (hdue : Due s began t)
    (stays : ∀ {u : State}, u.upc = s.upc → u.evt.getLast? = some (e, began) → Due u began t →
      PhaseTiming u)
    (goesOn : ∀ {u : State}, u.upc = q → u.evt.getLast? = some (e, began) →
      began + (t : Time) ≤ u.now → PhaseTiming u) : TimingInv (waitFor t q s) := by
  have hevt := waitFor_evt t q s
  have hbegan := h.past _ (List.mem_of_getLast? hlast)
  refine h.quiet hevt (le_waitFor_now t q s) ?_
  rw [← hevt] at hlast
  rcases waitFor_due q hp hbegan hdue with ⟨hupc, hdue'⟩ | ⟨hupc, hgap⟩
  · exact stays hupc hlast hdue'
  · exact goesOn hupc hlast hgap

theorem Due.later {s u : State} {t : Nat} {began : Time} (h : Due s began t)
    (hp : u.params = s.params) (htmr : u.tmr = s.tmr) (hnow : s.now ≤ u.now) : Due u began t := by
  intro f hf
  have hs := h f (hp ▸ hf)
  rw [htmr]
  linarith

/-- Where nothing but time has passed, the phase still agrees with the end of the trace. -/
theorem PhaseTiming.later {s u : State} (h : PhaseTiming s) (hupc : u.upc = s.upc)
    (hevt : u.evt = s.evt) (hp : u.params = s.params) (htmr : u.tmr = s.tmr)
    (hnow : s.now ≤ u.now) : PhaseTiming u := by
  obtain ⟨h3, h4, h5, h6, h7, h8, h9, hA⟩ := h
  unfold PhaseTiming
  rw [hupc, hevt]
  refine ⟨fun hu => ?_, fun hu => ?_, fun hu => ?_, h6, fun hu => ?_, fun hu => ?_, fun hu => ?_,
    fun hlo hhi => ?_⟩
  · obtain ⟨t, hlast, hdue⟩ := h3 hu
    exact ⟨t, hlast, hdue.later hp htmr hnow⟩
  · obtain ⟨t, hlast, hgap⟩ := h4 hu
    exact ⟨t, hlast, hgap.trans hnow⟩
  · exact (h5 hu).imp_right fun ⟨k, t, hlast, hgap⟩ => ⟨k, t, hlast, hgap.trans hnow⟩
  · obtain ⟨k, t, hlast, hdue⟩ := h7 hu
    exact ⟨k, t, hlast, hdue.later hp htmr hnow⟩
  · obtain ⟨k, t, hlast, hgap⟩ := h8 hu
    exact ⟨k, t, hlast, hgap.trans hnow⟩
  · obtain ⟨k, t, hlast, hdue⟩ := h9 hu
    exact ⟨k, t, hlast, hdue.later hp htmr hnow⟩
  · obtain ⟨k, t, hlast, hgap⟩ := hA hlo hhi
    exact ⟨k, t, hlast, hgap.trans hnow⟩

/-- The micro-operation UPC selects keeps the invariant: each event comes from a phase in which the
trace ends with the event before it, the wait between the two over. -/
theorem timingInv_exec {s u : State} {i : Instr} (h : TimingInv s) (hp : s.params.wf = true)
    (hd : decodePhase s.upc = .ok i) (he : exec i s = .next u) : TimingInv u := by
  have hnow := le_elapse_now 0 s
  have hupc {p : PhaseCode} (hi : encode i = .uph p) : s.upc = p := upc_of_decodePhase hd hi
  obtain ⟨waitLatch, latchLo, sample, -, waitClkHi, clkLo, waitClkLo, afterFall⟩ := h.phase
  have fallen {p : PhaseCode} (hi : encode i = .uph p) (hp : 0xA#4 ≤ p ∧ p ≤ 0xD#4) :
      ∃ k t, s.evt.getLast? = some (.clockFall k, t) ∧
        t + (tClkLoMin : Time) ≤ (elapse 0 s).now := by
    rw [← hupc hi] at hp
    obtain ⟨k, t, hlast, hgap⟩ := afterFall hp.1 hp.2
    exact ⟨k, t, hlast, hgap.trans hnow⟩
  cases exec_effect he with
  | nop => exact h.quiet rfl hnow (h.phase.later rfl rfl rfl rfl hnow)
  | init | processReport | idle => exact h.quiet rfl hnow (phaseTiming_before_pulse (.inl rfl))
  | createReport => exact h.quiet rfl hnow (phaseTiming_before_pulse (.inr (.inl rfl)))
  | clr => exact h.quiet rfl hnow (phaseTiming_before_pulse (.inr (.inr rfl)))
  | latchHi =>
    exact h.emits rfl hnow (h.due_at_once (fun e => by cases e <;> rfl) hnow)
      (phaseTiming_waitLatch rfl List.getLast?_concat (due_loaded (s := s) rfl rfl rfl))
  | waitLatch =>
    obtain ⟨t, hlast, hdue⟩ := waitLatch (hupc rfl)
    exact h.waits hp hlast hdue (hupc rfl ▸ phaseTiming_waitLatch) phaseTiming_latchLo
  | latchLo =>
    obtain ⟨t, hlast, hgap⟩ := latchLo (hupc rfl)
    exact h.emits rfl hnow (due_after hlast (hgap.trans hnow)) (by simp [PhaseTiming])
  | sample =>
    refine h.emits rfl hnow ?due (by simp [PhaseTiming])
    rcases sample (hupc rfl) with ⟨t, hlast⟩ | ⟨k, t, hlast, hgap⟩
    · have hpast := (h.past _ (List.mem_of_getLast? hlast)).trans hnow
      exact due_after hlast ((add_zero t).le.trans hpast)
    · exact due_after hlast (hgap.trans hnow)
  | clkHi =>
    exact h.emits rfl hnow (h.due_at_once (fun e => by cases e <;> rfl) hnow)
      (phaseTiming_waitClkHi rfl List.getLast?_concat (due_loaded (s := s) rfl rfl rfl))
  | waitClkHi =>
    obtain ⟨k, t, hlast, hdue⟩ := waitClkHi (hupc rfl)
    exact h.waits hp hlast hdue (hupc rfl ▸ phaseTiming_waitClkHi) phaseTiming_clkLo
  | clkLo =>
    obtain ⟨k, t, hlast, hgap⟩ := clkLo (hupc rfl)
    exact h.emits rfl hnow (due_after hlast (hgap.trans hnow))
      (phaseTiming_waitClkLo rfl List.getLast?_concat (due_loaded (s := s) rfl rfl rfl))
  | waitClkLo =>
    obtain ⟨k, t, hlast, hdue⟩ := waitClkLo (hupc rfl)
    exact h.waits hp hlast hdue (hupc rfl ▸ phaseTiming_waitClkLo)
      fun hu => phaseTiming_after_fall hu (.inr (by decide))
  | loop =>
    obtain ⟨k, t, hlast, hgap⟩ := fallen rfl (by decide)
    exact h.quiet rfl hnow (phaseTiming_after_fall rfl (by dsimp only; split <;> simp) hlast hgap)
  | decode | pack =>
    obtain ⟨k, t, hlast, hgap⟩ := fallen rfl (by decide)
    exact h.quiet rfl hnow (phaseTiming_after_fall rfl (by simp) hlast hgap)
  | done =>
    obtain ⟨k, t, hlast, hgap⟩ := fallen rfl (by decide)
    exact h.emits rfl hnow (due_after hlast hgap) (phaseTiming_before_pulse (.inl rfl))

/-- Neither the environment's next input nor the controller is in the trace. -/
theorem timingInv_endStep {s : State} (h : TimingInv s) (before : State) :
    TimingInv (endStep before s) :=
  h.quiet rfl le_rfl (h.phase.later rfl rfl rfl rfl le_rfl)

/-- Settles O27: reset empties the trace, a stalled period lets time pass, and the micro-operation
UPC selects keeps the invariant. -/
theorem stepKeepsMinimumDelays : Obligations.StepKeepsMinimumDelays := by
  intro s t hp h hs
  rcases step_next_cases hs with ⟨-, rfl⟩ | ⟨-, -, rfl⟩ | ⟨-, -, -, i, u, hd, he, rfl⟩
  · exact timingInv_endStep (timingInv_of_no_event rfl rfl) s
  · have hnow := le_elapse_now 0 s
    exact timingInv_endStep (s := stallPeriod s)
      (h.quiet rfl hnow (h.phase.later rfl rfl rfl rfl hnow)) s
  · exact timingInv_endStep (timingInv_exec h hp hd he) s

end Sys2Proof.Machine
end

