-- ==== Sys2Proof/Proofs/SingleSteps.lean ====
section
/-!
SUPPORT. Single steps: reset, the parameters, how long an instruction takes at each level, what the
controller has seen after it; and the least length of a trace of one read
(spec/70_reset_and_hazards.md rules R140, R145 to R150 and R154 to R156).
-/

namespace Sys2Proof.Machine

/-! ## Reset and the parameters -/

/-- Settles O6: the step answers `resetBlock` of the state, and the controller keeps no capture. -/
theorem resetInAnyState : Obligations.ResetInAnyState := by
  intro s hr
  refine ⟨endStep s (resetBlock s), by rw [step, preempt_reset hr], ?values, fun l => ?lines,
    fun _ => rfl, rfl⟩
  case values => rw [endStep, padAfter_reset _ hr]; rfl
  case lines => cases l <;> rfl

/-- Settles O32: neither reset nor a stalled period nor an instruction writes the parameters. -/
theorem parametersNeverChange : Obligations.ParametersNeverChange := by
  intro s t hs
  rcases step_next_cases hs with ⟨-, rfl⟩ | ⟨-, -, rfl⟩ | ⟨-, -, -, i, u, -, he, rfl⟩
  · rfl
  · rfl
  · exact (exec_environment he).1

/-! ## How long an instruction takes -/

/-- At step level an instruction lasts its least wait and what the environment adds (R145, R146). -/
theorem exec_now_step {i : Instr} {s t : State} (hf : s.params.fClkHz = none)
    (h : exec i s = .next t) : t.now = s.now + (leastWait i : Time) + s.ports.extra.toTime := by
  rcases wait_or_leastWait_zero i with ⟨w, q, hi⟩ | hi
  · rw [hi.least, next_unique (hi.exec_eq s) h, waitFor_step w q hf]
  · rw [exec_now hi h, elapse_now_step 0 hf, hi]

/-- At tick level every instruction lasts one period (R156). -/
theorem exec_now_tick {i : Instr} {s t : State} {f : Nat} (hf : s.params.fClkHz = some f)
    (h : exec i s = .next t) : t.now = s.now + period f := by
  rcases wait_or_leastWait_zero i with ⟨w, q, hi⟩ | hi
  · rw [next_unique (hi.exec_eq s) h]
    by_cases ht : 1 < s.tmr
    · rw [waitFor_count w q hf ht]
    · rw [waitFor_last w q hf ht]
  · rw [exec_now hi h, elapse_now_tick 0 hf]

/-- The state with the environment lengthening this step by `d`. -/
def lengthened (d : Delay) (s : State) : State :=
  { s with ports := { s.ports with extra := d } }

/-- Whether an instruction completes does not depend on how far its step is lengthened (R123). -/
theorem exec_next_lengthened {i : Instr} {s u : State} (d : Delay) (h : exec i s = .next u) :
    ∃ t, exec i (lengthened d s) = .next t := by
  by_cases hi : i = .sample
  · subst hi
    exact ⟨_, execSample_eq _⟩
  · have he := (timeBlind_exec hi).congr (show eraseTime s = eraseTime (lengthened d s) from rfl)
    rw [h] at he
    cases ht : exec i (lengthened d s) with
    | next t => exact ⟨t, rfl⟩
    | fault f => rw [ht] at he; cases he
    | refused r => rw [ht] at he; cases he

/-- Settles O17: every non-negative rational is some `Delay`, and the environment may present it. -/
theorem everyLengtheningIsPossible : Obligations.EveryLengtheningIsPossible := by
  intro s extra hf hextra
  obtain ⟨d, -, hd⟩ := lengthenBy_step hf hextra
  refine ⟨d, fun i u hu => ?_⟩
  obtain ⟨t, ht⟩ := exec_next_lengthened d hu
  refine ⟨t, ht, ?_⟩
  rw [exec_now_step (s := lengthened d s) hf ht, leastWait_eq, ← hd]
  push_cast
  rfl

/-- At tick level a wait counts `TMR` down, and goes on to its successor in the last tick (R156). -/
theorem IsWait.exec_tick {i : Instr} {w : Nat} {q : PhaseCode} (hi : IsWait i w q) {s : State}
    {f : Nat} (hf : s.params.fClkHz = some f) :
    ∃ t, exec i s = .next t ∧ t.now = s.now + 1000000 / (f : Rat) ∧
      (1 < s.tmr → t = { s with tmr := s.tmr - 1, now := t.now }) ∧
      (s.tmr ≤ 1 → t = { s with tmr := 0, upc := q, now := t.now }) := by
  refine ⟨_, hi.exec_eq s, exec_now_tick hf (hi.exec_eq s), fun ht => ?_, fun ht => ?_⟩
  · rw [waitFor_count w q hf ht]
  · rw [waitFor_last w q hf ht.not_gt]

/-- Settles O18: the three waits have one body. -/
theorem waitsCountTicks : Obligations.WaitsCountTicks := by
  rintro s f hf i succ (⟨rfl, rfl⟩ | ⟨rfl, rfl⟩ | ⟨rfl, rfl⟩)
  · exact isWait_waitLatch.exec_tick hf
  · exact isWait_waitClkHi.exec_tick hf
  · exact isWait_waitClkLo.exec_tick hf

/-! ## The least length of a trace -/

/-- The least time the events of a trace take together (R145). -/
def leastSpan : List Event → Nat
  | x :: y :: rest => minGap x y + leastSpan (y :: rest)
  | _ => 0

/-- A trace that meets the minima takes at least as long as they add up to. -/
theorem leastSpan_le {x last : Stamped} {l : List Stamped} (h : minimaHold (x :: l) = true)
    (hlast : (x :: l).getLast? = some last) :
    x.2 + (leastSpan ((x :: l).map Prod.fst) : Time) ≤ last.2 := by
  induction l generalizing x with
  | nil =>
    obtain rfl := Option.some.inj hlast
    simp [leastSpan]
  | cons y l ih =>
    rw [minimaHold_cons_cons, Bool.and_eq_true, decide_eq_true_iff] at h
    rw [List.getLast?_cons_cons] at hlast
    have hrest := ih h.2 hlast
    simp only [List.map_cons, leastSpan] at hrest ⊢
    push_cast
    linarith [h.1]

/-- The waits of one read add up to `T_READ_MIN` (R150). -/
theorem leastSpan_readEvents (d : Nat → Level) (bytes : List Byte) :
    leastSpan (readEvents d ++ [.reportReady bytes]) = 108 := by
  simp [readEvents, bitEvents, List.range_succ, leastSpan, minGap, tLatchMin, tClkHiMin, tClkLoMin]

/-- Settles O45: the minima of the events of one read add up to 108. -/
theorem traceOfOneReadLasts108 : Obligations.TraceOfOneReadLasts108 := by
  intro l d bytes hl hmin
  cases l with
  | nil => cases hl
  | cons x l =>
    obtain ⟨last, hlast⟩ : ∃ last, (x :: l).getLast? = some last := ⟨_, List.getLast?_cons⟩
    have hspan := leastSpan_le hmin hlast
    rw [hl, leastSpan_readEvents] at hspan
    exact ⟨x, last, rfl, hlast, hspan⟩

end Sys2Proof.Machine
end

