-- ==== Sys2Proof/Proofs/Refinement.lean ====
section
/-!
SUPPORT. The tick-level machine beside the step-level one: a period that is neither stalled nor one
of a countdown does what the step-level step does (spec/70_reset_and_hazards.md rule R156).
-/

namespace Sys2Proof.Machine

/-- `v` is at tick level what `w` is at step level: the clock, the environment, `TMR` and the
instant apart they are the same. -/
def AtTickLevel (v w : State) : Prop :=
  v = { w with now := v.now, tmr := v.tmr, params := v.params, ports := v.ports }

/-- Under the step-level reading a step that takes no time of its own has the instant of the end of
the period. -/
theorem elapse_asStepLevel {s : State} {f : Nat} (hf : s.params.fClkHz = some f) :
    (elapse 0 (asStepLevel s f)).now = (elapse 0 s).now := by
  rw [elapse_now_step 0 rfl, elapse_now_tick 0 hf]
  simp [asStepLevel, Delay.toTime, period]

/-- SAMPLE reads the same at both levels. -/
theorem pinRead_asStepLevel {s : State} {f : Nat} (hf : s.params.fClkHz = some f) :
    (pinRead (elapse 0 (asStepLevel s f))).1 = (pinRead (elapse 0 s)).1 ∧
    (pinRead (elapse 0 (asStepLevel s f))).2.draws = (pinRead (elapse 0 s)).2.draws := by
  have hpad : padLevel (elapse 0 (asStepLevel s f)) = padLevel (elapse 0 s) := by
    unfold padLevel
    rw [elapse_asStepLevel hf]
    simp only [elapse_pad, elapse_evt]
    rfl
  exact pinRead_congr (by simp [asStepLevel]) (by simp [asStepLevel]) (by simp [asStepLevel]) hpad

/-- A wait in its last tick goes on as the step-level wait does. -/
theorem atTickLevel_waitFor {s : State} {f : Nat} (t : Nat) (q : PhaseCode)
    (hf : s.params.fClkHz = some f) (ht : ¬1 < s.tmr) :
    AtTickLevel (waitFor t q s) (waitFor t q (asStepLevel s f)) := by
  rw [waitFor_last t q hf ht, waitFor_step (s := asStepLevel s f) t q rfl]
  rfl

/-- The micro-operation UPC selects does at tick level what it does at step level, a countdown
apart. -/
theorem exec_asStepLevel {s v : State} {f : Nat} {i : Instr} (hf : s.params.fClkHz = some f)
    (hd : decodePhase s.upc = .ok i)
    (hlast : ¬((s.upc = 0x3#4 ∨ s.upc = 0x7#4 ∨ s.upc = 0x9#4) ∧ 1 < s.tmr))
    (he : exec i s = .next v) :
    ∃ w, exec i (asStepLevel s f) = .next w ∧ AtTickLevel v w := by
  have hnow := elapse_asStepLevel hf
  have hcode : encode i = .uph s.upc := encode_of_decodePhase hd
  have htmr {p : PhaseCode} (hi : encode i = .uph p)
      (hp : p = 0x3#4 ∨ p = 0x7#4 ∨ p = 0x9#4) : ¬1 < s.tmr := fun ht =>
    hlast ⟨upc_of_decodePhase hd hi ▸ hp, ht⟩
  cases exec_effect he with
  | nop => cases hcode
  | init presented taken =>
    rcases presented with rfl | ⟨rfl, hc⟩
    · cases hcode
    · exact ⟨_, (execIdle_init (s := asStepLevel s f) hc).trans (execInit_eq taken), rfl⟩
  | createReport presented taken inited =>
    rcases presented with rfl | ⟨rfl, hc⟩
    · cases hcode
    · exact ⟨_, (execIdle_createReport (s := asStepLevel s f) hc).trans
        (execCreateReport_eq taken inited), rfl⟩
  | processReport presented taken =>
    rcases presented with rfl | ⟨rfl, hc⟩
    · cases hcode
    · exact ⟨_, (execIdle_processReport (s := asStepLevel s f) hc).trans
        (execProcessReport_eq taken), rfl⟩
  | idle quiet => exact ⟨_, execIdle_nop quiet, rfl⟩
  | clr => exact ⟨_, execClr_eq _, rfl⟩
  | latchHi => exact ⟨_, execLatchHi_eq _, by rw [hnow]; rfl⟩
  | waitLatch => exact ⟨_, rfl, atTickLevel_waitFor _ _ hf (htmr rfl (by decide))⟩
  | latchLo => exact ⟨_, execLatchLo_eq _, by rw [hnow]; rfl⟩
  | sample d draws answer drawn =>
    obtain ⟨hlevel, hdraws⟩ := pinRead_asStepLevel hf
    refine ⟨_, execSample_eq _, ?_⟩
    rw [hnow, hlevel, hdraws, ← answer, ← drawn]
    rfl
  | clkHi => exact ⟨_, execClkHi_eq _, by rw [hnow]; rfl⟩
  | waitClkHi => exact ⟨_, rfl, atTickLevel_waitFor _ _ hf (htmr rfl (by decide))⟩
  | clkLo => exact ⟨_, execClkLo_eq _, by rw [hnow]; rfl⟩
  | waitClkLo => exact ⟨_, rfl, atTickLevel_waitFor _ _ hf (htmr rfl (by decide))⟩
  | loop => exact ⟨_, execLoop_eq _, rfl⟩
  | decode => exact ⟨_, execDecode_eq _, rfl⟩
  | pack offset => exact ⟨_, execPack_eq offset, rfl⟩
  | done => exact ⟨_, execDone_eq _, by rw [hnow]; rfl⟩


/-- A micro-operation that is a wait takes one off `TMR` while more than one tick is left (R156). -/
theorem exec_countdown {s v : State} {f : Nat} {i : Instr} (hf : s.params.fClkHz = some f)
    (hd : decodePhase s.upc = .ok i) (hwait : s.upc = 0x3#4 ∨ s.upc = 0x7#4 ∨ s.upc = 0x9#4)
    (ht : 1 < s.tmr) (he : exec i s = .next v) :
    v = { s with tmr := s.tmr - 1, now := v.now } := by
  obtain ⟨w, q, hi⟩ : ∃ w q, IsWait i w q := by
    rcases hwait with hp | hp | hp <;> rw [hp] at hd <;> obtain rfl := Except.ok.inj hd
    · exact ⟨_, _, isWait_waitLatch⟩
    · exact ⟨_, _, isWait_waitClkHi⟩
    · exact ⟨_, _, isWait_waitClkLo⟩
  rw [next_unique (hi.exec_eq s) he, waitFor_count w q hf ht]

/-- The end of a step is the same at both levels. -/
theorem atTickLevel_endStep {s v w : State} {f : Nat} (hp : v.params = s.params)
    (h : AtTickLevel v w) : endStep s v = { endStep (asStepLevel s f) w with
      now := v.now, tmr := v.tmr, params := s.params } := by
  rw [← hp, h]
  rfl

/-- Settles O48: a stalled period is `stallPeriod`, a period of a countdown `exec_countdown`, and
every other period `exec_asStepLevel`. -/
theorem tickLevelRefinesStepLevel : Obligations.TickLevelRefinesStepLevel := by
  intro s t f hf hr hs
  rcases step_next_cases hs with ⟨hr', -⟩ | ⟨-, hstall, rfl⟩ | ⟨-, hcmd, hstall, i, v, hd, he, rfl⟩
  · simp [hr] at hr'
  · refine ⟨elapse_now_tick 0 hf, ?_⟩
    rw [if_pos (Bool.and_eq_true_iff.1 hstall).2]
    rfl
  · refine ⟨exec_now_tick (t := v) hf he, ?_⟩
    have hrun : s.ports.stall = false := (stalled_eq_false.1 hstall).resolve_left (by simp [hf])
    rw [if_neg (by simp [hrun])]
    split
    · next hcount =>
      obtain ⟨hwait, ht⟩ := hcount
      rw [exec_countdown hf hd hwait ht he]
      rfl
    · next hlast =>
      obtain ⟨w, hw, htick⟩ := exec_asStepLevel hf hd hlast he
      refine ⟨_, step_executes (u := asStepLevel s f) hr hcmd (.inl rfl) hd hw,
        atTickLevel_endStep (exec_environment he).1 htick, ?_⟩
      rw [endStep_evt, endStep_evt, htick]

end Sys2Proof.Machine
end

