-- ==== Sys2Proof/Proofs/Capture.lean ====
section
/-!
SUPPORT. What a connected controller captures, step by step: the pulse that captures, and the steps
that leave the capture alone (spec/20_memory.md rule R53, spec/70_reset_and_hazards.md rule R154).
-/

namespace Sys2Proof.Machine

/-! ## One step -/

/-- In every step the controller sees LATCH as the step leaves it. -/
theorem pad_of_step {s t : State} (h : step s = .next t) : t.pad = padAfter s t := by
  rcases step_next_cases h with ⟨-, ht⟩ | ⟨-, -, ht⟩ | ⟨-, -, -, i, u, -, -, ht⟩ <;>
    exact pad_of_endStep ht

theorem latchHigh_eq_false {s : State} : latchHigh s = false ↔ lineLevel s .latch ≠ some true := by
  simp [latchHigh]

/-- The state with a controller connected on which buttons `b` are held in this step. -/
def holding (b : ButtonState) (s : State) : State :=
  { s with ports := { s.ports with data := .controller b } }

theorem elapse_holding (t : Nat) (b : ButtonState) (s : State) :
    elapse t (holding b s) = holding b (elapse t s) := by
  unfold elapse holding
  cases s.params.fClkHz <;> rfl

/-- What a connected controller answers does not depend on what is held now (R154). -/
theorem pinRead_holding (b c : ButtonState) (s : State) :
    (pinRead (holding b s)).1 = (pinRead (holding c s)).1 ∧
      (pinRead (holding b s)).2.draws = (pinRead (holding c s)).2.draws := by
  have hpad : padLevel (holding b s) = padLevel (holding c s) := rfl
  simp only [pinRead, holding] at hpad ⊢
  rw [hpad]
  split <;> exact ⟨rfl, rfl⟩

theorem sample_holding {b : ButtonState} {s t : State} (c : ButtonState)
    (h : exec .sample (holding b s) = .next t) :
    exec .sample (holding c s) = .next (holding c t) := by
  obtain ⟨hlevel, hdraws⟩ := pinRead_holding b c (elapse 0 s)
  rw [exec_sample_eq_sampled, elapse_holding] at h ⊢
  rw [← hlevel, ← hdraws, ← Host.Outcome.next.inj h]
  simp only [sampled, elapse_holding]
  rfl

/-- Settles O57: SAMPLE by `sample_holding`; the other clauses by what `padAfter` says of LATCH low
and of its fall. -/
theorem captureStaysUntilTheNextPulse : Obligations.CaptureStaysUntilTheNextPulse := by
  refine ⟨fun s t held later h => sample_holding (b := held) later h,
    fun s t held hdata hr hs => ⟨fun hb ha => ?low, fun l hl hb ha => ?fall⟩⟩
  case low =>
    rw [pad_of_step hs,
      padAfter_low hr hdata (latchHigh_eq_false.2 hb) (latchHigh_eq_false.2 ha)]
  case fall =>
    refine ⟨captureOf s.pad.pulses l held, ?_, ?_⟩
    · rw [pad_of_step hs,
        padAfter_fall hr hdata (by simp [latchHigh, hb]) (latchHigh_eq_false.2 ha) hl]
    · simpa [or_comm] using captureOf_mem s.pad.pulses l held

/-! ## Runs -/

/-- A run of several steps begins with one. -/
theorem coreRun_succ_next {M : Host.Core} {n : Nat} {s t : M.State}
    (h : M.run (n + 1) s = .next t) : ∃ u, M.step s = .next u ∧ M.run n u = .next t := by
  rw [Host.Core.run.eq_def] at h
  cases hs : M.step s with
  | next u => exact ⟨u, rfl, by simpa [hs] using h⟩
  | fault r => simp [hs] at h
  | refused r => simp [hs] at h

theorem run_succ_next {n : Nat} {s t : State} (h : core.run (n + 1) s = .next t) :
    ∃ u, step s = .next u ∧ core.run n u = .next t :=
  coreRun_succ_next (M := core) h

theorem BlockInv.run {n : Nat} {s t : State} (h : BlockInv s) (hrun : core.run n s = .next t) :
    BlockInv t := by
  induction n generalizing s with
  | zero => exact Host.Outcome.next.inj hrun ▸ h
  | succ n ih =>
    obtain ⟨u, hs, hu⟩ := run_succ_next hrun
    exact ih (stepKeepsInvariant s u h hs) hu

theorem Reaches.unique {s u v : State} {n : Nat} (h : Reaches s n u) (h' : Reaches s n v) : u = v :=
  next_unique h'.run h.run

/-- Between two states of a run the controller has seen one step. -/
theorem Reaches.pad_next {s u v : State} {n : Nat} (h : Reaches s n u) (h' : Reaches s (n + 1) v) :
    v.pad = padAfter u v := by
  have hone : core.run 1 u = .next v := (run_append 1 h.run).symm.trans h'.run
  obtain ⟨w, hs, hw⟩ := run_succ_next hone
  obtain rfl : w = v := Host.Outcome.next.inj hw
  exact pad_of_step hs

/-! ## LATCH along an operation -/

/-- The two micro-operations before which LATCH is high stand at positions 2 and 3 (R73). -/
theorem fixedSequence_latch {n : Nat} {i : Instr} (h : fixedSequence[n]? = some i) :
    encode i = .uph 0x3#4 ∨ encode i = .uph 0x4#4 ↔ n = 2 ∨ n = 3 := by
  have hall : ∀ n < 55, (fixedSequence[n]?.map encode = some (.uph 0x3#4) ∨
      fixedSequence[n]?.map encode = some (.uph 0x4#4)) ↔ n = 2 ∨ n = 3 := by decide
  have hn : n < 55 := (List.getElem?_eq_some_iff.1 h).1
  simpa [h] using hall n hn

/-- Of the states an operation passes, LATCH is high in the third and the fourth (R33 (c), R73). -/
theorem Starts.latchHigh_at {s u : State} {n : Nat} (hs : Starts s) (hb : BlockInv s)
    (r : Reaches s (n + 1) u) (hn : n < 55) : latchHigh u = decide (n = 2 ∨ n = 3) := by
  obtain ⟨v, i, rv, hv⟩ := hs.atPosition r.clock r.quiet hn
  obtain rfl := rv.unique r
  have hinv : BlockInv v := hb.run r.run
  have hdir : v.dir.latch = true := hinv.dir_outputs.1.trans (hinv.busy_inited hv.busy)
  have hcode : encode i = .uph v.upc := encode_of_decodePhase hv.phase
  have hseq := fixedSequence_latch hv.here
  rw [hcode, CodeWord.uph.injEq, CodeWord.uph.injEq] at hseq
  rw [latchHigh_eq, hdir, hinv.row.pins, Bool.true_and]
  exact decide_eq_decide.2 hseq

/-! ## The capture along an operation -/

/-- The latch pulse captures the buttons held in one of its steps (R53 (a), R54 (c)). -/
theorem Starts.pulse_captures_held {s u : State} {held : Nat → ButtonState} (hs : Starts s)
    (hb : BlockInv s) (hc : ControllerConnected s held) (r₅ : Reaches s 5 u) :
    ∃ m, 2 ≤ m ∧ m ≤ 4 ∧ u.pad.capture = .captured (held m) := by
  obtain ⟨u₂, -, r₂, -⟩ := hs.atPosition r₅.clock r₅.quiet (n := 1) (by decide)
  obtain ⟨u₃, -, r₃, -⟩ := hs.atPosition r₅.clock r₅.quiet (n := 2) (by decide)
  obtain ⟨u₄, -, r₄, -⟩ := hs.atPosition r₅.clock r₅.quiet (n := 3) (by decide)
  have data {n : Nat} {v : State} (r : Reaches s n v) (h2 : 2 ≤ n) (h4 : n ≤ 4) :
      v.ports.data = .controller (held n) := r.ports ▸ hc n h2 (by omega)
  have low₂ := hs.latchHigh_at hb r₂ (by decide)
  have high₃ := hs.latchHigh_at hb r₃ (by decide)
  have high₄ := hs.latchHigh_at hb r₄ (by decide)
  have low₅ := hs.latchHigh_at hb r₅ (by decide)
  have latching₃ : u₃.pad.capture = .latching [held 2] := by
    rw [r₂.pad_next r₃, padAfter_rise r₂.no_reset (data r₂ le_rfl (by decide)) low₂ high₃]
  have latching₄ : u₄.pad.capture = .latching [held 2, held 3] := by
    rw [r₃.pad_next r₄,
      padAfter_high r₃.no_reset (data r₃ (by decide) (by decide)) high₃ high₄ latching₃]
    rfl
  have captured : u.pad.capture =
      .captured (captureOf u₄.pad.pulses [held 2, held 3] (held 4)) := by
    rw [r₄.pad_next r₅,
      padAfter_fall r₄.no_reset (data r₄ (by decide) le_rfl) high₄ low₅ latching₄]
  have hmem := captureOf_mem u₄.pad.pulses [held 2, held 3] (held 4)
  simp only [List.cons_append, List.nil_append, List.mem_cons, List.not_mem_nil, or_false] at hmem
  rw [captured]
  rcases hmem with h | h | h
  · exact ⟨2, by decide, by decide, by rw [h]⟩
  · exact ⟨3, by decide, by decide, by rw [h]⟩
  · exact ⟨4, by decide, by decide, by rw [h]⟩

/-- The capture stays until the last SAMPLE, whatever is held (R154). -/
theorem Starts.capture_stays {s u v : State} {held : Nat → ButtonState} {n : Nat} (hs : Starts s)
    (hb : BlockInv s) (hc : ControllerConnected s held) (r : Reaches s 5 u) (r' : Reaches s n v)
    (h5 : 5 ≤ n) (h47 : n ≤ 47) : v.pad = u.pad := by
  induction n, h5 using Nat.le_induction generalizing v with
  | base => rw [r.unique r']
  | succ n h5 ih =>
    obtain ⟨k, rfl⟩ : ∃ k, n = k + 1 := ⟨n - 1, by omega⟩
    obtain ⟨w, -, rw', -⟩ := hs.atPosition r.clock r.quiet (n := k) (by omega)
    have hdata : w.ports.data = .controller (held (k + 1)) :=
      rw'.ports ▸ hc _ (by omega) (by omega)
    have low := hs.latchHigh_at hb rw' (by omega)
    have low' := hs.latchHigh_at hb r' (by omega)
    rw [rw'.pad_next r', padAfter_low rw'.no_reset hdata
      (low.trans (decide_eq_false (by omega))) (low'.trans (decide_eq_false (by omega)))]
    exact ih rw' (by omega)

/-- Every SAMPLE reads a flag of the buttons captured at the pulse, low for pressed (R53). -/
theorem Starts.reads_captured {s : State} {held : Nat → ButtonState} (hs : Starts s)
    (hb : BlockInv s) (hclk : s.params.fClkHz = none) (hq : Undisturbed s 55)
    (hc : ControllerConnected s held) :
    ∃ m, 2 ≤ m ∧ m ≤ 4 ∧ ReadsLevels s fun k => !(held m).get k := by
  obtain ⟨u, -, r, -⟩ := hs.atPosition hclk hq (n := 4) (by decide)
  obtain ⟨m, h2, h4, hm⟩ := hs.pulse_captures_held hb hc r
  refine ⟨m, h2, h4, fun k v hk hv => ?_⟩
  have hpad := hs.capture_stays hb hc r hv.reaches (by omega) (by omega)
  obtain ⟨l, hl, htrace⟩ := hv.trace
  rw [pinRead_controller (held := held (5 + 6 * k)) (p := held m)]
  · rw [elapse_ports, hv.reaches.ports, hc _ (by omega) (by omega)]
  · rw [elapse_pad, hpad, hm]
  · rw [elapse_evt, hl, htrace.contractLevel_eq hk (le_elapse_now 0 v)]

/-- Settles O56: the samples are the inverted flags of what was captured, and SAMPLE inverts them
again. -/
theorem buttonsAreCapturedAtTheLatch : Obligations.ButtonsAreCapturedAtTheLatch := by
  intro s held hb hs hclk hq hc
  obtain ⟨m, h2, h4, hread⟩ := hs.reads_captured hb hclk hq hc
  obtain ⟨t, hrun, hrdy, -, hbs, hrpt⟩ := hs.result hclk hq hread
  have hflags : t.bs = held m := ButtonState.ext_get fun k hk => by rw [hbs k hk, Bool.not_not]
  refine ⟨t, m, hrun, h2, h4, hrdy, hflags, fun k hk => ?_⟩
  rw [hrpt _ (buttonOffset_lt hs.params_wf), if_pos rfl, packButtons_getLsbD _ hk, hflags]

end Sys2Proof.Machine
end

