-- ==== Sys2Proof/Proofs/OperationTime.lean ====
section
/-!
SUPPORT. How long a whole operation lasts: at least 108 microseconds at step level (R150), and an
exact number of unstalled periods at tick level (spec/70_reset_and_hazards.md rule R156).
-/

namespace Sys2Proof.Machine

/-! ## Step level -/

/-- The level SAMPLE `k` of the operation that starts in `s` reads, whoever fixes it. -/
def levelRead (s : State) (k : Nat) : Level :=
  match core.run (5 + 6 * k) s with
  | .next u => (pinRead (elapse 0 u)).1
  | .fault _ => false
  | .refused _ => false

theorem readsLevels_levelRead (s : State) : ReadsLevels s (levelRead s) := by
  intro k u _ hu
  rw [levelRead, hu.reaches.run]

/-- Before REPORT_READY the trace asks for what it asks for before a sample (R145). -/
theorem minimaHold_reportReady {l : List Stamped} {t t' : Time}
    (h : minimaHold (l ++ [(.sample 0#4 true, t)]) = true) (ht : t ≤ t') (bytes : List Byte) :
    minimaHold (l ++ [(.reportReady bytes, t')]) = true := by
  obtain ⟨hl, hlast⟩ := (minimaHold_append_one l _).1 h
  refine (minimaHold_append_one l _).2 ⟨hl, fun x hx => le_trans ?_ ht⟩
  obtain ⟨e, tx⟩ := x
  cases e <;> exact hlast _ hx

/-- DECODE, PACK and DONE emit one event, at the instant of the last step. -/
theorem AtSample.reportReady {s u : State} {d : Nat → Level} (h : AtSample s d 8 u)
    (ho : s.params.buttonOffset < s.params.reportBytes) :
    ∃ t bytes, core.run 56 s = .next t ∧ u.now ≤ t.now ∧
      t.evt = u.evt ++ [(.reportReady bytes, t.now)] := by
  obtain ⟨u1, e1, r1⟩ := h.reaches.microOp .decode (by rw [h.phase]; rfl) (execDecode_eq u)
  obtain ⟨u2, e2, r2⟩ := r1.microOp .pack (by rw [e1]; rfl)
    (execPack_eq (by rw [r1.params]; exact ho))
  obtain ⟨u3, e3, r3⟩ := r2.microOp .done (by rw [e2]; rfl) (execDone_eq u2)
  have t1 : u.now ≤ u1.now := by rw [e1]; exact le_elapse_now 0 u
  have t2 : u1.now ≤ u2.now := by rw [e2]; exact le_elapse_now 0 u1
  have t3 : u2.now ≤ u3.now := by rw [e3]; exact le_elapse_now 0 u2
  exact ⟨u3, reportImage u2, r3.run, (t1.trans t2).trans t3, by rw [e3, e2, e1]; rfl⟩

/-- Settles O46: the events of the operation are those of one read, and they meet the minima. -/
theorem operationLastsAtLeast108 : Obligations.OperationLastsAtLeast108 := by
  intro s hs hclk hq
  obtain ⟨u, hu⟩ := hs.atSample hclk hq (readsLevels_levelRead s) le_rfl
  obtain ⟨t, bytes, hrun, hnow, hevt⟩ := hu.reportReady (buttonOffset_lt hs.params_wf)
  obtain ⟨l, hl, hmap, hmin⟩ := hu.trace
  cases l with
  | nil => cases hmap
  | cons x mid =>
    obtain ⟨e, rise⟩ := x
    obtain rfl : e = .latchRise := (List.cons.inj hmap).1
    obtain ⟨first, last, hfirst, hlast, hspan⟩ := traceOfOneReadLasts108
      ((.latchRise, rise) :: mid ++ [(.reportReady bytes, t.now)]) (levelRead s) bytes
      (by rw [List.map_append, hmap]; rfl) (minimaHold_reportReady hmin hnow bytes)
    obtain rfl := Option.some.inj hfirst
    obtain rfl := Option.some.inj (List.getLast?_concat.symm.trans hlast)
    exact ⟨t, mid, rise, t.now, bytes, hrun, by rw [hevt, hl], hspan⟩

/-! ## Tick level: what is left of an operation -/

/-- A load of `TMR` leaves a wait as many periods as it takes (R92, R96, R98, R156). -/
theorem loadTmr_stepCount {s : State} {f : Nat} (hf : s.params.fClkHz = some f) {i : Instr}
    {t : Nat} (hi : leastWait i = t) : max 1 (loadTmr t s).tmr = stepCount s.params i := by
  rw [loadTmr_tick t hf, stepCount_tick hf, hi]

/-- A period of a wait is one period less to do, when after the wait its successor `j` is left. -/
theorem waitFor_stepsLeft {s : State} {f : Nat} (hf : s.params.fClkHz = some f) {i : Instr}
    (t : Nat) (q : PhaseCode) (j : Instr) (hi : decodePhase s.upc = .ok i) (hj : decodePhase q = .ok j)
    (hleft : ∀ tmr tmr', stepsFromInstr s.params s.i.toNat tmr i =
      max 1 tmr + stepsFromInstr s.params s.i.toNat tmr' j) :
    stepsLeft (waitFor t q s) + 1 = stepsFromInstr s.params s.i.toNat s.tmr i := by
  by_cases ht : 1 < s.tmr
  · rw [waitFor_count t q hf ht, stepsLeft_eq (i := i) (by exact hi), hleft _ 0, hleft _ 0]
    dsimp only
    omega
  · rw [waitFor_last t q hf ht, stepsLeft_eq (i := j) (by exact hj), hleft _ 0]
    dsimp only
    omega

/-- An operation under way at tick level. BlockInv asks for more, but an operation can start in a
state that does not meet it; after CLR `I` is what R33 (b) says. -/
structure CountsDown (f : Nat) (s : State) : Prop where
  clock : s.params.fClkHz = some f
  params_wf : s.params.wf = true
  busy : s.busy = true
  selects : ∃ i, decodePhase s.upc = .ok i ∧ i ≠ .idle
  count : s.upc = 0x1#4 ∨ countAllowed s.upc s.i = true

/-- Something is left of an operation under way. -/
theorem CountsDown.stepsLeft_pos {f : Nat} {s : State} (h : CountsDown f s) : 1 ≤ stepsLeft s := by
  obtain ⟨i, hd, hidle⟩ := h.selects
  have hcode : encode i = .uph s.upc := encode_of_decodePhase hd
  rw [stepsLeft_eq hd]
  cases i with
  | nop | init | createReport | processReport => cases hcode
  | idle => contradiction
  | _ => simp only [stepsFromInstr, operationLength, bitLength]; omega

/-- In a phase after CLR `I` is what R33 (b) says. -/
theorem CountsDown.count_at {f : Nat} {s : State} {i : Instr} {p : PhaseCode} (h : CountsDown f s)
    (hd : decodePhase s.upc = .ok i) (hi : encode i = .uph p) (hp : p ≠ 0x1#4) :
    countAllowed p s.i = true := by
  obtain rfl := upc_of_decodePhase hd hi
  exact h.count.resolve_left hp

/-- A wait stays under way or goes on to its successor. -/
theorem CountsDown.waits {f : Nat} {s : State} (h : CountsDown f s) (t : Nat) {q : PhaseCode}
    (hq : ∃ j, decodePhase q = .ok j ∧ j ≠ .idle) (hc : countAllowed q s.i = true) :
    CountsDown f (waitFor t q s) := by
  by_cases ht : 1 < s.tmr
  · rw [waitFor_count t q h.clock ht]
    exact ⟨h.clock, h.params_wf, h.busy, h.selects, h.count⟩
  · rw [waitFor_last t q h.clock ht]
    exact ⟨h.clock, h.params_wf, h.busy, hq, .inr hc⟩

/-- A period of an operation, DONE's apart, leaves it under way (R103). -/
theorem CountsDown.goes_on {f : Nat} {s t : State} {i : Instr} (h : CountsDown f s)
    (hd : decodePhase s.upc = .ok i) (hidle : i ≠ .idle) (hdone : i ≠ .done)
    (he : exec i s = .next t) : CountsDown f t := by
  have hbusy : canTake s = false := canTake_eq_false.2 (.inr h.busy)
  have hcode : encode i = .uph s.upc := encode_of_decodePhase hd
  have hcount {p : PhaseCode} (hi : encode i = .uph p) := h.count_at hd hi
  have after {u : State} (hp : u.params = s.params) (hb : u.busy = s.busy)
      (hj : ∃ j, decodePhase u.upc = .ok j ∧ j ≠ .idle) (hc : countAllowed u.upc u.i = true) :
      CountsDown f u := ⟨hp ▸ h.clock, hp ▸ h.params_wf, hb.trans h.busy, hj, .inr hc⟩
  cases exec_effect he with
  | nop => cases hcode
  | init _ taken | createReport _ taken | processReport _ taken => simp [hbusy] at taken
  | idle | done => contradiction
  | clr => exact after rfl rfl ⟨_, rfl, by decide⟩ rfl
  | latchHi => exact after rfl rfl ⟨_, rfl, by decide⟩ (hcount (p := 0x2#4) rfl (by decide))
  | waitLatch =>
    exact h.waits tLatchMin ⟨_, rfl, by decide⟩ (hcount (p := 0x3#4) rfl (by decide))
  | latchLo =>
    have hi : s.i = 0#4 := of_decide_eq_true (hcount (p := 0x4#4) rfl (by decide))
    exact after rfl rfl ⟨_, rfl, by decide⟩ (by dsimp only; rw [hi]; rfl)
  | sample => exact after rfl rfl ⟨_, rfl, by decide⟩ (hcount (p := 0x5#4) rfl (by decide))
  | clkHi => exact after rfl rfl ⟨_, rfl, by decide⟩ (hcount (p := 0x6#4) rfl (by decide))
  | waitClkHi =>
    exact h.waits tClkHiMin ⟨_, rfl, by decide⟩ (hcount (p := 0x7#4) rfl (by decide))
  | clkLo => exact after rfl rfl ⟨_, rfl, by decide⟩ (hcount (p := 0x8#4) rfl (by decide))
  | waitClkLo =>
    exact h.waits tClkLoMin ⟨_, rfl, by decide⟩ (hcount (p := 0x9#4) rfl (by decide))
  | loop =>
    obtain ⟨hon, hout⟩ := loop_count (hcount (p := 0xA#4) rfl (by decide))
    split
    · next hlt => exact after rfl rfl ⟨_, rfl, by decide⟩ (hon hlt)
    · next hlt => exact after rfl rfl ⟨_, rfl, by decide⟩ (hout hlt)
  | decode => exact after rfl rfl ⟨_, rfl, by decide⟩ (hcount (p := 0xB#4) rfl (by decide))
  | pack => exact after rfl rfl ⟨_, rfl, by decide⟩ (hcount (p := 0xC#4) rfl (by decide))

/-- A period of an operation is one less to do (R156). -/
theorem CountsDown.exec_stepsLeft {f : Nat} {s t : State} {i : Instr} (h : CountsDown f s)
    (hd : decodePhase s.upc = .ok i) (hidle : i ≠ .idle) (he : exec i s = .next t) :
    stepsLeft t + 1 = stepsLeft s := by
  have hbusy : canTake s = false := canTake_eq_false.2 (.inr h.busy)
  have hcode : encode i = .uph s.upc := encode_of_decodePhase hd
  have hcount {p : PhaseCode} (hi : encode i = .uph p) := h.count_at hd hi
  rw [stepsLeft_eq hd]
  cases exec_effect he with
  | nop => cases hcode
  | init _ taken | createReport _ taken | processReport _ taken => simp [hbusy] at taken
  | idle => contradiction
  | clr => rw [stepsLeft_eq (i := .latchHi) rfl]; simp only [stepsFromInstr, operationLength]; omega
  | latchHi =>
    rw [stepsLeft_eq (i := .waitLatch) rfl]
    simp only [stepsFromInstr, loadTmr_stepCount h.clock (i := .waitLatch) (t := tLatchMin) rfl]
    omega
  | waitLatch =>
    exact waitFor_stepsLeft h.clock tLatchMin 0x4#4 .latchLo hd rfl fun _ _ => Nat.add_assoc _ _ _
  | latchLo =>
    have hi : s.i = 0#4 := of_decide_eq_true (hcount (p := 0x4#4) rfl (by decide))
    rw [stepsLeft_eq (i := .sample) rfl]
    simp only [stepsFromInstr, hi, BitVec.toNat_ofNat, Nat.zero_mod]
    omega
  | sample => rw [stepsLeft_eq (i := .clkHi) rfl]; simp only [stepsFromInstr, bitLength]; omega
  | clkHi =>
    rw [stepsLeft_eq (i := .waitClkHi) rfl]
    simp only [stepsFromInstr, loadTmr_stepCount h.clock (i := .waitClkHi) (t := tClkHiMin) rfl]
    omega
  | waitClkHi =>
    refine waitFor_stepsLeft h.clock tClkHiMin 0x8#4 .clkLo hd rfl fun _ _ => ?_
    simp only [stepsFromInstr]
    omega
  | clkLo =>
    rw [stepsLeft_eq (i := .waitClkLo) rfl]
    simp only [stepsFromInstr, loadTmr_stepCount h.clock (i := .waitClkLo) (t := tClkLoMin) rfl]
    omega
  | waitClkLo =>
    exact waitFor_stepsLeft h.clock tClkLoMin 0xA#4 .loop hd rfl fun _ _ => Nat.add_assoc _ _ _
  | loop =>
    have hi : s.i ≤ 7#4 := of_decide_eq_true (hcount (p := 0xA#4) rfl (by decide))
    exact loop_stepsLeft (BitVec.le_def.1 hi) _
  | decode | pack | done => rfl

/-! ## Tick level: the run of an operation -/

/-- `u` is reached in `n` periods from `s`, and the environment has gone on by `n` inputs. -/
structure PeriodsTo (s : State) (n : Nat) (u : State) : Prop where
  run : core.run n s = .next u
  ports : u.ports = inputAt s n
  script : u.script = s.script.drop n

theorem PeriodsTo.start (s : State) : PeriodsTo s 0 s :=
  ⟨rfl, rfl, rfl⟩

theorem PeriodsTo.next {s u v : State} {n : Nat} {i : Instr} (h : PeriodsTo s n u)
    (he : exec i u = .next v) (hs : step u = .next (endStep u v)) :
    PeriodsTo s (n + 1) (endStep u v) := by
  have hscript : v.script = s.script.drop n := (exec_environment he).2.trans h.script
  exact ⟨by rw [run_append 1 h.run, run_next hs]; rfl,
    by rw [endStep_ports, hscript, headD_drop_script],
    by rw [endStep_script, hscript, List.tail_drop]⟩

/-- An unstalled period of an operation under way: the operation goes on with one period less to do,
or the period was DONE's and the last. -/
theorem PeriodsTo.period {f n : Nat} {s u : State} (h : PeriodsTo s n u) (hu : CountsDown f u)
    (hq : (inputAt s n).cmd = 0b00#2 ∧ (inputAt s n).rst = false)
    (hrun : (inputAt s n).stall = false) :
    ∃ v, PeriodsTo s (n + 1) v ∧
      (CountsDown f v ∧ stepsLeft v + 1 = stepsLeft u ∨
        stepsLeft u = 1 ∧ v.upc = 0x0#4 ∧ v.busy = false ∧ v.rdy = true) := by
  obtain ⟨i, hd, hidle⟩ := hu.selects
  obtain ⟨v, he⟩ := phase_exec_next hd hu.params_wf fun hi => absurd hi hidle
  rw [← h.ports] at hq hrun
  refine ⟨_, h.next he (step_executes hq.2 (.inl hq.1) (.inr hrun) hd he), ?_⟩
  by_cases hdone : i = .done
  · subst hdone
    rw [next_unique (execDone_eq u) he]
    exact .inr ⟨stepsLeft_eq hd, rfl, rfl, rfl⟩
  · obtain ⟨hclk, hwf, hb, hi, hc⟩ := hu.goes_on hd hidle hdone he
    exact .inl ⟨⟨hclk, hwf, hb, hi, hc⟩, hu.exec_stepsLeft (t := v) hd hidle he⟩

/-- The periods of an operation as R156 counts them. -/
theorem operationLength_tick {p : Params} {f : Nat} (hp : p.wf = true) (hf : p.fClkHz = some f) :
    operationLength p = 38 + tickCount 12 f + 8 * (tickCount 6 f + tickCount 6 f) := by
  have hf' := one_le_clock hp hf
  have h12 : 1 ≤ tickCount 12 f := tickCount_pos (by decide) hf'
  have h6 : 1 ≤ tickCount 6 f := tickCount_pos (by decide) hf'
  simp only [operationLength, bitLength, stepCount_tick hf, leastWait_waitLatch,
    leastWait_waitClkHi, leastWait_waitClkLo]
  omega

/-- After the acceptance the operation counts down from its whole length: the induction over the
periods. -/
theorem Starts.countsDown {s : State} {f n : Nat} (hs : Starts s) (hf : s.params.fClkHz = some f)
    (hq : Undisturbed s (operationLength s.params))
    (hrun : ∀ k, k ≤ operationLength s.params → (inputAt s k).stall = false)
    (hn : n < operationLength s.params) :
    ∃ u, PeriodsTo s (n + 1) u ∧ CountsDown f u ∧ stepsLeft u + n = operationLength s.params := by
  induction n with
  | zero =>
    have hstep := step_executes hs.no_reset (.inr (canTake_iff.2 ⟨hs.idle, hs.not_busy⟩))
      (.inr (hrun 0 (Nat.zero_le _))) (by rw [hs.idle]; rfl) hs.accepted
    exact ⟨_, (PeriodsTo.start s).next hs.accepted hstep,
      ⟨hf, hs.params_wf, rfl, ⟨.clr, rfl, by decide⟩, .inl rfl⟩, rfl⟩
  | succ n ih =>
    obtain ⟨u, hu, hcounts, hleft⟩ := ih (by omega)
    obtain ⟨v, hv, ⟨hcounts', hless⟩ | ⟨hlast, -⟩⟩ :=
      hu.period hcounts (hq _ (by omega) hn.le) (hrun _ hn.le)
    · exact ⟨v, hv, hcounts', by omega⟩
    · omega

/-- Settles O47: the operation is under way while it counts down, and the last period is DONE's. -/
theorem tickOperationLength : Obligations.TickOperationLength := by
  intro s f total hs hf htotal hq hrun
  rw [← tickCount_eq_ceil, ← tickCount_eq_ceil, ← operationLength_tick hs.params_wf hf] at htotal
  subst htotal
  refine ⟨fun n h1 hn => ?busy, ?ends⟩
  case busy =>
    obtain ⟨u, hu, hcounts, -⟩ := hs.countsDown hf hq hrun (n := n - 1) (by omega)
    rw [Nat.sub_add_cancel h1] at hu
    exact ⟨u, hu.run, hcounts.busy⟩
  case ends =>
    obtain ⟨last, hlen⟩ : ∃ last, operationLength s.params = last + 1 :=
      ⟨_, (Nat.sub_add_cancel (by simp only [operationLength]; omega)).symm⟩
    obtain ⟨u, hu, hcounts, hleft⟩ := hs.countsDown hf hq hrun (n := last) (by omega)
    rw [hlen] at hq hrun hleft ⊢
    obtain ⟨t, ht, ⟨hcounts', hless⟩ | ⟨-, hend⟩⟩ :=
      hu.period hcounts (hq _ (by omega) le_rfl) (hrun _ le_rfl)
    · have hpos := hcounts'.stepsLeft_pos
      omega
    · exact ⟨t, ht.run, hend⟩

end Sys2Proof.Machine
end
